-- ==== Sys2Proof/Word.lean ====
section
/-! DEFINITION. The word types of the core, with the widths of spec/00_scope.md section 4 and spec/10_state.md. -/

namespace Sys2Proof

/-- `u1`: an input level, a direction or the button level. -/
abbrev Bit := BitVec 1

/-- `u8`: every transfer on the RX and TX streams is one whole byte (R48). -/
abbrev Byte := BitVec 8

/-- `u7`: the value of a parameter byte (R68). -/
abbrev Digit := BitVec 7

/-- `u16`: a raw analog reading (D28). -/
abbrev Raw := BitVec 16

/-- `u32`: a time in microseconds; all time arithmetic is modulo 2^32 (R6). -/
abbrev Micros := BitVec 32

/-- `u32`: a reading or transition count, modulo 2^32 (R6, C7). -/
abbrev Count := BitVec 32

end Sys2Proof
end

