-- ==== Sys2Proof/Config.lean ====
section
/-! DEFINITION. What an implementation of the core fixes (the parameters of spec/00_scope.md section 3, with the constraints of
R3 and R4), what the environment can do, and the free values: opaque constants without a body, of which Lean can prove nothing. -/

namespace Sys2Proof

/-! ## Channels (R1, D15) -/

/-- The two digital channels, `D[0]` and `D[1]`. -/
inductive DigId where
  | dig1 | dig2
deriving DecidableEq, Repr, Inhabited

/-- The four analog channels, `A[0]` to `A[3]`. -/
inductive AnId where
  | an051 | an101 | an052 | an102
deriving DecidableEq, Repr, Inhabited

/-- Any channel. -/
inductive ChanId where
  | dig (d : DigId)
  | an (a : AnId)
deriving DecidableEq, Repr, Inhabited

/-! ## The opcode map (R75, R141) -/

/-- The sixteen rows of the opcode map: ST_VERS and ST_ANALOG share one row (R141). -/
inductive MapRow where
  | arm | halt | blinkled
  | immDig1 | immDig2 | immAn051 | immAn101 | immAn052 | immAn102 | immButstate
  | mdeSync | mdeAsamptime | mdeAstop | mdeAtrig | mdeDtrig
  | st
deriving DecidableEq, Repr, Inhabited

/-- Every row of the map, in the order of spec/30_encoding.md section 4. -/
def MapRow.all : List MapRow :=
  [.arm, .halt, .blinkled, .immDig1, .immDig2, .immAn051, .immAn101, .immAn052, .immAn102, .immButstate, .mdeSync,
   .mdeAsamptime, .mdeAstop, .mdeAtrig, .mdeDtrig, .st]

/-- The parameter count `N` of a row (spec/30_encoding.md section 4). -/
def MapRow.count : MapRow → BitVec 2
  | .arm | .blinkled | .mdeAsamptime | .mdeDtrig | .st => 1
  | .mdeAstop | .mdeAtrig => 2
  | .halt | .immDig1 | .immDig2 | .immAn051 | .immAn101 | .immAn052 | .immAn102 | .immButstate | .mdeSync => 0

/-! ## Parameters (R3, R4, R10, R184) -/

/-- The sixteen OPEN function codes `FC_*` (R3, D12). -/
structure FunctionCodes where
  arm : BitVec 5
  halt : BitVec 5
  blinkled : BitVec 5
  immDig1 : BitVec 5
  immDig2 : BitVec 5
  immAn051 : BitVec 5
  immAn101 : BitVec 5
  immAn052 : BitVec 5
  immAn102 : BitVec 5
  immButstate : BitVec 5
  mdeSync : BitVec 5
  mdeAsamptime : BitVec 5
  mdeAstop : BitVec 5
  mdeAtrig : BitVec 5
  mdeDtrig : BitVec 5
  st : BitVec 5
deriving DecidableEq, Repr, Inhabited

/-- The 3-bit source tags `SRC_*`; the defaults are those of D16, and a model may override them. -/
structure SourceTags where
  dig1 : BitVec 3 := 0
  dig2 : BitVec 3 := 1
  an051 : BitVec 3 := 2
  an101 : BitVec 3 := 3
  an052 : BitVec 3 := 4
  an102 : BitVec 3 := 5
  button : BitVec 3 := 6
deriving DecidableEq, Repr, Inhabited

/-- `SRC_DIG1` and `SRC_DIG2`. -/
def SourceTags.digital (t : SourceTags) : DigId → BitVec 3
  | .dig1 => t.dig1
  | .dig2 => t.dig2

/-- `SRC_AN051` to `SRC_AN102`. -/
def SourceTags.analog (t : SourceTags) : AnId → BitVec 3
  | .an051 => t.an051
  | .an101 => t.an101
  | .an052 => t.an052
  | .an102 => t.an102

/-- The parameters of the core: fixed before reset is released and constant afterwards (R184). -/
structure Params where
  /-- `FC_*`. -/
  codes : FunctionCodes
  /-- `SRC_*`. -/
  tags : SourceTags
  /-- `RATE_TABLE`: rate code to sample period in microseconds; period 0 is the `ButtonPress` sentinel. -/
  rates : List (Digit × Micros)
  /-- `RESET_SAMPLE_PERIOD`. -/
  resetSamplePeriod : Micros
  /-- `RX_DEPTH`, the capacity of the RX FIFO (D4). -/
  rxDepth : Nat
deriving DecidableEq, Repr, Inhabited

/-- The function code of a row of the opcode map. -/
def Params.code (p : Params) : MapRow → BitVec 5
  | .arm => p.codes.arm
  | .halt => p.codes.halt
  | .blinkled => p.codes.blinkled
  | .immDig1 => p.codes.immDig1
  | .immDig2 => p.codes.immDig2
  | .immAn051 => p.codes.immAn051
  | .immAn101 => p.codes.immAn101
  | .immAn052 => p.codes.immAn052
  | .immAn102 => p.codes.immAn102
  | .immButstate => p.codes.immButstate
  | .mdeSync => p.codes.mdeSync
  | .mdeAsamptime => p.codes.mdeAsamptime
  | .mdeAstop => p.codes.mdeAstop
  | .mdeAtrig => p.codes.mdeAtrig
  | .mdeDtrig => p.codes.mdeDtrig
  | .st => p.codes.st

/-- R3: two commands whose parameter counts are equal do not share a function code. -/
def Params.codesDistinct (p : Params) : Bool :=
  MapRow.all.all fun r => MapRow.all.all fun r' => r == r' || r.count != r'.count || p.code r != p.code r'

/-- `RATE_TABLE` is a map: no code has two entries (R4). -/
def Params.ratesFunctional (p : Params) : Bool :=
  decide (p.rates.map Prod.fst).Nodup

/-- Exactly one code maps to the `ButtonPress` sentinel, period 0 (R4). -/
def Params.oneButtonCode (p : Params) : Bool :=
  (p.rates.filter fun r => r.2 == 0).length == 1

/-- A period that `RATE_TABLE` may hold: the sentinel 0, or 1 ms to 30 s (R4). -/
def legalPeriod (t : Micros) : Bool :=
  t == 0 || (decide (1000 ≤ t.toNat) && decide (t.toNat ≤ 30000000))

/-- Every entry of `RATE_TABLE` is a legal period (R4). -/
def Params.ratesInRange (p : Params) : Bool :=
  p.rates.all fun r => legalPeriod r.2

/-- The smallest non-zero entry is 1000 and the largest 30000000: with `ratesInRange`, both are entries (R4). -/
def Params.ratesSpan (p : Params) : Bool :=
  (p.rates.any fun r => r.2 == 1000) && (p.rates.any fun r => r.2 == 30000000)

/-- `RESET_SAMPLE_PERIOD` is one of the table's values (R4). -/
def Params.resetPeriodInTable (p : Params) : Bool :=
  p.rates.any fun r => r.2 == p.resetSamplePeriod

/-- `RX_DEPTH` is at least 1 (spec/00_scope.md section 3). -/
def Params.depthPositive (p : Params) : Bool :=
  decide (1 ≤ p.rxDepth)

/-- The constraints the spec puts on a parameter assignment (R3, R4, D4). -/
def Params.wf (p : Params) : Bool :=
  p.codesDistinct && p.ratesFunctional && p.oneButtonCode && p.ratesInRange && p.ratesSpan && p.resetPeriodInTable &&
    p.depthPositive

/-! ## Status text (R5) -/

/-- A status reply: one or more lines. A character `c : Fin 95` is the byte `0x20 + c`, so that the alphabet 0x20..0x7E holds by
construction (R5). -/
structure StatusText where
  first : List (Fin 95)
  more : List (List (Fin 95))
deriving DecidableEq, Repr, Inhabited

/-! ## What the environment and the agents can do (R129, R130, R175, R176) -/

/-- One move of one agent. The tick sequencer moves at `sequencer`; the receive path at `rx`; every other event is the environment
driving an input port (R129, R175). -/
inductive Event where
  /-- The tick sequencer takes its enabled step, if it has one. -/
  | sequencer
  /-- RX_APPEND: the transport delivers a byte (R53). -/
  | rx (b : Byte)
  /-- `now_us` moves to `adv` microseconds after the last value read (R172). -/
  | time (adv : BitVec 31)
  /-- A digital input takes a level. -/
  | digital (d : DigId) (l : Bit)
  /-- An analog input takes a raw value. -/
  | analog (a : AnId) (r : Raw)
  /-- The debounced button takes a level (1 = pressed). -/
  | button (l : Bit)
  /-- The source of the status text takes a value. -/
  | status (t : StatusText)
  /-- `rst` is asserted (R180). -/
  | rstAssert
  /-- `rst` is released (R36, R180). -/
  | rstRelease
deriving DecidableEq, Repr, Inhabited

namespace Config

/-- `PARAM_SENTINEL` (D9). -/
def paramSentinel : Byte := 0xFF

/-- `THRESH_SHIFT` (D19). -/
def thresholdShift : Nat := 3

/-- TESTCFG (D45): the assignment of spec/95_test_vectors.md, used by tests, and by `params` where the supplied one breaks R3 or R4. It
is no claim about the hardware. -/
def testcfg : Params where
  codes :=
    { arm := 1, halt := 2, blinkled := 3, immDig1 := 4, immDig2 := 5, immAn051 := 6, immAn101 := 7, immAn052 := 8, immAn102 := 9,
      immButstate := 10, mdeSync := 11, mdeAsamptime := 12, mdeAstop := 13, mdeAtrig := 14, mdeDtrig := 15, st := 16 }
  tags := {}
  rates := [(0, 0), (1, 1000), (2, 10000), (3, 100000), (4, 1000000), (5, 30000000)]
  resetSamplePeriod := 1000000
  rxDepth := 64

/-- The parameters the implementation supplies: OPEN (D12, D22, D38, D4). -/
opaque suppliedParams : Params

/-- The parameters of this core: any assignment that meets the spec's constraints (assumption 1). -/
def params : Params :=
  if suppliedParams.wf then suppliedParams else testcfg

/-- Free value: the events that fall between two turns of the tick sequencer, a finite list for each turn (R129, R170; assumption 3). Every
order of events in which the sequencer is not shut out for ever (R139; assumption 20) is such a sequence of lists. -/
opaque round : Nat → List Event

/-- Free value: `now_us` when reset is released (R185). -/
opaque timeAtReset : Micros

/-- Free value: the level of each digital input when reset is released (R36, I11). -/
opaque digitalAtReset : DigId → Bit

/-- Free value: the value of each analog input when reset is released (I11). -/
opaque analogAtReset : AnId → Raw

/-- Free value: the button level when reset is released (I11). -/
opaque buttonAtReset : Bit

/-- Free value: the status text when reset is released (I10). -/
opaque statusTextAtReset : StatusText

/-- The units of an analog channel: constants outside the spec (R117, N6). -/
opaque analogUnits : AnId → String

/-- The name of an analog channel: constants outside the spec (R117, N6). -/
opaque analogName : AnId → String

end Config

end Sys2Proof
end

