-- ==== Sys2Proof/Machine/State.lean ====
section
/-! DEFINITION. Every piece of state of the core (spec/10_state.md), the input ports, and the state after reset (R180). -/

namespace Sys2Proof.Machine

/-! ## Framer registers (spec/10_state.md section 2) -/

/-- `F.state` (R11). -/
inductive FramerState where
  | awaitingOpcode | collecting | complete | invalid
deriving DecidableEq, Repr, Inhabited

/-- The command framer's registers (R11 to R15). -/
structure Framer where
  state : FramerState
  /-- The latched opcode byte (R12). -/
  op : Byte
  /-- Parameter bytes still expected (R13). -/
  rem : BitVec 2
  /-- Parameter bytes collected since the opcode (R14). -/
  k : BitVec 2
  /-- Parameter slot 1 (R15). -/
  p1 : Digit
  /-- Parameter slot 2 (R15). -/
  p2 : Digit
deriving DecidableEq, Repr, Inhabited

/-- The framer after reset (R180). -/
def Framer.reset : Framer := { state := .awaitingOpcode, op := 0, rem := 0, k := 0, p1 := 0, p2 := 0 }

/-! ## Tick sequencer registers (spec/10_state.md section 3) -/

/-- `T.phase` (R17). -/
inductive Phase where
  | idle | drain | dispatch | poll | waitRelease
deriving DecidableEq, Repr, Inhabited

/-- The tick sequencer's registers (R17 to R19). -/
structure Sequencer where
  phase : Phase
  /-- The index of the channel being polled, 0..5 (R17). -/
  ch : Fin 6
  /-- Bytes the current drain may still feed (R18). -/
  budget : Nat
  /-- The shared SyncEpoch (R19). -/
  epoch : Micros
deriving DecidableEq, Repr, Inhabited

/-- The sequencer after reset (R180). -/
def Sequencer.reset : Sequencer := { phase := .idle, ch := 0, budget := 0, epoch := 0 }

/-- The LED output register (R21) and its write pulses. -/
structure Led where
  /-- `L.led`. -/
  value : Digit
  /-- How many pulses `led_strobe` has given since reset: the model's record of an output (assumption 10). -/
  strobes : Nat
deriving DecidableEq, Repr, Inhabited

/-! ## Analog channel registers (spec/10_state.md section 4) -/

/-- `A[a].state` (R22). -/
inductive AnalogState where
  | halt | armed | run
deriving DecidableEq, Repr, Inhabited

/-- `A[a].cond` (R24). -/
inductive TriggerCond where
  | immediate | riseAbove | fallBelow
deriving DecidableEq, Repr, Inhabited

/-- One analog channel's registers (R22 to R33). -/
structure AnalogChannel where
  state : AnalogState
  /-- samplePeriod in microseconds; 0 is button-gated mode (R23). -/
  period : Micros
  cond : TriggerCond
  /-- Trigger threshold on the raw scale (R25). -/
  thr : BitVec 10
  /-- stopCondition; 0 is unbounded (R26). -/
  stop : BitVec 14
  /-- Reading count, the sequence number (R27). -/
  count : Count
  /-- Last raw reading reported (R28). -/
  lastRaw : Raw
  /-- Timestamp of the last reading, relative to `base` (R29). -/
  ts : Micros
  /-- The channel's clock alignment (R30). -/
  base : Micros
  /-- Time of the next scheduled reading (R31). -/
  nextRead : Micros
  /-- Previous trigger-evaluation read (R32). -/
  tprev : Raw
  /-- `tprev` holds a read taken since arming (R32). -/
  tprevValid : Bool
  /-- The constant source tag (R33). -/
  src : BitVec 3
deriving DecidableEq, Repr, Inhabited

/-- An analog channel after reset (R180). -/
def AnalogChannel.reset (p : Params) (a : AnId) : AnalogChannel :=
  { state := .halt, period := p.resetSamplePeriod, cond := .immediate, thr := 0, stop := 0, count := 0, lastRaw := 0, ts := 0,
    base := 0, nextRead := 0, tprev := 0, tprevValid := false, src := p.tags.analog a }

/-- The four analog channels. -/
structure AnalogBank where
  an051 : AnalogChannel
  an101 : AnalogChannel
  an052 : AnalogChannel
  an102 : AnalogChannel
deriving DecidableEq, Repr, Inhabited

/-- `A[a]`. -/
def AnalogBank.get (b : AnalogBank) : AnId → AnalogChannel
  | .an051 => b.an051
  | .an101 => b.an101
  | .an052 => b.an052
  | .an102 => b.an102

/-- The bank with `A[a]` replaced. -/
def AnalogBank.set (b : AnalogBank) (a : AnId) (c : AnalogChannel) : AnalogBank :=
  match a with
  | .an051 => { b with an051 := c }
  | .an101 => { b with an101 := c }
  | .an052 => { b with an052 := c }
  | .an102 => { b with an102 := c }

/-- The bank with every channel replaced by `f` of it. -/
def AnalogBank.mapAll (f : AnId → AnalogChannel → AnalogChannel) (b : AnalogBank) : AnalogBank :=
  { an051 := f .an051 b.an051, an101 := f .an101 b.an101, an052 := f .an052 b.an052, an102 := f .an102 b.an102 }

/-! ## Digital channel registers (spec/10_state.md section 5) -/

/-- `D[d].state` (R34). -/
inductive DigitalState where
  | halt | run
deriving DecidableEq, Repr, Inhabited

/-- `D[d].mode` (R35). -/
inductive EdgeMode where
  | any | risingOnly | fallingOnly
deriving DecidableEq, Repr, Inhabited

/-- One digital channel's registers (R34 to R43). -/
structure DigitalChannel where
  state : DigitalState
  mode : EdgeMode
  /-- The last recorded level (R36). -/
  level : Bit
  /-- Transition count, the sequence number (R37). -/
  count : Count
  /-- Timestamp of the last match, relative to `base` (R38). -/
  ts : Micros
  /-- The channel's clock alignment (R39). -/
  base : Micros
  /-- `now()` at the previous match (R40). -/
  prevMatch : Micros
  /-- Delta-time between the last two matches (R41). -/
  delta : Micros
  /-- Direction of the last match: 1 rising, 0 falling (R42). -/
  dir : Bit
  /-- The constant source tag (R43). -/
  src : BitVec 3
deriving DecidableEq, Repr, Inhabited

/-- A digital channel after reset, its baseline sampled at `level` (R180). -/
def DigitalChannel.reset (p : Params) (d : DigId) (level : Bit) : DigitalChannel :=
  { state := .halt, mode := .any, level := level, count := 0, ts := 0, base := 0, prevMatch := 0, delta := 0, dir := 0,
    src := p.tags.digital d }

/-- The two digital channels. -/
structure DigitalBank where
  dig1 : DigitalChannel
  dig2 : DigitalChannel
deriving DecidableEq, Repr, Inhabited

/-- `D[d]`. -/
def DigitalBank.get (b : DigitalBank) : DigId → DigitalChannel
  | .dig1 => b.dig1
  | .dig2 => b.dig2

/-- The bank with `D[d]` replaced. -/
def DigitalBank.set (b : DigitalBank) (d : DigId) (c : DigitalChannel) : DigitalBank :=
  match d with
  | .dig1 => { b with dig1 := c }
  | .dig2 => { b with dig2 := c }

/-- The bank with both channels replaced by `f` of them. -/
def DigitalBank.mapAll (f : DigId → DigitalChannel → DigitalChannel) (b : DigitalBank) : DigitalBank :=
  { dig1 := f .dig1 b.dig1, dig2 := f .dig2 b.dig2 }

/-! ## Input ports (R10, R46(d), R175) -/

/-- The levels of the input ports. A step reads each port at most once, so a level that the environment may change between any two steps
is a fresh draw at each read (R7, R10; assumption 2). -/
structure Ports where
  /-- `rst`: reset is asserted (R180, R182; assumption 7). -/
  rst : Bool
  /-- `now_us` (R172). -/
  nowUs : Micros
  /-- The value the previous `now()` read gave (R172; assumption 4). -/
  lastNow : Micros
  /-- `dig_in[0]`. -/
  dig1 : Bit
  /-- `dig_in[1]`. -/
  dig2 : Bit
  /-- `an_data` of AN051. -/
  an051 : Raw
  /-- `an_data` of AN101. -/
  an101 : Raw
  /-- `an_data` of AN052. -/
  an052 : Raw
  /-- `an_data` of AN102. -/
  an102 : Raw
  /-- `button_in`, debounced: 1 is pressed. -/
  button : Bit
  /-- `status_text`. -/
  status : StatusText
deriving DecidableEq, Repr, Inhabited

/-- The level of a digital input. -/
def Ports.digIn (p : Ports) : DigId → Bit
  | .dig1 => p.dig1
  | .dig2 => p.dig2

/-- The value of an analog input. -/
def Ports.anIn (p : Ports) : AnId → Raw
  | .an051 => p.an051
  | .an101 => p.an101
  | .an052 => p.an052
  | .an102 => p.an102

/-- The input ports when reset is released: free values (R185, I10, I11). -/
def Ports.reset : Ports :=
  { rst := false, nowUs := Config.timeAtReset, lastNow := Config.timeAtReset, dig1 := Config.digitalAtReset .dig1,
    dig2 := Config.digitalAtReset .dig2, an051 := Config.analogAtReset .an051, an101 := Config.analogAtReset .an101,
    an052 := Config.analogAtReset .an052, an102 := Config.analogAtReset .an102, button := Config.buttonAtReset,
    status := Config.statusTextAtReset }

/-! ## The whole state -/

/-- The state of the core: the registers of spec/10_state.md, the RX FIFO, the TX output history, the input ports, the constant
parameters, and the events due before the sequencer's next turn (assumptions 1 to 4). -/
structure State where
  /-- The parameters: constant (R184; assumption 1). -/
  par : Params
  /-- `F`. -/
  framer : Framer
  /-- `T`. -/
  seq : Sequencer
  /-- `RXQ`, oldest byte first (R20). -/
  rxq : List Byte
  /-- `L`. -/
  led : Led
  /-- `A`. -/
  ana : AnalogBank
  /-- `D`. -/
  dig : DigitalBank
  /-- The TX stream: every byte emitted since reset, oldest first (R56). -/
  tx : List Byte
  /-- The input ports. -/
  ports : Ports
  /-- The events before the sequencer's next turn, the next one first (assumption 3). -/
  sched : List Event
  /-- How many of the free lists `Config.round` have been used (assumption 3). -/
  drawn : Nat
deriving DecidableEq, Repr, Inhabited

/-! ## Updates, one for each field that a step writes -/

def State.withFramer (s : State) (x : Framer) : State := { s with framer := x }
def State.withSeq (s : State) (x : Sequencer) : State := { s with seq := x }
def State.withRxq (s : State) (x : List Byte) : State := { s with rxq := x }
def State.withLed (s : State) (x : Led) : State := { s with led := x }
def State.withAna (s : State) (x : AnalogBank) : State := { s with ana := x }
def State.withDig (s : State) (x : DigitalBank) : State := { s with dig := x }
def State.withTx (s : State) (x : List Byte) : State := { s with tx := x }
def State.withPorts (s : State) (x : Ports) : State := { s with ports := x }
def State.withSched (s : State) (x : List Event) : State := { s with sched := x }
def State.withDrawn (s : State) (x : Nat) : State := { s with drawn := x }

/-! ## Reset (R180) -/

/-- Every register at its reset value, for given parameters and input ports: the digital baselines are sampled from the inputs, TX is empty
(R180). The list of events is the environment's and is given. -/
def State.ofReset (p : Params) (ports : Ports) (sched : List Event) (drawn : Nat) : State :=
  { par := p
    framer := Framer.reset
    seq := Sequencer.reset
    rxq := []
    led := { value := 0, strobes := 0 }
    ana :=
      { an051 := AnalogChannel.reset p .an051, an101 := AnalogChannel.reset p .an101, an052 := AnalogChannel.reset p .an052,
        an102 := AnalogChannel.reset p .an102 }
    dig := { dig1 := DigitalChannel.reset p .dig1 ports.dig1, dig2 := DigitalChannel.reset p .dig2 ports.dig2 }
    tx := []
    ports := ports
    sched := sched
    drawn := drawn }

/-- The machine right after reset is released (R180, R181): any events, bytes among them, may come before the first TICK_START. -/
def State.reset : State := State.ofReset Config.params Ports.reset (Config.round 0) 1

/-! ## How a step can stop -/

/-- Why the machine stops with a fault. The hardware never stops itself (R140). -/
inductive Fault where
  /-- Raised by `step` alone, at a sequencer turn in phase WaitRelease whose `T.ch` is a digital channel's index: R17 gives that phase an
  analog channel, so no run reaches such a state (assumption 6). Safe: the model stops where the hardware cannot be. -/
  | waitReleaseOnDigital
deriving DecidableEq, Repr, Inhabited

/-- Why an instruction has no meaning. -/
inductive Refusal where
  /-- Raised by `exec` alone, for an instruction whose meaning is not written; safe. No arm raises it in this model. -/
  | notModelled (mnemonic : String)
deriving DecidableEq, Repr, Inhabited

/-- What a meaning and a step answer. -/
abbrev Answer := Host.Outcome State Fault Refusal

end Sys2Proof.Machine
end

