-- ==== Sys2Proof/Machine/Blob.lean ====
section
/-! DEFINITION. The data-blob encoder (spec/41_blob_encoder.md). -/

namespace Sys2Proof.Machine

/-- The fixed 8-byte record, byte 0 first on the wire (R49). -/
structure Blob where
  b0 : Byte
  b1 : Byte
  b2 : Byte
  b3 : Byte
  b4 : Byte
  b5 : Byte
  b6 : Byte
  b7 : Byte
deriving DecidableEq, Repr, Inhabited

/-- `encode(seq, raw, src, ts)` (R95): the flag byte, then 11 bits of `seq`, 10 of `raw`, 3 of `src` and the big-endian timestamp. -/
def encodeBlob (seq : Count) (raw : Raw) (src : Byte) (ts : Micros) : Blob :=
  let s : BitVec 11 := seq.setWidth 11
  let r : BitVec 10 := raw.setWidth 10
  let t : BitVec 3 := src.setWidth 3
  { b0 := 0xAA
    b1 := s.extractLsb' 3 8
    b2 := s.extractLsb' 0 3 ++ r.extractLsb' 5 5
    b3 := r.extractLsb' 0 5 ++ t
    b4 := ts.extractLsb' 24 8
    b5 := ts.extractLsb' 16 8
    b6 := ts.extractLsb' 8 8
    b7 := ts.extractLsb' 0 8 }

/-- The bytes of a blob in wire order, byte 0 first (R49, R58). -/
def Blob.bytes (b : Blob) : List Byte := [b.b0, b.b1, b.b2, b.b3, b.b4, b.b5, b.b6, b.b7]

/-! ## What a host recovers (R98) -/

/-- `seq mod 2048 = (b1 << 3) | (b2 >> 5)`. -/
def Blob.seqField (b : Blob) : BitVec 11 := (b.b1.setWidth 11 <<< 3) ||| (b.b2 >>> 5).setWidth 11

/-- `raw mod 1024 = ((b2 & 0x1F) << 5) | (b3 >> 3)`. -/
def Blob.rawField (b : Blob) : BitVec 10 := ((b.b2 &&& 0x1F).setWidth 10 <<< 5) ||| (b.b3 >>> 3).setWidth 10

/-- `src mod 8 = b3 & 0x07`. -/
def Blob.srcField (b : Blob) : BitVec 3 := (b.b3 &&& 0x07).setWidth 3

/-- `ts = b4 << 24 | b5 << 16 | b6 << 8 | b7`. -/
def Blob.tsField (b : Blob) : Micros :=
  (b.b4.setWidth 32 <<< 24) ||| (b.b5.setWidth 32 <<< 16) ||| (b.b6.setWidth 32 <<< 8) ||| b.b7.setWidth 32

end Sys2Proof.Machine
end

