-- ==== Sys2Proof/Machine/Ops.lean ====
section
/-! DEFINITION. The shared operations: emission on TX, the time read, the framer's reply, and the core's one error path. -/

namespace Sys2Proof.Machine

/-! ## TX (R56 to R58) -/

/-- `emit(b)` (R56). -/
def emit (b : Byte) (s : State) : State := s.withTx (s.tx ++ [b])

/-- Several bytes as one contiguous run. -/
def emitAll (bs : List Byte) (s : State) : State := s.withTx (s.tx ++ bs)

/-- `emitBlob(b0..b7)`: eight contiguous bytes (R58). -/
def emitBlob (b : Blob) (s : State) : State := emitAll b.bytes s

/-! ## Time (R172) -/

/-- The value `now()` gives in this step. -/
def now (s : State) : Micros := s.ports.nowUs

/-- Records that this step has read `now()`: the next read is within 2^31 microseconds of it (R172; assumption 4). -/
def noteNow (s : State) : State := s.withPorts { s.ports with lastNow := s.ports.nowUs }

/-! ## The framer's reply (R71, R87, R88) -/

/-- ACK (R71). -/
def ackByte : Byte := 0x21

/-- NAK (R71). -/
def nakByte : Byte := 0x3F

/-- The framer as ACK and NAK leave it: ready, with `op`, `p1` and `p2` kept (R87, R88, D11). -/
def Framer.ready (f : Framer) : Framer := { f with state := .awaitingOpcode, rem := 0, k := 0 }

/-- `commandSuccessful()` (R87). -/
def commandSuccessful (s : State) : State := (emit ackByte s).withFramer s.framer.ready

/-- `badCommand()` (R88). -/
def badCommand (s : State) : State := (emit nakByte s).withFramer s.framer.ready

/-! ## Protocol errors (spec/60_exceptions.md) -/

/-- The five protocol-error causes (R159). No register records one (R160). -/
inductive Cause where
  | stray | abandoned | reservedCount | unknownOpcode | badConfig
deriving DecidableEq, Repr, Inhabited

/-- The cause codes of R159. -/
def Cause.code : Cause → Nat
  | .stray => 1
  | .abandoned => 2
  | .reservedCount => 3
  | .unknownOpcode => 4
  | .badConfig => 5

/-- Causes 3, 4 and 5 are reported; causes 1 and 2 are silent (R159). -/
def Cause.reported : Cause → Bool
  | .stray | .abandoned => false
  | .reservedCount | .unknownOpcode | .badConfig => true

/-- `raise ProtocolError(cause)`: the core's one exception. A reported cause is NAK and a ready framer, with nothing saved and nothing else
changed (R160); a silent cause does nothing (R161, R162). There is no return from it: the tick goes on with its next step (R167). -/
def raiseProtocolError (c : Cause) (s : State) : State := if c.reported then badCommand s else s

/-- How a handler ends: `some s'` is OK and is answered by ACK; `none` is BAD, and the state before the handler is answered by NAK (R133,
R163). -/
def concludeCommand (s : State) : Option State → State
  | some s' => commandSuccessful s'
  | none => raiseProtocolError .badConfig s

/-! ## Outcomes -/

/-- Does `f` to the next state, and keeps a fault or a refusal. -/
def thenDo (f : State → State) : Answer → Answer
  | .next s => .next (f s)
  | .fault r => .fault r
  | .refused r => .refused r

end Sys2Proof.Machine
end

