-- ==== Sys2Proof/Machine/Analog.lean ====
section
/-! DEFINITION. The analog channel state machine (spec/42_analog_channel.md), on one channel's registers. -/

namespace Sys2Proof.Machine

/-- What a poll returns: `data`, `nodata`, or `wait`, the blocking case (R102, R122). -/
inductive PollResult where
  | data | nodata | wait
deriving DecidableEq, Repr, Inhabited

/-- A poll of an analog channel: its result, the channel after it, and whether it read `now()`. -/
structure AnalogPoll where
  result : PollResult
  chan : AnalogChannel
  readsTime : Bool
deriving DecidableEq, Repr, Inhabited

/-- `now ≥ nextRead` on wrapping time: `(t - x) < 2^31` (R110, D26). -/
def timeReached (t x : Micros) : Bool := (t - x).ult 0x80000000#32

/-! ## Run-state control -/

/-- `armPort` (R100). -/
def AnalogChannel.armPort (c : AnalogChannel) : AnalogChannel := { c with state := .armed, tprevValid := false }

/-- `haltPort` (R101). -/
def AnalogChannel.haltPort (c : AnalogChannel) : AnalogChannel := { c with state := .halt }

/-! ## poll -/

/-- Trigger evaluation (R105): whether the condition is satisfied by the read `r`, and the channel with the read recorded. Immediate reads no
input. -/
def AnalogChannel.evalTrigger (r : Raw) (c : AnalogChannel) : Bool × AnalogChannel :=
  match c.cond with
  | .immediate => (true, c)
  | .riseAbove =>
    (c.tprevValid && c.tprev.ule (c.thr.setWidth 16) && (c.thr.setWidth 16).ult r, { c with tprev := r, tprevValid := true })
  | .fallBelow =>
    (c.tprevValid && (c.thr.setWidth 16).ule c.tprev && r.ult (c.thr.setWidth 16), { c with tprev := r, tprevValid := true })

/-- poll, step 2: an Armed channel (R104). -/
def AnalogChannel.armedStep (r : Raw) (t : Micros) (c : AnalogChannel) : AnalogPoll :=
  let (hit, c1) := c.evalTrigger r
  if hit then { result := .nodata, chan := { c1 with state := .run, nextRead := t + c1.period }, readsTime := true }
  else { result := .nodata, chan := c1, readsTime := false }

/-- The stop condition of step 3 (R106). -/
def AnalogChannel.stopReached (c : AnalogChannel) : Bool := c.stop != 0 && (c.stop.setWidth 32).ule c.count

/-- One reading `r` at time `t` (R108, R109). -/
def AnalogChannel.takeReading (r : Raw) (t : Micros) (c : AnalogChannel) : AnalogChannel :=
  { c with lastRaw := r, ts := t - c.base, nextRead := c.nextRead + c.period, count := c.count + 1 }

/-- poll, step 4: button-gated mode (R107). -/
def AnalogChannel.buttonStep (button : Bit) (c : AnalogChannel) : AnalogPoll :=
  { result := if button = 1 then .wait else .nodata, chan := c, readsTime := false }

/-- Completion of a button-gated reading, after the release (R108, D37, D46). -/
def AnalogChannel.buttonComplete (r : Raw) (t : Micros) (c : AnalogChannel) : AnalogChannel := c.takeReading r t

/-- poll, steps 5 and 6: periodic mode (R109). -/
def AnalogChannel.periodicStep (r : Raw) (t : Micros) (c : AnalogChannel) : AnalogPoll :=
  if timeReached t c.nextRead then { result := .data, chan := c.takeReading r t, readsTime := true }
  else { result := .nodata, chan := c, readsTime := true }

/-- `poll()` of an analog channel (R102), for the input value `r`, the time `t` and the button level. -/
def AnalogChannel.poll (r : Raw) (t : Micros) (button : Bit) (c : AnalogChannel) : AnalogPoll :=
  match c.state with
  | .halt => { result := .nodata, chan := c, readsTime := false }
  | .armed => c.armedStep r t
  | .run =>
    if c.stopReached then { result := .nodata, chan := { c with state := .halt }, readsTime := false }
    else if c.period = 0 then c.buttonStep button
    else c.periodicStep r t

/-- The blob of a reading, from the values just written (R111). -/
def AnalogChannel.blob (c : AnalogChannel) : Blob := encodeBlob c.count c.lastRaw (c.src.setWidth 8) c.ts

/-! ## Configuration -/

/-- `setTrigger` (R113). -/
def AnalogChannel.setTrigger (k : TriggerCond) (t : BitVec 10) (c : AnalogChannel) : AnalogChannel :=
  { c with cond := k, thr := t, state := .halt }

/-- `setStopCondition` (R114). -/
def AnalogChannel.setStopCondition (n : BitVec 14) (c : AnalogChannel) : AnalogChannel := { c with stop := n }

/-- `sync` (R115): epoch 0 leaves the channel clock unchanged (D24). -/
def AnalogChannel.sync (e : Micros) (c : AnalogChannel) : AnalogChannel :=
  { c with count := 0, ts := 0, state := .halt, base := if e = 0 then c.base else e }

/-- `setSampleRate` with the period of its rate code, and the resync to the shared epoch (R112, R116). -/
def AnalogChannel.setSampleRate (period epoch : Micros) (c : AnalogChannel) : AnalogChannel :=
  { c with period := period }.sync epoch

/-! ## Status -/

/-- The structured snapshot of `getStatus` (R117). -/
structure AnalogStatus where
  state : AnalogState
  samplePeriod : Micros
  cond : TriggerCond
  thr : BitVec 10
  stopCondition : BitVec 14
  units : String
  name : String
deriving DecidableEq, Repr, Inhabited

/-- `getStatus` (R117): a read-only record. It reaches the wire only as status text, and that text is a draw (R158). -/
def AnalogChannel.getStatus (a : AnId) (c : AnalogChannel) : AnalogStatus :=
  { state := c.state, samplePeriod := c.period, cond := c.cond, thr := c.thr, stopCondition := c.stop,
    units := Config.analogUnits a, name := Config.analogName a }

end Sys2Proof.Machine
end

