-- ==== Sys2Proof/Machine/Digital.lean ====
section
/-! DEFINITION. The digital channel state machine (spec/43_digital_channel.md), on one channel's registers. -/

namespace Sys2Proof.Machine

/-- A poll of a digital channel: its result (never `wait`), the channel after it, and whether it read `now()`. -/
structure DigitalPoll where
  result : PollResult
  chan : DigitalChannel
  readsTime : Bool
deriving DecidableEq, Repr, Inhabited

/-! ## Run-state control -/

/-- `armPort` (R120): the baseline is not sampled again. -/
def DigitalChannel.armPort (c : DigitalChannel) : DigitalChannel := { c with state := .run }

/-- `haltPort` (R121). -/
def DigitalChannel.haltPort (c : DigitalChannel) : DigitalChannel := { c with state := .halt }

/-! ## poll -/

/-- Whether a transition to level `l` matches an edge mode (R122). -/
def EdgeMode.matchesEdge (l : Bit) : EdgeMode → Bool
  | .any => true
  | .risingOnly => l == 1
  | .fallingOnly => l != 1

/-- A matching transition to level `l` at time `t` (R122). -/
def DigitalChannel.recordMatch (l : Bit) (t : Micros) (c : DigitalChannel) : DigitalChannel :=
  { c with count := c.count + 1, delta := t - c.prevMatch, prevMatch := t, ts := t - c.base, dir := l }

/-- `poll()` of a digital channel (R122), for the input level `l` and the time `t`. A transition that does not match still moves the
baseline. -/
def DigitalChannel.poll (l : Bit) (t : Micros) (c : DigitalChannel) : DigitalPoll :=
  match c.state with
  | .halt => { result := .nodata, chan := c, readsTime := false }
  | .run =>
    if l = c.level then { result := .nodata, chan := c, readsTime := false }
    else if c.mode.matchesEdge l then { result := .data, chan := { c with level := l }.recordMatch l t, readsTime := true }
    else { result := .nodata, chan := { c with level := l }, readsTime := false }

/-- The blob of a match: the raw field is the direction (R123, D29). -/
def DigitalChannel.blob (c : DigitalChannel) : Blob := encodeBlob c.count (c.dir.setWidth 16) (c.src.setWidth 8) c.ts

/-! ## Configuration -/

/-- `sync` (R125): as for an analog channel, and the delta-time origin restarts at the base. -/
def DigitalChannel.sync (e : Micros) (c : DigitalChannel) : DigitalChannel :=
  let base := if e = 0 then c.base else e
  { c with count := 0, ts := 0, state := .halt, base := base, prevMatch := base }

/-- `setTrigger` (R124): Halt, mode, a new baseline `l`, and the resync to the shared epoch (R126). -/
def DigitalChannel.setTrigger (m : EdgeMode) (l : Bit) (epoch : Micros) (c : DigitalChannel) : DigitalChannel :=
  { c with state := .halt, mode := m, level := l }.sync epoch

end Sys2Proof.Machine
end

