-- ==== Sys2Proof/Syntax.lean ====
section
/-! DEFINITION. The instructions: one constructor for each row of spec/opcode_table.json. -/

namespace Sys2Proof

/-- An instruction of the core: a complete wire command (R69), or one of the three byte classes the table lists beside them. Operands are
those of the assembler notation of R80. -/
inductive Instr where
  /-- ARM (R142): bit `c` of the mask selects the channel of index `c`. -/
  | arm (mask : Digit)
  /-- HALT (R143). -/
  | halt
  /-- BLINKLED (R144). -/
  | blinkled (value : Digit)
  /-- IMM_DIG1 (R146). -/
  | immDig1
  /-- IMM_DIG2 (R147). -/
  | immDig2
  /-- IMM_AN051 (R148). -/
  | immAn051
  /-- IMM_AN101 (R149). -/
  | immAn101
  /-- IMM_AN052 (R150). -/
  | immAn052
  /-- IMM_AN102 (R151). -/
  | immAn102
  /-- IMM_BUTSTATE (R152). -/
  | immButstate
  /-- MDE_SYNC (R153). -/
  | mdeSync
  /-- MDE_ASAMPTIME (R154), with a rate code. -/
  | mdeAsamptime (code : Digit)
  /-- MDE_ASTOP (R155), with the 14-bit stop count. -/
  | mdeAstop (stop : BitVec 14)
  /-- MDE_ATRIG (R156), with the condition code and the 7-bit threshold byte. -/
  | mdeAtrig (cond : Digit) (threshold : Digit)
  /-- MDE_DTRIG (R157), with the edge-mode code. -/
  | mdeDtrig (mode : Digit)
  /-- ST_VERS (R158): the shared row with selector 0. -/
  | stVers
  /-- ST_ANALOG (R158): the shared row with a selector other than 0; 1..4 are legal. -/
  | stAnalog (selector : Digit)
  /-- PARAM (R83, R84): one parameter byte. -/
  | param (value : Digit)
  /-- RESERVED_N3 (R76): an opcode byte whose parameter count is 3. -/
  | reservedN3 (fc : BitVec 5)
  /-- UNKNOWN (R77): a function code with its `N` parameters, in a pair that the opcode map does not hold. -/
  | unknown (fc : BitVec 5) (ps : List Digit)
deriving DecidableEq, Repr, Inhabited

end Sys2Proof
end

