-- ==== Sys2Proof/WellFormed.lean ====
section
/-! DEFINITION. Which instruction terms an encoding stands for, under a parameter assignment. -/

namespace Sys2Proof

/-- The pair (FC, N) is a row of the opcode map (R75). -/
def Params.listed (p : Params) (fc : BitVec 5) (n : BitVec 2) : Bool :=
  MapRow.all.any fun r => p.code r == fc && r.count == n

/-- ST_ANALOG's selector is not 0, which is ST_VERS (R158). -/
def selectorNotVers (s : Digit) : Bool := s != 0

/-- An unknown opcode collects N = 0, 1 or 2 parameters (R77). -/
def atMostTwo (ps : List Digit) : Bool := decide (ps.length ≤ 2)

/-- An unknown opcode is in no row of the map (R77). -/
def unlisted (p : Params) (fc : BitVec 5) (ps : List Digit) : Bool := !p.listed fc (BitVec.ofNat 2 ps.length)

/-- The instruction terms that stand for an encoding. Every other field is bounded by its type. -/
def Instr.wf (p : Params) : Instr → Bool
  | .stAnalog s => selectorNotVers s
  | .unknown fc ps => atMostTwo ps && unlisted p fc ps
  | .arm _ | .halt | .blinkled _ | .immDig1 | .immDig2 | .immAn051 | .immAn101 | .immAn052 | .immAn102 | .immButstate | .mdeSync
  | .mdeAsamptime _ | .mdeAstop _ | .mdeAtrig _ _ | .mdeDtrig _ | .stVers | .param _ | .reservedN3 _ => true

end Sys2Proof
end

