-- ==== Sys2Proof/Decode.lean ====
section
/-! DEFINITION. Bytes to instructions and back: spec/30_encoding.md. -/

namespace Sys2Proof

/-! ## The two byte formats (R66 to R70) -/

/-- Bit 7 alone tells an opcode byte from a parameter byte (R66). -/
def isOpcodeByte (b : Byte) : Bool := b.getLsbD 7

/-- `FC = b[6:2]` (R67). -/
def functionCode (b : Byte) : BitVec 5 := b.extractLsb' 2 5

/-- `N = b[1:0]` (R67). -/
def paramCount (b : Byte) : BitVec 2 := b.extractLsb' 0 2

/-- `V = b[6:0]` (R68). -/
def paramValue (b : Byte) : Digit := b.extractLsb' 0 7

/-- The opcode byte `0x80 | FC << 2 | N` (R70). -/
def opcodeByte (fc : BitVec 5) (n : BitVec 2) : Byte :=
  0x80#8 ||| (fc.setWidth 8 <<< 2) ||| n.setWidth 8

/-- The parameter byte that carries `v` (R68). -/
def paramByte (v : Digit) : Byte := v.setWidth 8

/-- The 14-bit value of two parameters: `p2 << 7 | p1`, the first parameter received being the low digit (R50, R92, C3). -/
def composeDigits (p1 p2 : Digit) : BitVec 14 :=
  (p2.setWidth 14 <<< 7) ||| p1.setWidth 14

/-! ## Decoding a complete command (R75, R141) -/

/-- `handlerFor(fc, n)`: the row whose function code and parameter count both match (R141). -/
def handlerFor (p : Params) (fc : BitVec 5) (n : BitVec 2) : Option MapRow :=
  MapRow.all.find? fun r => p.code r == fc && r.count == n

/-- The first `n` of the two parameter slots; a count of 3 is never complete (R93). -/
def collected (n : BitVec 2) (p1 p2 : Digit) : List Digit :=
  if n = 0 then [] else if n = 1 then [p1] else [p1, p2]

/-- The instruction of a row with its parameter slots (R73). -/
def MapRow.instr (p1 p2 : Digit) : MapRow → Instr
  | .arm => .arm p1
  | .halt => .halt
  | .blinkled => .blinkled p1
  | .immDig1 => .immDig1
  | .immDig2 => .immDig2
  | .immAn051 => .immAn051
  | .immAn101 => .immAn101
  | .immAn052 => .immAn052
  | .immAn102 => .immAn102
  | .immButstate => .immButstate
  | .mdeSync => .mdeSync
  | .mdeAsamptime => .mdeAsamptime p1
  | .mdeAstop => .mdeAstop (composeDigits p1 p2)
  | .mdeAtrig => .mdeAtrig p1 p2
  | .mdeDtrig => .mdeDtrig p1
  | .st => if p1 = 0 then .stVers else .stAnalog p1

/-- A complete command is decoded by the pair (FC, N); a pair in no row is an unknown opcode (R75, R77). -/
def decodeCommand (p : Params) (fc : BitVec 5) (n : BitVec 2) (p1 p2 : Digit) : Instr :=
  match handlerFor p fc n with
  | some r => r.instr p1 p2
  | none => .unknown fc (collected n p1 p2)

/-! ## Decoding a byte sequence -/

/-- Why a byte sequence does not begin with an instruction. -/
inductive DecodeError where
  /-- There is no byte. -/
  | noByte
  /-- The bytes end before the opcode's parameters do: the framer stays in Collecting (R191). -/
  | truncated (op : Byte)
  /-- An opcode byte stands where a parameter is due: the command is abandoned (R82, R162). -/
  | abandoned (op : Byte) (by_ : Byte)
deriving DecidableEq, Repr, Inhabited

/-- What decoding answers: the instruction and the bytes after it, or a reason. -/
inductive Decoded where
  | ok (i : Instr) (rest : List Byte)
  | rejected (e : DecodeError)
deriving DecidableEq, Repr, Inhabited

/-- The command of opcode byte `b`, whose parameters stand at the head of `rest` (R69). -/
def decodeParams (p : Params) (b : Byte) (rest : List Byte) : Decoded :=
  if paramCount b = 0 then .ok (decodeCommand p (functionCode b) (paramCount b) 0 0) rest
  else
    match rest with
    | [] => .rejected (.truncated b)
    | b1 :: rest1 =>
      if isOpcodeByte b1 then .rejected (.abandoned b b1)
      else if paramCount b = 1 then .ok (decodeCommand p (functionCode b) (paramCount b) (paramValue b1) 0) rest1
      else
        match rest1 with
        | [] => .rejected (.truncated b)
        | b2 :: rest2 =>
          if isOpcodeByte b2 then .rejected (.abandoned b b2)
          else .ok (decodeCommand p (functionCode b) (paramCount b) (paramValue b1) (paramValue b2)) rest2

/-- The instruction at the head of a byte sequence. A byte whose bit 7 is clear is a PARAM byte; an opcode byte with N = 3 stands alone
(R69, R76); any other is a command with its N parameters. -/
def decode (p : Params) : List Byte → Decoded
  | [] => .rejected .noByte
  | b :: rest =>
    if isOpcodeByte b then
      if paramCount b = 3 then .ok (.reservedN3 (functionCode b)) rest else decodeParams p b rest
    else .ok (.param (paramValue b)) rest

/-! ## Encoding -/

/-- The opcode byte of a row. -/
def rowOpcode (p : Params) (r : MapRow) : Byte := opcodeByte (p.code r) r.count

/-- The bytes of an instruction, in wire order (R69, R80). -/
def encode (p : Params) : Instr → List Byte
  | .arm m => [rowOpcode p .arm, paramByte m]
  | .halt => [rowOpcode p .halt]
  | .blinkled v => [rowOpcode p .blinkled, paramByte v]
  | .immDig1 => [rowOpcode p .immDig1]
  | .immDig2 => [rowOpcode p .immDig2]
  | .immAn051 => [rowOpcode p .immAn051]
  | .immAn101 => [rowOpcode p .immAn101]
  | .immAn052 => [rowOpcode p .immAn052]
  | .immAn102 => [rowOpcode p .immAn102]
  | .immButstate => [rowOpcode p .immButstate]
  | .mdeSync => [rowOpcode p .mdeSync]
  | .mdeAsamptime c => [rowOpcode p .mdeAsamptime, paramByte c]
  | .mdeAstop s => [rowOpcode p .mdeAstop, paramByte (s.extractLsb' 0 7), paramByte (s.extractLsb' 7 7)]
  | .mdeAtrig k t => [rowOpcode p .mdeAtrig, paramByte k, paramByte t]
  | .mdeDtrig e => [rowOpcode p .mdeDtrig, paramByte e]
  | .stVers => [rowOpcode p .st, paramByte 0]
  | .stAnalog s => [rowOpcode p .st, paramByte s]
  | .param v => [paramByte v]
  | .reservedN3 fc => [opcodeByte fc 3]
  | .unknown fc ps => opcodeByte fc (BitVec.ofNat 2 ps.length) :: ps.map paramByte

/-! ## The host's question about a table word -/

/-- The first three bytes of a word of `nbits` bits, byte 0 in bits 7..0; bits from `nbits` up are 0. -/
def tableBytes (nbits w : Nat) : List Byte :=
  let v := w % 2 ^ nbits
  [BitVec.ofNat 8 v, BitVec.ofNat 8 (v / 256), BitVec.ofNat 8 (v / 65536)]

/-- The instruction this core's decoder reads from an instruction whose bits are `w`. The function codes are OPEN (D12), so for an
opcode byte of a command the answer rests on `Config.params`. -/
def decodeTableWord (nbits w : Nat) : Option Instr :=
  match decode Config.params (tableBytes nbits w) with
  | .ok i _ => some i
  | .rejected _ => none

end Sys2Proof
end

