-- ==== Sys2Proof/Machine/Flags.lean ====
section
/-! DEFINITION. The framer's status flags: functions of `F.state`, not registers (R16, R86). The core has no condition codes. -/

namespace Sys2Proof.Machine

/-- `isBuilding()` (R16). -/
def Framer.isBuilding (f : Framer) : Bool := f.state == .collecting

/-- `isComplete()` (R16). -/
def Framer.isComplete (f : Framer) : Bool := f.state == .complete

/-- `isReadyToReceive()` (R16). -/
def Framer.isReadyToReceive (f : Framer) : Bool := f.state == .awaitingOpcode

/-- `accepts()`: the framer takes a byte only in AwaitingOpcode and Collecting (R81, C1). -/
def Framer.accepts (f : Framer) : Bool := f.state == .awaitingOpcode || f.state == .collecting

end Sys2Proof.Machine
end

