-- ==== Sys2Proof/Machine/Framer.lean ====
section
/-! DEFINITION. The command framer (spec/40_framer.md). -/

namespace Sys2Proof.Machine

/-- feedByte, opcode case (R82). -/
def Framer.feedOpcode (b : Byte) (f : Framer) : Framer :=
  if paramCount b = 3 then { f with op := b, k := 0, rem := 0, state := .invalid }
  else if paramCount b = 0 then { f with op := b, k := 0, rem := 0, state := .complete }
  else { f with op := b, k := 0, rem := paramCount b, state := .collecting }

/-- feedByte, parameter case while collecting (R83). -/
def Framer.feedParam (b : Byte) (f : Framer) : Framer :=
  { f with
    p1 := if f.k = 0 then paramValue b else f.p1
    p2 := if f.k = 0 then f.p2 else paramValue b
    k := f.k + 1
    rem := f.rem - 1
    state := if f.rem - 1 = 0 then .complete else f.state }

/-- `feedByte(b)` (R82 to R84). A framer that does not accept takes no byte (R81): it is left as it is (assumption 13). -/
def Framer.feedByte (b : Byte) (f : Framer) : Framer :=
  if !f.accepts then f
  else if isOpcodeByte b then f.feedOpcode b
  else if f.state = .collecting then f.feedParam b
  else f

/-- The causes that feeding a byte raises, in order (R82, R84, R159): none of them is recorded. -/
def Framer.feedCauses (b : Byte) (f : Framer) : List Cause :=
  if !f.accepts then []
  else if isOpcodeByte b then
    (if f.state = .collecting then [.abandoned] else []) ++ (if paramCount b = 3 then [.reservedCount] else [])
  else if f.state = .awaitingOpcode then [.stray]
  else []

/-- `getCommand()` (R90). -/
def Framer.getCommand (f : Framer) : Byte := f.op

/-- `getParameter(i)` (R91). -/
def Framer.getParameterAt (i : Byte) (f : Framer) : Byte :=
  if i = 1 ∧ 1 ≤ f.k then f.p1.setWidth 8
  else if i = 2 ∧ 2 ≤ f.k then f.p2.setWidth 8
  else Config.paramSentinel

/-- `getParameter()` with no index (R92): `p3 << 14 | p2 << 7 | p1` with no third slot, an absent slot giving 0. -/
def Framer.getParameter (f : Framer) : BitVec 21 :=
  let d1 : BitVec 21 := if 1 ≤ f.k then f.p1.setWidth 21 else 0
  let d2 : BitVec 21 := if 2 ≤ f.k then f.p2.setWidth 21 else 0
  let d3 : BitVec 21 := 0
  (d3 <<< 14) ||| (d2 <<< 7) ||| d1

/-- Feeds a byte to the core's framer. -/
def feed (b : Byte) (s : State) : State := s.withFramer (s.framer.feedByte b)

end Sys2Proof.Machine
end

