-- ==== Sys2Proof/Machine/Operands.lean ====
section
/-! DEFINITION. Operand forms: channel indices, the ARM mask, enumerated codes, the threshold, the rate table and the selector (R73, R79). -/

namespace Sys2Proof.Machine

/-- The channel of an index: DIG1, DIG2, AN051, AN101, AN052, AN102 (D15). -/
def chanAt : Fin 6 → ChanId
  | 0 => .dig .dig1
  | 1 => .dig .dig2
  | 2 => .an .an051
  | 3 => .an .an101
  | 4 => .an .an052
  | 5 => .an .an102

/-- The index of a digital channel (D15). -/
def digitalIndex : DigId → Nat
  | .dig1 => 0
  | .dig2 => 1

/-- The index of an analog channel (D15). -/
def analogIndex : AnId → Nat
  | .an051 => 2
  | .an101 => 3
  | .an052 => 4
  | .an102 => 5

/-- Bit `c` of the ARM mask selects channel index `c` (R142, D17). -/
def maskSelects (m : Digit) (c : Nat) : Bool := m.getLsbD c

/-- The condition a code names: 0 Immediate, 1 RiseAbove, 2 FallBelow; any other is illegal (R156, D20). -/
def conditionOf (k : Digit) : Option TriggerCond :=
  if k = 0 then some .immediate else if k = 1 then some .riseAbove else if k = 2 then some .fallBelow else none

/-- The threshold of a threshold byte: `zext_10(p2) << THRESH_SHIFT` (R73, D19). -/
def thresholdOf (p : Digit) : BitVec 10 := p.setWidth 10 <<< Config.thresholdShift

/-- The edge mode a code names: 0 Any, 1 RisingOnly, 2 FallingOnly; any other is illegal (R157, D20). -/
def edgeModeOf (e : Digit) : Option EdgeMode :=
  if e = 0 then some .any else if e = 1 then some .risingOnly else if e = 2 then some .fallingOnly else none

/-- `RATE_TABLE[c]`, where the code has an entry (R4, R154). -/
def ratePeriod (p : Params) (c : Digit) : Option Micros :=
  (p.rates.find? fun r => r.1 == c).map Prod.snd

/-- The channel whose snapshot ST_ANALOG reports: selector 1..4 is analog channel `s - 1`; any other is illegal (R158, D35). -/
def selectedAnalog (s : Digit) : Option AnId :=
  if s = 1 then some .an051 else if s = 2 then some .an101 else if s = 3 then some .an052 else if s = 4 then some .an102 else none

/-- The bytes of a status text: each line's characters from 0x20, then the newline 0x0A (R5). -/
def lineBytes (l : List (Fin 95)) : List Byte := l.map (fun c => BitVec.ofNat 8 (0x20 + c.val)) ++ [0x0A]

/-- The bytes of a status reply, one line after the other (R5, R72). -/
def statusBytes (t : StatusText) : List Byte := (t.first :: t.more).flatMap lineBytes

end Sys2Proof.Machine
end

