-- ==== Sys2Proof/Machine/Sequencer.lean ====
section
/-! DEFINITION. The tick sequencer's own work (spec/44_tick_scheduler.md): everything of its five steps but running an instruction. -/

namespace Sys2Proof.Machine

/-- The state with another phase. -/
def setPhase (p : Phase) (s : State) : State := s.withSeq { s.seq with phase := p }

/-- TICK_START (R131). -/
def tickStart (s : State) : State := s.withSeq { s.seq with budget := s.rxq.length, phase := .drain }

/-! ## DRAIN (R132) -/

/-- The byte that this DRAIN step feeds, if it feeds one: the budget is not used up, a byte is buffered and the framer accepts. -/
def drainByte (s : State) : Option Byte :=
  if 0 < s.seq.budget ∧ s.framer.accepts then s.rxq.head? else none

/-- `b = rxPop()` with the budget counted down (R54, R132). -/
def popByte (s : State) : State := (s.withRxq s.rxq.tail).withSeq { s.seq with budget := s.seq.budget - 1 }

/-- The instruction that a byte is by itself: a PARAM byte, or an opcode byte whose reserved count ends it at once. Any other opcode byte
begins a command, which is run by DISPATCH when it is complete. -/
def byteInstr (b : Byte) : Option Instr :=
  if isOpcodeByte b then (if paramCount b = 3 then some (.reservedN3 (functionCode b)) else none) else some (.param (paramValue b))

/-- The end of the drain (R132). -/
def endDrain (s : State) : State := setPhase .dispatch s

/-! ## DISPATCH (R133) -/

/-- The instruction that this DISPATCH step runs, if the framer holds a complete command: decoded by the whole opcode byte (R75, R133). -/
def dispatchInstr (s : State) : Option Instr :=
  if s.framer.state = .complete then
    some (decodeCommand s.par (functionCode s.framer.op) (paramCount s.framer.op) s.framer.p1 s.framer.p2)
  else none

/-- The end of DISPATCH: polling begins at channel 0 (R133). -/
def beginPolling (s : State) : State := s.withSeq { s.seq with ch := 0, phase := .poll }

/-! ## POLL (R134) -/

/-- `advancePoll()` (R134). -/
def advancePoll (s : State) : State :=
  if s.seq.ch = 5 then s.withSeq { s.seq with ch := 0, phase := .idle } else s.withSeq { s.seq with ch := s.seq.ch + 1 }

/-- `now()` is noted as read if it was. -/
def noteNowIf (b : Bool) (s : State) : State := if b then noteNow s else s

/-- Polls a digital channel and emits its blob (R122, R123, R134). -/
def pollDigital (d : DigId) (s : State) : State :=
  let o := (s.dig.get d).poll (s.ports.digIn d) (now s)
  let s1 := (noteNowIf o.readsTime s).withDig (s.dig.set d o.chan)
  if o.result = .data then emitBlob o.chan.blob s1 else s1

/-- What polling an analog channel answers in this state (R102). -/
def analogOutcome (a : AnId) (s : State) : AnalogPoll := (s.ana.get a).poll (s.ports.anIn a) (now s) s.ports.button

/-- Polls an analog channel and emits its blob (R102, R111, R134). -/
def pollAnalog (a : AnId) (s : State) : State :=
  let o := analogOutcome a s
  let s1 := (noteNowIf o.readsTime s).withAna (s.ana.set a o.chan)
  if o.result = .data then emitBlob o.chan.blob s1 else s1

/-- POLL (R134): a blocked button-gated channel holds the sequencer in WaitRelease. -/
def pollStep (s : State) : State :=
  match chanAt s.seq.ch with
  | .dig d => advancePoll (pollDigital d s)
  | .an a =>
    if (analogOutcome a s).result = .wait then setPhase .waitRelease (pollAnalog a s) else advancePoll (pollAnalog a s)

/-! ## WAIT_RELEASE (R135) -/

/-- The reading of a button-gated channel after the release, with its blob (R108, R135). -/
def completeReading (a : AnId) (s : State) : State :=
  let c := (s.ana.get a).buttonComplete (s.ports.anIn a) (now s)
  emitBlob c.blob ((noteNow s).withAna (s.ana.set a c))

/-- WAIT_RELEASE (R135). While the button is pressed the step is not enabled and the sequencer holds (assumption 5). -/
def waitReleaseStep (s : State) : Answer :=
  match chanAt s.seq.ch with
  | .dig _ => .fault .waitReleaseOnDigital
  | .an a => if s.ports.button = 1 then .next s else .next (advancePoll (setPhase .poll (completeReading a s)))

end Sys2Proof.Machine
end

