-- ==== Sys2Proof/Machine/ByteClasses.lean ====
section
/-! DEFINITION. The byte classes beside the commands: a parameter byte, a reserved-count opcode and an unknown opcode. -/

namespace Sys2Proof.Machine

/-- PARAM: the byte is fed to the framer (R83), or dropped as a stray (R84, R161). -/
def execParam (value : Digit) (s : State) : Answer := .next (feed (paramByte value) s)

/-- Feeds an opcode byte of reserved count and answers it at once (R76, R82, R85, R132). -/
def feedReserved (b : Byte) (s : State) : State :=
  if s.framer.accepts then raiseProtocolError .reservedCount (feed b s) else s

/-- RESERVED_N3 (R76). -/
def execReservedN3 (fc : BitVec 5) (s : State) : Answer := .next (feedReserved (opcodeByte fc 3) s)

/-- UNKNOWN (R77): NAK, whatever the function code and the parameters. -/
def execUnknown (_fc : BitVec 5) (_ps : List Digit) (s : State) : Answer := .next (raiseProtocolError .unknownOpcode s)

/-- The reported cause that running an instruction meets (R159, R165), under the rate table of `p`. -/
def causeOf (p : Params) : Instr → Option Cause
  | .reservedN3 _ => some .reservedCount
  | .unknown _ _ => some .unknownOpcode
  | .mdeAsamptime c => if ratePeriod p c = none then some .badConfig else none
  | .mdeAtrig k _ => if conditionOf k = none then some .badConfig else none
  | .mdeDtrig e => if edgeModeOf e = none then some .badConfig else none
  | .stAnalog n => if n ≠ 0 ∧ selectedAnalog n = none then some .badConfig else none
  | .arm _ | .halt | .blinkled _ | .immDig1 | .immDig2 | .immAn051 | .immAn101 | .immAn052 | .immAn102 | .immButstate | .mdeSync
  | .mdeAstop _ | .stVers | .param _ => none

end Sys2Proof.Machine
end

