-- ==== Sys2Proof/Machine/ImmediateReads.lean ====
section
/-! DEFINITION. The immediate reads (spec/45_commands.md section 3). -/

namespace Sys2Proof.Machine

/-- One synchronous read and one blob of sequence 0, timed from the shared epoch (R145). -/
def immRead (raw : Raw) (src : BitVec 3) (s : State) : State :=
  emitBlob (encodeBlob 0 raw (src.setWidth 8) (now s - s.seq.epoch)) (noteNow s)

/-- `immRead(DIG(d))` (R145). -/
def immDigital (d : DigId) (s : State) : State := immRead ((s.ports.digIn d).setWidth 16) (s.dig.get d).src s

/-- `immRead(AN(a))` (R145). -/
def immAnalog (a : AnId) (s : State) : State := immRead (s.ports.anIn a) (s.ana.get a).src s

/-- `immRead(BUTTON)` (R145, R152). -/
def immButton (s : State) : State := immRead (s.ports.button.setWidth 16) s.par.tags.button s

/-- IMM_DIG1 (R146). -/
def execImmDig1 (s : State) : Answer := .next (concludeCommand s (some (immDigital .dig1 s)))

/-- IMM_DIG2 (R147). -/
def execImmDig2 (s : State) : Answer := .next (concludeCommand s (some (immDigital .dig2 s)))

/-- IMM_AN051 (R148). -/
def execImmAn051 (s : State) : Answer := .next (concludeCommand s (some (immAnalog .an051 s)))

/-- IMM_AN101 (R149). -/
def execImmAn101 (s : State) : Answer := .next (concludeCommand s (some (immAnalog .an101 s)))

/-- IMM_AN052 (R150). -/
def execImmAn052 (s : State) : Answer := .next (concludeCommand s (some (immAnalog .an052 s)))

/-- IMM_AN102 (R151). -/
def execImmAn102 (s : State) : Answer := .next (concludeCommand s (some (immAnalog .an102 s)))

/-- IMM_BUTSTATE (R152). -/
def execImmButstate (s : State) : Answer := .next (concludeCommand s (some (immButton s)))

end Sys2Proof.Machine
end

