-- ==== Sys2Proof/Machine/Modes.lean ====
section
/-! DEFINITION. The mode-setting commands (spec/45_commands.md section 4). Each checks its operands before its first write: `none` is BAD
(R163). -/

namespace Sys2Proof.Machine

/-- The new epoch and `sync` of every channel, in one step (R64, R153). -/
def syncAll (s : State) : State :=
  (((noteNow s).withSeq { s.seq with epoch := now s }).withDig (s.dig.mapAll fun _ c => c.sync (now s))).withAna
    (s.ana.mapAll fun _ c => c.sync (now s))

/-- The sample period of every analog channel, with its resync (R154); none for a code with no entry. -/
def setRate (c : Digit) (s : State) : Option State :=
  match ratePeriod s.par c with
  | some t => some (s.withAna (s.ana.mapAll fun _ ch => ch.setSampleRate t s.seq.epoch))
  | none => none

/-- The stop count of every analog channel (R155). -/
def setStops (n : BitVec 14) (s : State) : State := s.withAna (s.ana.mapAll fun _ ch => ch.setStopCondition n)

/-- The trigger of every analog channel (R156); none for a condition code that is not 0, 1 or 2. -/
def setAnalogTriggers (k t : Digit) (s : State) : Option State :=
  match conditionOf k with
  | some cond => some (s.withAna (s.ana.mapAll fun _ ch => ch.setTrigger cond (thresholdOf t)))
  | none => none

/-- The edge mode of both digital channels, with new baselines and resync (R157); none for a mode code that is not 0, 1 or 2. -/
def setDigitalTriggers (e : Digit) (s : State) : Option State :=
  match edgeModeOf e with
  | some m => some (s.withDig (s.dig.mapAll fun d ch => ch.setTrigger m (s.ports.digIn d) s.seq.epoch))
  | none => none

/-- MDE_SYNC (R153). -/
def execMdeSync (s : State) : Answer := .next (concludeCommand s (some (syncAll s)))

/-- MDE_ASAMPTIME (R154). -/
def execMdeAsamptime (code : Digit) (s : State) : Answer := .next (concludeCommand s (setRate code s))

/-- MDE_ASTOP (R155): every value is legal. -/
def execMdeAstop (stop : BitVec 14) (s : State) : Answer := .next (concludeCommand s (some (setStops stop s)))

/-- MDE_ATRIG (R156). -/
def execMdeAtrig (cond threshold : Digit) (s : State) : Answer := .next (concludeCommand s (setAnalogTriggers cond threshold s))

/-- MDE_DTRIG (R157). -/
def execMdeDtrig (mode : Digit) (s : State) : Answer := .next (concludeCommand s (setDigitalTriggers mode s))

end Sys2Proof.Machine
end

