-- ==== Sys2Proof/Machine/RunControl.lean ====
section
/-! DEFINITION. ARM, HALT and BLINKLED (spec/45_commands.md section 2). -/

namespace Sys2Proof.Machine

/-- Arms the channels whose index bit is 1 in the mask (R142). -/
def armSelected (m : Digit) (s : State) : State :=
  (s.withDig (s.dig.mapAll fun d c => if maskSelects m (digitalIndex d) then c.armPort else c)).withAna
    (s.ana.mapAll fun a c => if maskSelects m (analogIndex a) then c.armPort else c)

/-- Halts all six channels (R143). -/
def haltAll (s : State) : State :=
  (s.withDig (s.dig.mapAll fun _ c => c.haltPort)).withAna (s.ana.mapAll fun _ c => c.haltPort)

/-- Latches the LED value and pulses `led_strobe` (R144). -/
def latchLed (v : Digit) (s : State) : State := s.withLed { value := v, strobes := s.led.strobes + 1 }

/-- ARM (R142): always OK. -/
def execArm (mask : Digit) (s : State) : Answer := .next (concludeCommand s (some (armSelected mask s)))

/-- HALT (R143). -/
def execHalt (s : State) : Answer := .next (concludeCommand s (some (haltAll s)))

/-- BLINKLED (R144). -/
def execBlinkled (value : Digit) (s : State) : Answer := .next (concludeCommand s (some (latchLed value s)))

end Sys2Proof.Machine
end

