-- ==== Sys2Proof/Machine/StatusReport.lean ====
section
/-! DEFINITION. The status commands (spec/45_commands.md section 5). -/

namespace Sys2Proof.Machine

/-- Emits the drawn status text (R158). -/
def reportStatus (s : State) : State := emitAll (statusBytes s.ports.status) s

/-- The version report of selector 0, or the report of the selected analog channel; none for a selector of 5 or more (R158). -/
def reportSelected (selector : Digit) (s : State) : Option State :=
  if selector = 0 then some (reportStatus s)
  else
    match selectedAnalog selector with
    | some _ => some (reportStatus s)
    | none => none

/-- The structured snapshot that a report of selector 1..4 describes (R117, R158): the text that stands for it on the wire is a draw. -/
def reportedSnapshot (selector : Digit) (s : State) : Option AnalogStatus :=
  (selectedAnalog selector).map fun a => (s.ana.get a).getStatus a

/-- ST_VERS (R158): selector 0. -/
def execStVers (s : State) : Answer := .next (concludeCommand s (reportSelected 0 s))

/-- ST_ANALOG (R158). -/
def execStAnalog (selector : Digit) (s : State) : Answer := .next (concludeCommand s (reportSelected selector s))

end Sys2Proof.Machine
end

