-- ==== Sys2Proof/Machine/Dispatch.lean ====
section
/-! DEFINITION. The meaning of every instruction: one arm for each row of spec/opcode_table.json. -/

namespace Sys2Proof.Machine

/-- One instruction: a command's handler with its ACK or NAK, or a byte class's effect on the framer. -/
def exec (i : Instr) (s : State) : Host.Outcome State Fault Refusal :=
  match i with
  | .arm mask => Sys2Proof.Machine.execArm mask s
  | .halt => Sys2Proof.Machine.execHalt s
  | .blinkled value => Sys2Proof.Machine.execBlinkled value s
  | .immDig1 => Sys2Proof.Machine.execImmDig1 s
  | .immDig2 => Sys2Proof.Machine.execImmDig2 s
  | .immAn051 => Sys2Proof.Machine.execImmAn051 s
  | .immAn101 => Sys2Proof.Machine.execImmAn101 s
  | .immAn052 => Sys2Proof.Machine.execImmAn052 s
  | .immAn102 => Sys2Proof.Machine.execImmAn102 s
  | .immButstate => Sys2Proof.Machine.execImmButstate s
  | .mdeSync => Sys2Proof.Machine.execMdeSync s
  | .mdeAsamptime code => Sys2Proof.Machine.execMdeAsamptime code s
  | .mdeAstop stop => Sys2Proof.Machine.execMdeAstop stop s
  | .mdeAtrig cond threshold => Sys2Proof.Machine.execMdeAtrig cond threshold s
  | .mdeDtrig mode => Sys2Proof.Machine.execMdeDtrig mode s
  | .stVers => Sys2Proof.Machine.execStVers s
  | .stAnalog selector => Sys2Proof.Machine.execStAnalog selector s
  | .param value => Sys2Proof.Machine.execParam value s
  | .reservedN3 fc => Sys2Proof.Machine.execReservedN3 fc s
  | .unknown fc ps => Sys2Proof.Machine.execUnknown fc ps s

end Sys2Proof.Machine
end

