-- ==== Sys2Proof/Machine/Environment.lean ====
section
/-! DEFINITION. The receive path and the environment: which event is next, and what each does (R53, R129, R130, R172, R180, R182). -/

namespace Sys2Proof.Machine

/-- The next event: the head of the list, and where the list is empty the sequencer's turn. The list is finite, so the turn always comes
(R129, R139; assumptions 3 and 20). -/
def nextEvent (s : State) : Event :=
  match s.sched with
  | e :: _ => e
  | [] => .sequencer

/-- The state once the next event is taken: at the turn that an empty list gives, the next free list is drawn (R170). -/
def takeEvent (s : State) : State :=
  match s.sched with
  | _ :: es => s.withSched es
  | [] => (s.withSched (Config.round s.drawn)).withDrawn (s.drawn + 1)

/-- RX_APPEND (R53): a byte at a full FIFO is lost, and so is one delivered while `rst` is asserted (R182). -/
def rxAppend (b : Byte) (s : State) : State :=
  if s.ports.rst then s else if s.rxq.length < s.par.rxDepth then s.withRxq (s.rxq ++ [b]) else s

/-- The ports with a new time: `adv` microseconds, less than 2^31, after the last value read (R172). -/
def Ports.driveTime (adv : BitVec 31) (p : Ports) : Ports := { p with nowUs := p.lastNow + adv.setWidth 32 }

/-- The ports with a new digital level. -/
def Ports.driveDigital (d : DigId) (l : Bit) (p : Ports) : Ports :=
  match d with
  | .dig1 => { p with dig1 := l }
  | .dig2 => { p with dig2 := l }

/-- The ports with a new analog value. -/
def Ports.driveAnalog (a : AnId) (r : Raw) (p : Ports) : Ports :=
  match a with
  | .an051 => { p with an051 := r }
  | .an101 => { p with an101 := r }
  | .an052 => { p with an052 := r }
  | .an102 => { p with an102 := r }

/-- Asserting `rst` puts every register at its reset value, in one event (R180); parameters and environment go on. -/
def assertReset (s : State) : State := State.ofReset s.par { s.ports with rst := true } s.sched s.drawn

/-- Releasing `rst`: the registers are at their reset values and the digital baselines are sampled now (R36, R180). Without `rst` asserted
there is nothing to release. -/
def releaseReset (s : State) : State :=
  if s.ports.rst then State.ofReset s.par { s.ports with rst := false } s.sched s.drawn else s

/-- What an event of the receive path or of the environment does; `sequencer` is not one of theirs. -/
def environmentStep (e : Event) (s : State) : State :=
  match e with
  | .sequencer => s
  | .rx b => rxAppend b s
  | .time adv => s.withPorts (s.ports.driveTime adv)
  | .digital d l => s.withPorts (s.ports.driveDigital d l)
  | .analog a r => s.withPorts (s.ports.driveAnalog a r)
  | .button l => s.withPorts { s.ports with button := l }
  | .status t => s.withPorts { s.ports with status := t }
  | .rstAssert => assertReset s
  | .rstRelease => releaseReset s

end Sys2Proof.Machine
end

