-- ==== Sys2Proof/Machine/Step.lean ====
section
/-! DEFINITION. One atomic step of one agent (spec/44_tick_scheduler.md R129, R130), and where the host puts an instruction. -/

namespace Sys2Proof.Machine

/-- DRAIN (R132): a PARAM byte and a reserved-count opcode are instructions by themselves; any other opcode byte begins a command. -/
def drainStep (s : State) : Answer :=
  match drainByte s with
  | some b =>
    match byteInstr b with
    | some i => exec i (popByte s)
    | none => .next (feed b (popByte s))
  | none => .next (endDrain s)

/-- DISPATCH (R133). -/
def dispatchStep (s : State) : Answer :=
  match dispatchInstr s with
  | some i => thenDo beginPolling (exec i s)
  | none => .next (beginPolling s)

/-- The tick sequencer's step in its phase (R130). -/
def sequencerStep (s : State) : Answer :=
  match s.seq.phase with
  | .idle => .next (tickStart s)
  | .drain => drainStep s
  | .dispatch => dispatchStep s
  | .poll => .next (pollStep s)
  | .waitRelease => waitReleaseStep s

/-- What an event does. While `rst` is asserted the sequencer holds (R180; assumption 7). -/
def perform (e : Event) (s : State) : Answer :=
  match e with
  | .sequencer => if s.ports.rst then .next s else sequencerStep s
  | .rx _ | .time _ | .digital _ _ | .analog _ _ | .button _ | .status _ | .rstAssert | .rstRelease => .next (environmentStep e s)

/-- One step of the core: the next event is taken and performed (R129, R130). -/
def step (s : State) : Host.Outcome State Fault Refusal := perform (nextEvent s) (takeEvent s)

/-- `s` with the instruction of the table word `w` where the very next step runs it (assumption 9): the next event is the sequencer's and
`rst` is released; a command stands complete in the framer with the sequencer in Dispatch; a PARAM byte or a reserved-count opcode stands at
the head of `RXQ` with the sequencer in Drain and the framer accepting. -/
def State.withFetchWord (s : State) (nbits w : Nat) : State :=
  let b := (tableBytes nbits w).headD 0
  let p1 := paramValue ((tableBytes nbits w).getD 1 0)
  let p2 := paramValue ((tableBytes nbits w).getD 2 0)
  let n := paramCount b
  let s1 := (s.withSched (.sequencer :: s.sched)).withPorts { s.ports with rst := false }
  if isOpcodeByte b && n != 3 then
    (s1.withFramer
      { s.framer with
        state := .complete
        op := b
        rem := 0
        k := n
        p1 := if n = 0 then s.framer.p1 else p1
        p2 := if n = 2 then p2 else s.framer.p2 }).withSeq { s.seq with phase := .dispatch }
  else
    ((s1.withRxq (b :: s.rxq)).withFramer (if s.framer.accepts then s.framer else s.framer.ready)).withSeq
      { s.seq with phase := .drain, budget := s.seq.budget + 1 }

end Sys2Proof.Machine
end

