-- ==== Sys2Proof/Safety.lean ====
section
/-! DEFINITION. The terms claims use: the invariant of the core, its quiescent states, what an answered command leaves, runs of a framer and of
a channel. -/

namespace Sys2Proof.Safety

open Sys2Proof.Machine

/-! ## The invariant -/

/-- The framer invariants (a) to (d) of R93. -/
structure FramerOk (f : Framer) : Prop where
  awaiting : f.state = .awaitingOpcode → f.rem = 0 ∧ f.k = 0
  collecting : f.state = .collecting →
    isOpcodeByte f.op = true ∧ (paramCount f.op = 1 ∨ paramCount f.op = 2) ∧ 1 ≤ f.rem.toNat ∧
      f.k.toNat + f.rem.toNat = (paramCount f.op).toNat
  complete : f.state = .complete → isOpcodeByte f.op = true ∧ paramCount f.op ≠ 3 ∧ f.rem = 0 ∧ f.k = paramCount f.op
  invalid : f.state = .invalid → isOpcodeByte f.op = true ∧ paramCount f.op = 3 ∧ f.rem = 0 ∧ f.k = 0

/-- Who holds the sequencer in WaitRelease: an analog channel that is running in button-gated mode below its stop count (R17, R102, R107). -/
def HeldByButtonChannel (s : State) : Prop :=
  ∃ a, chanAt s.seq.ch = .an a ∧ (s.ana.get a).state = .run ∧ (s.ana.get a).period = 0 ∧ (s.ana.get a).stopReached = false

/-- The sequencer between two steps: the budget is covered by the FIFO (R132), the FIFO is within its capacity (R20), `T.ch` is 0 outside
polling (R133, R134), WaitRelease belongs to a button-gated channel (R17), a complete command is dispatched in its tick (R136), and the
framer is never seen Invalid (R85, D7). -/
structure SequencerOk (s : State) : Prop where
  budget : s.seq.budget ≤ s.rxq.length
  depth : s.rxq.length ≤ s.par.rxDepth
  channel : s.seq.phase ≠ .poll → s.seq.phase ≠ .waitRelease → s.seq.ch = 0
  wait : s.seq.phase = .waitRelease → HeldByButtonChannel s
  complete : s.framer.state = .complete → s.seq.phase = .drain ∨ s.seq.phase = .dispatch
  notInvalid : s.framer.state ≠ .invalid

/-- The channels: tags are the parameters' (R33, R43), every sample period is a value of RATE_TABLE (R4, R23, R112), every threshold is a
multiple of 8 (R156). -/
structure ChannelsOk (s : State) : Prop where
  analogTag : ∀ a, (s.ana.get a).src = s.par.tags.analog a
  digitalTag : ∀ d, (s.dig.get d).src = s.par.tags.digital d
  period : ∀ a, ∃ c, (c, (s.ana.get a).period) ∈ s.par.rates
  threshold : ∀ a, (s.ana.get a).thr.toNat % 8 = 0

/-- The duty of the time source: `now_us` is less than 2^31 microseconds past the last value read (R172). -/
def TimeOk (s : State) : Prop := (s.ports.nowUs - s.ports.lastNow).toNat < 2 ^ 31

/-- The invariant of the core: it holds at reset and every step keeps it. -/
structure CoreInv (s : State) : Prop where
  par : s.par.wf = true
  framer : FramerOk s.framer
  sequencer : SequencerOk s
  channels : ChannelsOk s
  time : TimeOk s

/-- Every register at its reset value under the state's own parameters, the digital baselines being the present input levels, and TX empty
(R180). -/
structure ResetRegisters (s : State) : Prop where
  framer : s.framer = { state := .awaitingOpcode, op := 0, rem := 0, k := 0, p1 := 0, p2 := 0 }
  sequencer : s.seq = { phase := .idle, ch := 0, budget := 0, epoch := 0 }
  queues : s.rxq = [] ∧ s.tx = []
  led : s.led.value = 0
  analog : ∀ a, s.ana.get a =
    { state := .halt, period := s.par.resetSamplePeriod, cond := .immediate, thr := 0, stop := 0, count := 0, lastRaw := 0, ts := 0
      base := 0, nextRead := 0, tprev := 0, tprevValid := false, src := s.par.tags.analog a }
  digital : ∀ d, s.dig.get d =
    { state := .halt, mode := .any, level := s.ports.digIn d, count := 0, ts := 0, base := 0, prevMatch := 0, delta := 0, dir := 0
      src := s.par.tags.digital d }

/-- A quiescent state (R140). -/
structure Quiescent (s : State) : Prop where
  idle : s.seq.phase = .idle
  empty : s.rxq = []
  ready : s.framer.state = .awaitingOpcode
  analog : ∀ a, (s.ana.get a).state = .halt
  digital : ∀ d, (s.dig.get d).state = .halt

/-! ## What commands leave -/

/-- A command answered by the bytes `body` and then `last`: the framer is ready and keeps `op`, `p1`, `p2` (R59, R87, R88), and what no
command touches is untouched: the parameters, RXQ, and the place in the tick (R65, R133). -/
structure Answered (s t : State) (body : List Byte) (last : Byte) : Prop where
  tx : t.tx = s.tx ++ body ++ [last]
  framer : t.framer = { s.framer with state := .awaitingOpcode, rem := 0, k := 0 }
  par : t.par = s.par
  rxq : t.rxq = s.rxq
  phase : t.seq.phase = s.seq.phase ∧ t.seq.ch = s.seq.ch ∧ t.seq.budget = s.seq.budget
  events : t.sched = s.sched ∧ t.drawn = s.drawn

/-- The input ports are untouched, but for the note that `now()` has been read (R172). -/
def TimeWasRead (s t : State) : Prop := t.ports = { s.ports with lastNow := s.ports.nowUs }

/-- A rejected command: NAK, a ready framer, and nothing else changed (R160, R163). -/
def rejected (s : State) : State :=
  { s with tx := s.tx ++ [0x3F], framer := { s.framer with state := .awaitingOpcode, rem := 0, k := 0 } }

/-- An immediate read of the value `raw` with tag `src`: a blob of sequence 0 timed from the epoch, ACK, and no register changed (R145). -/
structure ImmediateReply (s t : State) (raw : Raw) (src : BitVec 3) : Prop where
  answered : Answered s t (encodeBlob 0 raw (src.setWidth 8) (s.ports.nowUs - s.seq.epoch)).bytes 0x21
  epoch : t.seq.epoch = s.seq.epoch
  led : t.led = s.led
  analog : t.ana = s.ana
  digital : t.dig = s.dig
  time : TimeWasRead s t

/-- The wire commands, and the opcode bytes answered as unknown: everything that DISPATCH runs. -/
def isCommand : Instr → Bool
  | .param _ | .reservedN3 _ => false
  | .arm _ | .halt | .blinkled _ | .immDig1 | .immDig2 | .immAn051 | .immAn101 | .immAn052 | .immAn102 | .immButstate | .mdeSync
  | .mdeAsamptime _ | .mdeAstop _ | .mdeAtrig _ _ | .mdeDtrig _ | .stVers | .stAnalog _ | .unknown _ _ => true

/-- The commands that write channel configuration or the LED register (R44). -/
def writesConfiguration : Instr → Bool
  | .blinkled _ | .mdeAsamptime _ | .mdeAstop _ | .mdeAtrig _ _ | .mdeDtrig _ => true
  | .arm _ | .halt | .immDig1 | .immDig2 | .immAn051 | .immAn101 | .immAn052 | .immAn102 | .immButstate | .mdeSync | .stVers
  | .stAnalog _ | .param _ | .reservedN3 _ | .unknown _ _ => false

/-- The configuration registers of R44 but `T.epoch`: equal in two states. -/
structure SameConfiguration (s t : State) : Prop where
  analog : ∀ a, (t.ana.get a).period = (s.ana.get a).period ∧ (t.ana.get a).cond = (s.ana.get a).cond ∧
    (t.ana.get a).thr = (s.ana.get a).thr ∧ (t.ana.get a).stop = (s.ana.get a).stop
  digital : ∀ d, (t.dig.get d).mode = (s.dig.get d).mode
  led : t.led = s.led

/-- The event is one of `rst`. -/
def isReset : Event → Bool
  | .rstAssert | .rstRelease => true
  | .sequencer | .rx _ | .time _ | .digital _ _ | .analog _ _ | .button _ | .status _ => false

/-! ## The bytes a step may emit (R56, R59, R99, R137) -/

/-- What the handler of a command emits before its ACK or NAK: nothing, one blob, or a status text. -/
def IsBody (body : List Byte) : Prop :=
  body = [] ∨ (∃ b : Blob, b.b0 = 0xAA ∧ body = b.bytes) ∨ ∃ t : StatusText, body = statusBytes t

/-- What a step taken in a phase may append to TX. -/
def MayEmit (p : Phase) (out : List Byte) : Prop :=
  out = [] ∨
    match p with
    | .idle => False
    | .drain => out = [0x3F]
    | .dispatch => ∃ body last, IsBody body ∧ (last = 0x21 ∨ last = 0x3F) ∧ out = body ++ [last]
    | .poll | .waitRelease => ∃ b : Blob, b.b0 = 0xAA ∧ out = b.bytes

/-! ## Runs -/

/-- The record of events after `n` of them are taken. -/
def takeEvents : Nat → State → State
  | 0, s => s
  | n + 1, s => takeEvents n (takeEvent s)

/-- The events of the first `n` steps from a state, as far as the core goes on. -/
def eventsOf : Nat → State → List Event
  | 0, _ => []
  | n + 1, s =>
    nextEvent s ::
      match step s with
      | .next t => eventsOf n t
      | .fault _ => []
      | .refused _ => []

/-- The states that the first `n` steps from a state lead to, as far as the core goes on. -/
def statesOf : Nat → State → List State
  | 0, _ => []
  | n + 1, s =>
    match step s with
    | .next t => t :: statesOf n t
    | .fault _ => []
    | .refused _ => []

/-- The framer after a sequence of bytes, each fed in turn. -/
def feedAll (bs : List Byte) (f : Framer) : Framer := bs.foldl (fun g b => g.feedByte b) f

/-- The bytes of the command that a complete framer holds (R69). -/
def heldBytes (f : Framer) : List Byte := f.op :: (collected (paramCount f.op) f.p1 f.p2).map paramByte

/-- A digital channel polled once at each (level, time): how many polls gave data, and the channel after. -/
def pollLevels : List (Bit × Micros) → DigitalChannel → Nat × DigitalChannel
  | [], c => (0, c)
  | (l, t) :: ps, c =>
    let o := c.poll l t
    let rest := pollLevels ps o.chan
    ((if o.result = .data then 1 else 0) + rest.1, rest.2)

/-- A square wave that leaves level `l` at once and has one half cycle for each list of poll times: every poll of a half cycle sees the same
level (R127). -/
def squareWave (l : Bit) : List (List Micros) → List (Bit × Micros)
  | [] => []
  | ts :: rest => ts.map (fun t => (l ^^^ 1, t)) ++ squareWave (l ^^^ 1) rest

/-- The inputs of one service of an analog channel: raw value, time and button at its poll, and raw value and time at the button's release,
which a blocked poll waits for. -/
structure AnalogInput where
  raw : Raw
  time : Micros
  button : Bit
  releaseRaw : Raw
  releaseTime : Micros
deriving DecidableEq, Repr, Inhabited

/-- An analog channel served once in a tick: its poll (R102), and where that blocks, the reading at the release, which returns data (R108,
R135). -/
def serveAnalog (i : AnalogInput) (c : AnalogChannel) : PollResult × AnalogChannel :=
  let o := c.poll i.raw i.time i.button
  if o.result = .wait then (.data, o.chan.buttonComplete i.releaseRaw i.releaseTime) else (o.result, o.chan)

/-- An analog channel served once at each input: the results, and the channel after. -/
def serveReadings : List AnalogInput → AnalogChannel → List PollResult × AnalogChannel
  | [], c => ([], c)
  | i :: is, c =>
    let o := serveAnalog i c
    let rest := serveReadings is o.2
    (o.1 :: rest.1, rest.2)

/-- How many of the results are data. -/
def dataCount (rs : List PollResult) : Nat := rs.count .data

end Sys2Proof.Safety
end

