-- ==== Sys2Proof/Certificates/Slice0/Obligations.lean ====
section
/-! DEFINITION. The statements for the provers, in the order of the files of spec/. -/

open Sys2Proof Sys2Proof.Machine Sys2Proof.Safety

/-! ## Encoding (spec/30_encoding.md) -/

/-- A few words of spec/95_test_vectors.md, under TESTCFG (D45): each decodes to the command it stands for. -/
def Obligations.SpecWordsDecodeUnderTestcfg : Prop :=
  decode Config.testcfg [0x85, 0x05] = .ok (.arm 5) [] ∧
  decode Config.testcfg [0x88] = .ok .halt [] ∧
  decode Config.testcfg [0xA8] = .ok .immButstate [] ∧
  decode Config.testcfg [0xB6, 0x2C, 0x02] = .ok (.mdeAstop 300) [] ∧
  decode Config.testcfg [0xBA, 0x01, 0x40] = .ok (.mdeAtrig 1 64) [] ∧
  decode Config.testcfg [0xC1, 0x04] = .ok (.stAnalog 4) [] ∧
  decode Config.testcfg [0x87, 0x05] = .ok (.reservedN3 1) [0x05] ∧
  decode Config.testcfg [0xC6, 0x01, 0x02] = .ok (.unknown 17 [1, 2]) []

/-- Under every parameter assignment that meets R3 and R4, decoding the bytes of any well-formed instruction gives it back, with the bytes that
follow it. -/
def Obligations.DecodeOfEncodeIsIdentity : Prop :=
  ∀ (p : Params) (i : Instr) (rest : List Byte), p.wf = true → i.wf p = true → decode p (encode p i ++ rest) = .ok i rest

/-- Whatever decodes is the encoding of the well-formed instruction it decodes to: no byte sequence has two readings. -/
def Obligations.DecodedBytesAreTheEncoding : Prop :=
  ∀ (p : Params) (bs rest : List Byte) (i : Instr), decode p bs = .ok i rest → i.wf p = true ∧ bs = encode p i ++ rest

/-- R77, R141: a pair (FC, N) that no row of the opcode map holds decodes to an unknown opcode with the collected parameters, and R75: a row's
own pair selects that row, under every assignment that meets R3. -/
def Obligations.DispatchKeyIsTheWholeOpcodeByte : Prop :=
  ∀ (p : Params) (p1 p2 : Digit),
    (∀ r : MapRow, p.codesDistinct = true → decodeCommand p (p.code r) r.count p1 p2 = r.instr p1 p2) ∧
    (∀ fc n, (∀ r : MapRow, p.code r = fc → r.count ≠ n) → decodeCommand p fc n p1 p2 = .unknown fc (collected n p1 p2))

/-! ## Framer (spec/40_framer.md) -/

/-- R82: an opcode byte fed to an accepting framer is latched, whatever was collected is abandoned, and its count decides the state and the
flags. -/
def Obligations.OpcodeByteStartsAFreshCommand : Prop :=
  ∀ (f : Framer) (b : Byte), (f.state = .awaitingOpcode ∨ f.state = .collecting) → b.getLsbD 7 = true →
    (f.feedByte b).op = b ∧ (f.feedByte b).k = 0 ∧ (f.feedByte b).p1 = f.p1 ∧ (f.feedByte b).p2 = f.p2 ∧
    (f.feedByte b).isReadyToReceive = false ∧
    ((f.feedByte b).isBuilding = true ↔ b.toNat % 4 = 1 ∨ b.toNat % 4 = 2) ∧
    ((f.feedByte b).isComplete = true ↔ b.toNat % 4 = 0) ∧
    (b.toNat % 4 = 3 → (f.feedByte b).state = .invalid ∧ (f.feedByte b).rem = 0) ∧
    (b.toNat % 4 = 0 → (f.feedByte b).state = .complete ∧ (f.feedByte b).rem = 0) ∧
    (b.toNat % 4 = 1 → (f.feedByte b).state = .collecting ∧ (f.feedByte b).rem = 1) ∧
    (b.toNat % 4 = 2 → (f.feedByte b).state = .collecting ∧ (f.feedByte b).rem = 2)

/-- The framer and DISPATCH together are the decoder: feeding the bytes of any well-formed command to a framer that accepts, whatever it had
collected, completes it, and dispatch decodes that command. -/
def Obligations.FramerCollectsWhatDispatchDecodes : Prop :=
  ∀ (p : Params) (i : Instr) (f : Framer), p.wf = true → i.wf p = true → isCommand i = true →
    (f.state = .awaitingOpcode ∨ f.state = .collecting) →
    (feedAll (encode p i) f).state = .complete ∧
    decodeCommand p (functionCode (feedAll (encode p i) f).op) (paramCount (feedAll (encode p i) f).op)
      (feedAll (encode p i) f).p1 (feedAll (encode p i) f).p2 = i

/-- R91: `getParameter(i)` gives the collected slots 1..k and the sentinel 0xFF (D9) for every other index. -/
def Obligations.ParameterAccessIsBounded : Prop :=
  ∀ (f : Framer), f.k.toNat ≤ 2 →
    (1 ≤ f.k.toNat → f.getParameterAt 1 = f.p1.setWidth 8) ∧
    (2 ≤ f.k.toNat → f.getParameterAt 2 = f.p2.setWidth 8) ∧
    (∀ i : Byte, (i = 0 ∨ f.k.toNat < i.toNat) → f.getParameterAt i = 0xFF)

/-- R92, R155: for a complete command of two parameters, `getParameter()` is the stop count that dispatch hands to MDE_ASTOP, p1 + 128 p2. -/
def Obligations.ComposedParameterIsTheStopCount : Prop :=
  ∀ (f : Framer), FramerOk f → f.state = .complete → paramCount f.op = 2 →
    f.getParameter.toNat = f.p1.toNat + 128 * f.p2.toNat ∧
    (composeDigits f.p1 f.p2).toNat = f.p1.toNat + 128 * f.p2.toNat

/-- R87, R88: from every framer state ACK and NAK emit their one byte and leave the framer ready, with nothing else of the core changed; that
`op`, `p1` and `p2` are kept is D11. -/
def Obligations.ReplyLeavesTheFramerReady : Prop :=
  ∀ (s : State),
    commandSuccessful s = { s with tx := s.tx ++ [0x21], framer := { s.framer with state := .awaitingOpcode, rem := 0, k := 0 } } ∧
    badCommand s = { s with tx := s.tx ++ [0x3F], framer := { s.framer with state := .awaitingOpcode, rem := 0, k := 0 } } ∧
    (commandSuccessful s).framer.isReadyToReceive = true ∧ (badCommand s).framer.isReadyToReceive = true

/-! ## Blob (spec/41_blob_encoder.md) -/

/-- R95: the eight bytes of a blob, in arithmetic. -/
def Obligations.BlobBytesFollowTheLayout : Prop :=
  ∀ (seq : Count) (raw : Raw) (src : Byte) (ts : Micros),
    let b := encodeBlob seq raw src ts
    b.b0 = 0xAA ∧
    b.b1.toNat = seq.toNat % 2048 / 8 ∧
    b.b2.toNat = 32 * (seq.toNat % 8) + raw.toNat % 1024 / 32 ∧
    b.b3.toNat = 8 * (raw.toNat % 32) + src.toNat % 8 ∧
    b.b4.toNat = ts.toNat / 16777216 ∧
    b.b5.toNat = ts.toNat / 65536 % 256 ∧
    b.b6.toNat = ts.toNat / 256 % 256 ∧
    b.b7.toNat = ts.toNat % 256 ∧
    b.bytes = [b.b0, b.b1, b.b2, b.b3, b.b4, b.b5, b.b6, b.b7]

/-- R98 (derived in the spec): a host recovers the sequence number modulo 2048, the raw value modulo 1024, the tag modulo 8 and the
timestamp. -/
def Obligations.HostRecoversTheBlobFields : Prop :=
  ∀ (seq : Count) (raw : Raw) (src : Byte) (ts : Micros),
    (encodeBlob seq raw src ts).seqField.toNat = seq.toNat % 2048 ∧
    (encodeBlob seq raw src ts).rawField.toNat = raw.toNat % 1024 ∧
    (encodeBlob seq raw src ts).srcField.toNat = src.toNat % 8 ∧
    (encodeBlob seq raw src ts).tsField = ts

/-- R97 (derived in the spec): two readings encode alike exactly when they agree modulo 2048, 1024 and 8 and in the timestamp. -/
def Obligations.BlobsAgreeExactlyModuloTheFields : Prop :=
  ∀ (seq seq' : Count) (raw raw' : Raw) (src src' : Byte) (ts ts' : Micros),
    encodeBlob seq raw src ts = encodeBlob seq' raw' src' ts' ↔
      seq.toNat % 2048 = seq'.toNat % 2048 ∧ raw.toNat % 1024 = raw'.toNat % 1024 ∧ src.toNat % 8 = src'.toNat % 8 ∧ ts = ts'

/-! ## Analog channels (spec/42_analog_channel.md) -/

/-- R103, R106, R107: a poll of a halted channel, of a channel at its stop count, and of a button-gated channel with the button released or
pressed: the result and the channel after it. None reads the time. -/
def Obligations.AnalogPollWithoutReading : Prop :=
  ∀ (c : AnalogChannel) (r : Raw) (t : Micros) (b : Bit),
    (c.state = .halt → c.poll r t b = { result := .nodata, chan := c, readsTime := false }) ∧
    (c.state = .run → c.stop ≠ 0 → c.stop.toNat ≤ c.count.toNat →
      c.poll r t b = { result := .nodata, chan := { c with state := .halt }, readsTime := false }) ∧
    (c.state = .run → (c.stop = 0 ∨ c.count.toNat < c.stop.toNat) → c.period = 0 →
      (b = 0 → c.poll r t b = { result := .nodata, chan := c, readsTime := false }) ∧
      (b = 1 → c.poll r t b = { result := .wait, chan := c, readsTime := false }))

/-- R104, R105 (the two-read crossing is D25): the whole effect of polling an Armed channel. It begins to run exactly when its condition fires; a
condition other than Immediate records its read either way; nothing else is written, and the time is read only when the condition fires. -/
def Obligations.ArmedChannelRunsOnItsTrigger : Prop :=
  ∀ (c : AnalogChannel) (r : Raw) (t : Micros) (b : Bit), c.state = .armed →
    let fires :=
      c.cond = .immediate ∨
      (c.cond = .riseAbove ∧ c.tprevValid = true ∧ c.tprev.toNat ≤ c.thr.toNat ∧ c.thr.toNat < r.toNat) ∨
      (c.cond = .fallBelow ∧ c.tprevValid = true ∧ c.thr.toNat ≤ c.tprev.toNat ∧ r.toNat < c.thr.toNat)
    let seen := if c.cond = .immediate then c else { c with tprev := r, tprevValid := true }
    (fires → c.poll r t b =
      { result := .nodata, chan := { seen with state := .run, nextRead := t + c.period }, readsTime := true }) ∧
    (¬fires → c.poll r t b = { result := .nodata, chan := seen, readsTime := false })

/-- R109: a periodic channel that is due takes one reading; one that is not due takes none. -/
def Obligations.PeriodicPollReadsWhenDue : Prop :=
  ∀ (c : AnalogChannel) (r : Raw) (t : Micros) (b : Bit), c.state = .run → (c.stop = 0 ∨ c.count.toNat < c.stop.toNat) →
    c.period ≠ 0 →
    ((t - c.nextRead).toNat < 2 ^ 31 →
      c.poll r t b =
        { result := .data
          chan := { c with lastRaw := r, ts := t - c.base, nextRead := c.nextRead + c.period, count := c.count + 1 }
          readsTime := true }) ∧
    (2 ^ 31 ≤ (t - c.nextRead).toNat → c.poll r t b = { result := .nodata, chan := c, readsTime := true })

/-- R110 (the comparison is D26): the wrap-safe comparison agrees with the plain one while the two times are within 2^31 microseconds. -/
def Obligations.TimeComparisonIsExactWithinHalfTheRange : Prop :=
  ∀ (t x : Micros), t.toNat < x.toNat + 2 ^ 31 → x.toNat < t.toNat + 2 ^ 31 → (timeReached t x = true ↔ x.toNat ≤ t.toNat)

/-- R118, R106, R108: whatever the inputs and however often it is served, a channel with a stop count, periodic or button-gated, reports at most as
many readings as its count is below that stop count, those taken at a button's release among them; and once it has reported them a further poll
halts it. -/
def Obligations.StopCountBoundsTheReadings : Prop :=
  ∀ (is : List AnalogInput) (c : AnalogChannel), c.stop ≠ 0 → c.count.toNat ≤ c.stop.toNat →
    dataCount (serveReadings is c).1 + c.count.toNat = (serveReadings is c).2.count.toNat ∧
    (serveReadings is c).2.count.toNat ≤ c.stop.toNat ∧
    ((serveReadings is c).2.state = .run → (serveReadings is c).2.count.toNat = c.stop.toNat → ∀ r t b,
      ((serveReadings is c).2.poll r t b).result = .nodata ∧ ((serveReadings is c).2.poll r t b).chan.state = .halt)

/-- R187: a late periodic channel reports one reading at every poll that finds it due, and `nextRead` moves by one period from its own value at
each: after n readings it has moved by n periods and the count by n. -/
def Obligations.LateChannelCatchesUpOnePeriodAPoll : Prop :=
  ∀ (is : List AnalogInput) (c : AnalogChannel), c.state = .run → c.stop = 0 → c.period ≠ 0 →
    (serveReadings is c).2.nextRead = c.nextRead + BitVec.ofNat 32 (dataCount (serveReadings is c).1) * c.period ∧
    (serveReadings is c).2.count = c.count + BitVec.ofNat 32 (dataCount (serveReadings is c).1) ∧
    (serveReadings is c).2.state = .run

/-! ## Digital channels (spec/43_digital_channel.md) -/

/-- R122: a poll of a digital channel in every case. -/
def Obligations.DigitalPollReportsMatchingTransitions : Prop :=
  ∀ (c : DigitalChannel) (l : Bit) (t : Micros),
    (c.state = .halt → c.poll l t = { result := .nodata, chan := c, readsTime := false }) ∧
    (c.state = .run → l = c.level → c.poll l t = { result := .nodata, chan := c, readsTime := false }) ∧
    (c.state = .run → l ≠ c.level → (c.mode = .any ∨ (c.mode = .risingOnly ∧ l = 1) ∨ (c.mode = .fallingOnly ∧ l = 0)) →
      c.poll l t =
        { result := .data
          chan :=
            { c with
              level := l, count := c.count + 1, delta := t - c.prevMatch, prevMatch := t, ts := t - c.base, dir := l }
          readsTime := true }) ∧
    (c.state = .run → l ≠ c.level → ((c.mode = .risingOnly ∧ l = 0) ∨ (c.mode = .fallingOnly ∧ l = 1)) →
      c.poll l t = { result := .nodata, chan := { c with level := l }, readsTime := false })

/-- R127 (derived in the spec): a square wave of `k` full cycles that starts away from the baseline, each level of it held across one poll or
more, gives 2k reports in mode Any, and k in RisingOnly and in FallingOnly. -/
def Obligations.SquareWaveIsCountedByMode : Prop :=
  ∀ (k : Nat) (c : DigitalChannel) (wave : List (List Micros)), c.state = .run → wave.length = 2 * k → (∀ ts ∈ wave, ts ≠ []) →
    (c.mode = .any →
      (pollLevels (squareWave c.level wave) c).1 = 2 * k ∧
      (pollLevels (squareWave c.level wave) c).2.count = c.count + BitVec.ofNat 32 (2 * k)) ∧
    (c.mode ≠ .any →
      (pollLevels (squareWave c.level wave) c).1 = k ∧
      (pollLevels (squareWave c.level wave) c).2.count = c.count + BitVec.ofNat 32 k)

/-! ## Receive path, ports and reset (spec/20_memory.md, spec/60_exceptions.md, spec/70_reset_and_hazards.md) -/

/-- R53 (drop on full is D4), R182: what delivering a byte does. -/
def Obligations.ArrivingByteIsAppendedOrLost : Prop :=
  ∀ (s : State) (b : Byte), nextEvent s = .rx b →
    (s.ports.rst = false → s.rxq.length < s.par.rxDepth → step s = .next { takeEvent s with rxq := s.rxq ++ [b] }) ∧
    (s.ports.rst = false → s.par.rxDepth ≤ s.rxq.length → step s = .next (takeEvent s)) ∧
    (s.ports.rst = true → step s = .next (takeEvent s))

/-- R54, R55 (derived in the spec): but for reset, a step leaves RXQ as it is, appends one byte at its tail, or takes its oldest byte; the last
only in a DRAIN step. -/
def Obligations.ReceiveQueueIsFirstInFirstOut : Prop :=
  ∀ (s t : State), step s = .next t → isReset (nextEvent s) = false →
    t.rxq = s.rxq ∨ (∃ b, nextEvent s = .rx b ∧ t.rxq = s.rxq ++ [b]) ∨
      (∃ b, nextEvent s = .sequencer ∧ s.seq.phase = .drain ∧ 0 < s.seq.budget ∧ t.seq.budget + 1 = s.seq.budget ∧ s.rxq = b :: t.rxq)

/-- R56, R58, R59, R99: but for reset, TX only grows, and each step appends nothing or one of: a drain's NAK, a whole command reply, or one whole
blob. -/
def Obligations.EachStepEmitsOneWholeUnit : Prop :=
  ∀ (s t : State), step s = .next t → isReset (nextEvent s) = false →
    ∃ out, t.tx = s.tx ++ out ∧ (nextEvent s ≠ .sequencer → out = []) ∧ MayEmit s.seq.phase out

/-- R172: the environment moves the time to less than 2^31 microseconds after the last value read, and to every such time; every other port is
left alone. -/
def Obligations.TimeMovesWithinHalfTheRange : Prop :=
  (∀ (s : State) (adv : BitVec 31), nextEvent s = .time adv →
    ∃ t, step s = .next t ∧ t = { takeEvent s with ports := { s.ports with nowUs := t.ports.nowUs } } ∧
      (t.ports.nowUs - s.ports.lastNow).toNat = adv.toNat) ∧
  (∀ (s : State) (u : Micros), (u - s.ports.lastNow).toNat < 2 ^ 31 →
    ∃ adv : BitVec 31, ∃ t, step { s with sched := .time adv :: s.sched } = .next t ∧ t.ports.nowUs = u)

/-- R175, R176: the environment may give every input port any value, and changes nothing else by it. -/
def Obligations.EnvironmentDrivesItsOwnPortOnly : Prop :=
  ∀ (s : State),
    (∀ d l, nextEvent s = .digital d l → ∃ t, step s = .next t ∧ t = { takeEvent s with ports := t.ports } ∧
      t.ports.digIn d = l ∧ (∀ d', d' ≠ d → t.ports.digIn d' = s.ports.digIn d') ∧
      t.ports = { s.ports with dig1 := t.ports.dig1, dig2 := t.ports.dig2 }) ∧
    (∀ a r, nextEvent s = .analog a r → ∃ t, step s = .next t ∧ t = { takeEvent s with ports := t.ports } ∧
      t.ports.anIn a = r ∧ (∀ a', a' ≠ a → t.ports.anIn a' = s.ports.anIn a') ∧
      t.ports =
        { s.ports with an051 := t.ports.an051, an101 := t.ports.an101, an052 := t.ports.an052, an102 := t.ports.an102 }) ∧
    (∀ l, nextEvent s = .button l → step s = .next { takeEvent s with ports := { s.ports with button := l } }) ∧
    (∀ x, nextEvent s = .status x → step s = .next { takeEvent s with ports := { s.ports with status := x } })

/-- R180: the register values after reset, with `rst` released. Those the document does not give are the spec's decision D38; that the input ports
and the parameters hold free values is assumptions 1 and 2. -/
def Obligations.ResetValuesOfTheRegisters : Prop :=
  ResetRegisters State.reset ∧ State.reset.ports.rst = false

/-- R180, R182, R36, each for every state: asserting `rst` puts every register at its reset value in one event; a turn of the sequencer while it is
asserted changes nothing (assumption 7); releasing it leaves the reset registers, and a release without `rst` asserted does nothing
(assumption 7). Parameters and input ports go on. So a digital input that changes, and a byte that arrives, between assertion and release:
the baseline is the input's level at the release, and the byte is lost. -/
def Obligations.ResetPinRestoresTheResetRegisters : Prop :=
  ∀ (s : State),
    (nextEvent s = .rstAssert → ∃ t, step s = .next t ∧ ResetRegisters t ∧ t.par = s.par ∧ t.ports = { s.ports with rst := true } ∧
      t.sched = (takeEvent s).sched ∧ t.drawn = (takeEvent s).drawn) ∧
    (nextEvent s = .rstRelease → s.ports.rst = true → ∃ t, step s = .next t ∧ ResetRegisters t ∧ t.par = s.par ∧
      t.ports = { s.ports with rst := false } ∧ t.sched = (takeEvent s).sched ∧ t.drawn = (takeEvent s).drawn) ∧
    (nextEvent s = .rstRelease → s.ports.rst = false → step s = .next (takeEvent s)) ∧
    (nextEvent s = .sequencer → s.ports.rst = true → step s = .next (takeEvent s)) ∧
    (∀ d l b es, s.sched = .rstAssert :: .digital d l :: .rx b :: .sequencer :: .rstRelease :: es →
      ∃ t, Host.Core.run core 5 s = .next t ∧ ResetRegisters t ∧ (t.dig.get d).level = l ∧ t.rxq = [] ∧ t.par = s.par ∧
        t.ports = { s.ports with rst := false, dig1 := t.ports.dig1, dig2 := t.ports.dig2 } ∧ t.sched = es)

/-! ## Tick sequencer (spec/44_tick_scheduler.md) -/

/-- R131, R133: TICK_START loads the budget with the FIFO's occupancy and begins the drain; a DISPATCH step without a complete command only goes
on to the poll of channel 0. -/
def Obligations.TickStartAndEmptyDispatchMoveOn : Prop :=
  ∀ (s : State), nextEvent s = .sequencer → s.ports.rst = false →
    (s.seq.phase = .idle →
      step s = .next { takeEvent s with seq := { s.seq with phase := .drain, budget := s.rxq.length } }) ∧
    (s.seq.phase = .dispatch → s.framer.state ≠ .complete →
      step s = .next { takeEvent s with seq := { s.seq with ch := 0, phase := .poll } })

/-- R132: a DRAIN step feeds the oldest byte while the budget lasts and the framer accepts, a reserved count being answered by NAK in the same
step; otherwise it ends the drain. -/
def Obligations.DrainFeedsOneByteOrEnds : Prop :=
  ∀ (s : State), nextEvent s = .sequencer → s.ports.rst = false → s.seq.phase = .drain →
    (∀ b rest, s.rxq = b :: rest → 0 < s.seq.budget → s.framer.accepts = true →
      ((s.framer.feedByte b).state ≠ .invalid →
        step s = .next { takeEvent s with
          rxq := rest, seq := { s.seq with budget := s.seq.budget - 1 }, framer := s.framer.feedByte b }) ∧
      ((s.framer.feedByte b).state = .invalid →
        step s = .next { takeEvent s with
          rxq := rest, seq := { s.seq with budget := s.seq.budget - 1 }, tx := s.tx ++ [0x3F]
          framer := { s.framer.feedByte b with state := .awaitingOpcode, rem := 0, k := 0 } })) ∧
    ((s.rxq = [] ∨ s.seq.budget = 0 ∨ s.framer.accepts = false) →
      step s = .next { takeEvent s with seq := { s.seq with phase := .dispatch } })

/-- A step runs the decoded instruction. In DISPATCH, when the bytes of the complete command decode to `i`, the step is `exec i` and then the
move to the poll of channel 0 (R133); in DRAIN, when the oldest byte decodes by itself to a PARAM or reserved-count instruction `i`, the step
takes it off RXQ, counts the budget down, and is `exec i` (R132). -/
def Obligations.StepRunsTheDecodedInstruction : Prop :=
  ∀ (s : State) (i : Instr), nextEvent s = .sequencer → s.ports.rst = false →
    (s.seq.phase = .dispatch → s.framer.state = .complete → FramerOk s.framer →
      decode s.par (heldBytes s.framer) = .ok i [] →
      step s = match exec i (takeEvent s) with
        | .next t => .next { t with seq := { t.seq with ch := 0, phase := .poll } }
        | .fault r => .fault r
        | .refused r => .refused r) ∧
    (∀ b rest, s.seq.phase = .drain → s.rxq = b :: rest → 0 < s.seq.budget → s.framer.accepts = true →
      isCommand i = false → decode s.par [b] = .ok i [] →
      step s = exec i { takeEvent s with rxq := rest, seq := { s.seq with budget := s.seq.budget - 1 } })

/-- R134 for a digital channel: the POLL step polls it, emits its blob if it has data, and goes on to the next index. -/
def Obligations.PollStepServesADigitalChannel : Prop :=
  ∀ (s : State) (d : DigId), nextEvent s = .sequencer → s.ports.rst = false → s.seq.phase = .poll →
    s.seq.ch.val = (match d with | .dig1 => 0 | .dig2 => 1) →
    ∃ t, step s = .next t ∧
      t.dig = s.dig.set d ((s.dig.get d).poll (s.ports.digIn d) s.ports.nowUs).chan ∧
      (((s.dig.get d).poll (s.ports.digIn d) s.ports.nowUs).result = .data →
        t.tx = s.tx ++ (encodeBlob (t.dig.get d).count ((t.dig.get d).dir.setWidth 16) ((t.dig.get d).src.setWidth 8) (t.dig.get d).ts).bytes) ∧
      (((s.dig.get d).poll (s.ports.digIn d) s.ports.nowUs).result = .nodata → t.tx = s.tx) ∧
      t.seq = { s.seq with ch := s.seq.ch + 1 } ∧ t.sched = (takeEvent s).sched ∧ t.drawn = (takeEvent s).drawn ∧
      t.ana = s.ana ∧ t.framer = s.framer ∧ t.rxq = s.rxq ∧ t.led = s.led ∧ t.par = s.par ∧
      t.ports =
        { s.ports with
          lastNow := if ((s.dig.get d).poll (s.ports.digIn d) s.ports.nowUs).readsTime then s.ports.nowUs else s.ports.lastNow }

/-- R134 for an analog channel: the POLL step polls it and emits its blob if it has data; a blocked channel holds the sequencer in WaitRelease,
any other passes the turn on, and after index 5 the tick ends. -/
def Obligations.PollStepServesAnAnalogChannel : Prop :=
  ∀ (s : State) (a : AnId), nextEvent s = .sequencer → s.ports.rst = false → s.seq.phase = .poll →
    s.seq.ch.val = (match a with | .an051 => 2 | .an101 => 3 | .an052 => 4 | .an102 => 5) →
    let o := (s.ana.get a).poll (s.ports.anIn a) s.ports.nowUs s.ports.button
    ∃ t, step s = .next t ∧ t.ana = s.ana.set a o.chan ∧
      (o.result = .data →
        t.tx = s.tx ++ (encodeBlob (t.ana.get a).count (t.ana.get a).lastRaw ((t.ana.get a).src.setWidth 8) (t.ana.get a).ts).bytes) ∧
      (o.result ≠ .data → t.tx = s.tx) ∧
      (o.result = .wait → t.seq = { s.seq with phase := .waitRelease }) ∧
      (o.result ≠ .wait → a ≠ .an102 → t.seq.ch.val = s.seq.ch.val + 1 ∧ t.seq.phase = .poll) ∧
      (o.result ≠ .wait → a = .an102 → t.seq.ch = 0 ∧ t.seq.phase = .idle) ∧
      t.seq.budget = s.seq.budget ∧ t.seq.epoch = s.seq.epoch ∧ t.sched = (takeEvent s).sched ∧ t.drawn = (takeEvent s).drawn ∧
      t.dig = s.dig ∧ t.framer = s.framer ∧ t.rxq = s.rxq ∧ t.led = s.led ∧ t.par = s.par ∧
      t.ports = { s.ports with lastNow := if o.readsTime then s.ports.nowUs else s.ports.lastNow }

/-- R135, R108: in WaitRelease the sequencer holds while the button is pressed (a turn changes nothing, assumption 5), and on release takes the
reading, emits its blob and passes the turn on. -/
def Obligations.ButtonReleaseCompletesTheReading : Prop :=
  ∀ (s : State) (a : AnId), nextEvent s = .sequencer → s.ports.rst = false → s.seq.phase = .waitRelease →
    s.seq.ch.val = (match a with | .an051 => 2 | .an101 => 3 | .an052 => 4 | .an102 => 5) →
    (s.ports.button = 1 → step s = .next (takeEvent s)) ∧
    (s.ports.button = 0 → ∃ t, step s = .next t ∧
      t.ana.get a =
        { s.ana.get a with
          lastRaw := s.ports.anIn a
          ts := s.ports.nowUs - (s.ana.get a).base
          nextRead := (s.ana.get a).nextRead + (s.ana.get a).period
          count := (s.ana.get a).count + 1 } ∧
      (∀ a', a' ≠ a → t.ana.get a' = s.ana.get a') ∧
      t.tx = s.tx ++ (encodeBlob (t.ana.get a).count (t.ana.get a).lastRaw ((t.ana.get a).src.setWidth 8) (t.ana.get a).ts).bytes ∧
      (a ≠ .an102 → t.seq.ch.val = s.seq.ch.val + 1 ∧ t.seq.phase = .poll) ∧
      (a = .an102 → t.seq.ch = 0 ∧ t.seq.phase = .idle) ∧
      t.seq.budget = s.seq.budget ∧ t.seq.epoch = s.seq.epoch ∧ t.sched = (takeEvent s).sched ∧ t.drawn = (takeEvent s).drawn ∧
      t.dig = s.dig ∧ t.framer = s.framer ∧ t.rxq = s.rxq ∧ t.led = s.led ∧ t.par = s.par ∧ TimeWasRead s t)

/-- R138 (derived in the spec): however the events of the receive path and of the environment fall between its turns, a tick that begins now with `B`
bytes buffered, and does not enter WaitRelease, has ended by the sequencer's turn `B + 9`: one TICK_START, `B + 1` DRAIN, one DISPATCH and six
POLL steps. -/
def Obligations.TickEndsWithinItsBound : Prop :=
  ∀ (s : State) (n : Nat), nextEvent s = .sequencer → s.ports.rst = false → s.seq.phase = .idle →
    (∀ t ∈ statesOf n s, t.seq.phase ≠ .waitRelease) → s.rxq.length + 9 ≤ (eventsOf n s).count .sequencer →
    ∃ t ∈ statesOf n s, t.seq.phase = .idle

/-- R140 (derived in the spec): from a quiescent state nine turns of the sequencer are one whole empty tick (TICK_START, one DRAIN, DISPATCH, six
POLL), which emits nothing and changes no register but the spent budget; and however the environment moves between the turns, until a byte
arrives or `rst` moves, no number of steps changes more than the sequencer's place, the input ports and the record of events. -/
def Obligations.EmptyTickOfAQuiescentCoreIsSilent : Prop :=
  ∀ (s : State), Quiescent s →
    (s.ports.rst = false → (∀ k < 9, nextEvent (takeEvents k s) = .sequencer) →
      Host.Core.run core 9 s =
        .next { takeEvents 9 s with seq := { phase := .idle, ch := 0, budget := 0, epoch := s.seq.epoch } }) ∧
    (∀ n t, Host.Core.run core n s = .next t → (∀ e ∈ eventsOf n s, isReset e = false ∧ ∀ b, e ≠ .rx b) →
      t = { s with seq := t.seq, ports := t.ports, sched := t.sched, drawn := t.drawn } ∧ t.seq.epoch = s.seq.epoch)

/-! ## Commands (spec/45_commands.md): each answers a next state in every state, with its frame -/

/-- R142 (mask layout D17, what arming keeps D39): ARM arms exactly the channels whose bit is 1; bit 6 selects nothing. -/
def Obligations.ArmStartsTheSelectedChannels : Prop :=
  ∀ (m : Digit) (s : State), ∃ t, exec (.arm m) s = .next t ∧ Answered s t [] 0x21 ∧
    t.dig.dig1 = (if m.getLsbD 0 then { s.dig.dig1 with state := .run } else s.dig.dig1) ∧
    t.dig.dig2 = (if m.getLsbD 1 then { s.dig.dig2 with state := .run } else s.dig.dig2) ∧
    t.ana.an051 = (if m.getLsbD 2 then { s.ana.an051 with state := .armed, tprevValid := false } else s.ana.an051) ∧
    t.ana.an101 = (if m.getLsbD 3 then { s.ana.an101 with state := .armed, tprevValid := false } else s.ana.an101) ∧
    t.ana.an052 = (if m.getLsbD 4 then { s.ana.an052 with state := .armed, tprevValid := false } else s.ana.an052) ∧
    t.ana.an102 = (if m.getLsbD 5 then { s.ana.an102 with state := .armed, tprevValid := false } else s.ana.an102) ∧
    t.seq.epoch = s.seq.epoch ∧ t.led = s.led ∧ t.ports = s.ports

/-- R143: HALT halts all six channels and keeps every other register of theirs. -/
def Obligations.HaltStopsEveryChannel : Prop :=
  ∀ (s : State), ∃ t, exec .halt s = .next t ∧ Answered s t [] 0x21 ∧
    (∀ d, t.dig.get d = { s.dig.get d with state := .halt }) ∧ (∀ a, t.ana.get a = { s.ana.get a with state := .halt }) ∧
    t.seq.epoch = s.seq.epoch ∧ t.led = s.led ∧ t.ports = s.ports

/-- R144 (D34): BLINKLED latches its parameter and pulses `led_strobe`; that the pulses are counted is assumption 10. -/
def Obligations.BlinkledLatchesItsValue : Prop :=
  ∀ (v : Digit) (s : State), ∃ t, exec (.blinkled v) s = .next t ∧ Answered s t [] 0x21 ∧
    t.led = { value := v, strobes := s.led.strobes + 1 } ∧
    t.dig = s.dig ∧ t.ana = s.ana ∧ t.seq.epoch = s.seq.epoch ∧ t.ports = s.ports

/-- R145 to R152 (D32, D33): each immediate read reports its input, whatever the channel's run state, in one blob of sequence 0. -/
def Obligations.ImmediateReadsReportTheirInput : Prop :=
  ∀ (s : State),
    (∃ t, exec .immDig1 s = .next t ∧ ImmediateReply s t (s.ports.dig1.setWidth 16) s.dig.dig1.src) ∧
    (∃ t, exec .immDig2 s = .next t ∧ ImmediateReply s t (s.ports.dig2.setWidth 16) s.dig.dig2.src) ∧
    (∃ t, exec .immAn051 s = .next t ∧ ImmediateReply s t s.ports.an051 s.ana.an051.src) ∧
    (∃ t, exec .immAn101 s = .next t ∧ ImmediateReply s t s.ports.an101 s.ana.an101.src) ∧
    (∃ t, exec .immAn052 s = .next t ∧ ImmediateReply s t s.ports.an052 s.ana.an052.src) ∧
    (∃ t, exec .immAn102 s = .next t ∧ ImmediateReply s t s.ports.an102 s.ana.an102.src) ∧
    (∃ t, exec .immButstate s = .next t ∧ ImmediateReply s t (s.ports.button.setWidth 16) s.par.tags.button)

/-- R64, R153 (the epoch is the present time: D23; the digital sync: D31): MDE_SYNC writes the epoch and synchronises every channel in one step;
a time of exactly 0 aligns no base (R196). -/
def Obligations.SyncAlignsEveryChannelAtOnce : Prop :=
  ∀ (s : State), ∃ t, exec .mdeSync s = .next t ∧ Answered s t [] 0x21 ∧ t.seq.epoch = s.ports.nowUs ∧
    (∀ a, t.ana.get a =
      { s.ana.get a with
        count := 0, ts := 0, state := .halt, base := if s.ports.nowUs = 0 then (s.ana.get a).base else s.ports.nowUs }) ∧
    (∀ d, t.dig.get d =
      { s.dig.get d with
        count := 0, ts := 0, state := .halt
        base := if s.ports.nowUs = 0 then (s.dig.get d).base else s.ports.nowUs
        prevMatch := if s.ports.nowUs = 0 then (s.dig.get d).base else s.ports.nowUs }) ∧
    t.led = s.led ∧ TimeWasRead s t

/-- R154, R112 (all four channels: D18; resync to the epoch: D23): a code with an entry sets every analog period and resynchronises; a code with
none is NAKed and changes nothing. -/
def Obligations.SampleTimeSetsTheTableEntry : Prop :=
  ∀ (c : Digit) (s : State), s.par.wf = true →
    (∀ period, (c, period) ∈ s.par.rates → ∃ t, exec (.mdeAsamptime c) s = .next t ∧ Answered s t [] 0x21 ∧
      (∀ a, t.ana.get a =
        { s.ana.get a with
          period := period, count := 0, ts := 0, state := .halt
          base := if s.seq.epoch = 0 then (s.ana.get a).base else s.seq.epoch }) ∧
      t.dig = s.dig ∧ t.seq.epoch = s.seq.epoch ∧ t.led = s.led ∧ t.ports = s.ports) ∧
    ((∀ r ∈ s.par.rates, r.1 ≠ c) → exec (.mdeAsamptime c) s = .next (rejected s))

/-- R155 (D18, D21): MDE_ASTOP sets every analog stop count to p1 + 128 p2 and changes no run state. -/
def Obligations.StopCountIsSetOnEveryAnalogChannel : Prop :=
  ∀ (p1 p2 : Digit) (s : State), ∃ t, exec (.mdeAstop (composeDigits p1 p2)) s = .next t ∧ Answered s t [] 0x21 ∧
    (∀ a, (t.ana.get a).stop.toNat = p1.toNat + 128 * p2.toNat ∧ t.ana.get a = { s.ana.get a with stop := (t.ana.get a).stop }) ∧
    t.dig = s.dig ∧ t.seq.epoch = s.seq.epoch ∧ t.led = s.led ∧ t.ports = s.ports

/-- R156, R113 (D18, D19, D20): MDE_ATRIG sets condition and threshold, 8 times its second parameter, and halts every analog channel; a condition
code of 3 or more is NAKed and changes nothing (C5). -/
def Obligations.AnalogTriggerIsSetOrRejected : Prop :=
  ∀ (k p : Digit) (s : State),
    (∀ cond, ((k = 0 ∧ cond = .immediate) ∨ (k = 1 ∧ cond = .riseAbove) ∨ (k = 2 ∧ cond = .fallBelow)) →
      ∃ t, exec (.mdeAtrig k p) s = .next t ∧ Answered s t [] 0x21 ∧
        (∀ a, (t.ana.get a).thr.toNat = 8 * p.toNat ∧
          t.ana.get a = { s.ana.get a with cond := cond, thr := (t.ana.get a).thr, state := .halt }) ∧
        t.dig = s.dig ∧ t.seq.epoch = s.seq.epoch ∧ t.led = s.led ∧ t.ports = s.ports) ∧
    (3 ≤ k.toNat → exec (.mdeAtrig k p) s = .next (rejected s))

/-- R157, R124 (D18, D20, D23): MDE_DTRIG sets the mode, halts, samples the baseline and resynchronises both digital channels; a mode code of 3 or
more is NAKed and changes nothing (C5). -/
def Obligations.DigitalTriggerIsSetOrRejected : Prop :=
  ∀ (e : Digit) (s : State),
    (∀ mode, ((e = 0 ∧ mode = .any) ∨ (e = 1 ∧ mode = .risingOnly) ∨ (e = 2 ∧ mode = .fallingOnly)) →
      ∃ t, exec (.mdeDtrig e) s = .next t ∧ Answered s t [] 0x21 ∧
        (∀ d, t.dig.get d =
          { s.dig.get d with
            state := .halt, mode := mode, level := s.ports.digIn d, count := 0, ts := 0
            base := if s.seq.epoch = 0 then (s.dig.get d).base else s.seq.epoch
            prevMatch := if s.seq.epoch = 0 then (s.dig.get d).base else s.seq.epoch }) ∧
        t.ana = s.ana ∧ t.seq.epoch = s.seq.epoch ∧ t.led = s.led ∧ t.ports = s.ports) ∧
    (3 ≤ e.toNat → exec (.mdeDtrig e) s = .next (rejected s))

/-- R158, R5 (selector and text: D35): the status commands emit the drawn text, lines of printable ASCII each ended by 0x0A, then ACK, and change no
register; a selector of 5 or more is NAKed and changes nothing. -/
def Obligations.StatusCommandsEmitTheText : Prop :=
  ∀ (n : Digit) (s : State),
    (∃ t, exec .stVers s = .next t ∧ t = { s with tx := t.tx, framer := t.framer } ∧ Answered s t (statusBytes s.ports.status) 0x21) ∧
    (1 ≤ n.toNat → n.toNat ≤ 4 →
      ∃ t, exec (.stAnalog n) s = .next t ∧ t = { s with tx := t.tx, framer := t.framer } ∧
        Answered s t (statusBytes s.ports.status) 0x21) ∧
    (5 ≤ n.toNat → exec (.stAnalog n) s = .next (rejected s))

/-- R5, R158: the bytes of every status text are printable ASCII or 0x0A, and the last is 0x0A; so none has bit 7 set. -/
def Obligations.StatusTextStaysInItsAlphabet : Prop :=
  ∀ (x : StatusText), (∀ b ∈ statusBytes x, b = 0x0A ∨ (0x20 ≤ b.toNat ∧ b.toNat ≤ 0x7E)) ∧ (statusBytes x).getLast? = some 0x0A

/-- R83, R84, as the instruction PARAM: a parameter byte fills the next slot of a collecting framer and changes nothing else, and is a stray,
which changes nothing at all, where the framer awaits an opcode. -/
def Obligations.ParamFillsTheNextSlotOrIsAStray : Prop :=
  ∀ (v : Digit) (s : State),
    (s.framer.state = .collecting → s.framer.k = 0 →
      exec (.param v) s =
        .next { s with framer := { s.framer with
          p1 := v, k := 1, rem := s.framer.rem - 1, state := if s.framer.rem = 1 then .complete else .collecting } }) ∧
    (s.framer.state = .collecting → s.framer.k ≠ 0 →
      exec (.param v) s =
        .next { s with framer := { s.framer with
          p2 := v, k := s.framer.k + 1, rem := s.framer.rem - 1
          state := if s.framer.rem = 1 then .complete else .collecting } }) ∧
    (s.framer.state = .awaitingOpcode → exec (.param v) s = .next s)

/-- R76, R82, R132: an opcode byte whose count is 3 is latched and NAKed at once, whatever its function code, with no other register changed.
R77 (D13, D14): an unknown opcode is NAKed and has no other effect. -/
def Obligations.ReservedAndUnknownOpcodesAreRejected : Prop :=
  ∀ (fc : BitVec 5) (ps : List Digit) (s : State),
    ((s.framer.state = .awaitingOpcode ∨ s.framer.state = .collecting) → ∃ op : Byte, op.toNat = 131 + 4 * fc.toNat ∧
      exec (.reservedN3 fc) s =
        .next { s with
          tx := s.tx ++ [0x3F]
          framer := { s.framer with op := op, state := .awaitingOpcode, rem := 0, k := 0 } }) ∧
    exec (.unknown fc ps) s = .next (rejected s)

/-- R81 (D6), with assumption 13: where the framer is Complete or Invalid it takes no byte, and the byte classes leave the whole state as it
is. -/
def Obligations.NoByteIsTakenOutsideTheAcceptingStates : Prop :=
  ∀ (v : Digit) (fc : BitVec 5) (s : State), (s.framer.state = .complete ∨ s.framer.state = .invalid) →
    exec (.param v) s = .next s ∧ exec (.reservedN3 fc) s = .next s

/-! ## Protocol errors over all instructions (spec/60_exceptions.md) -/

/-- R133, R159, R163, R165: every command answers with exactly one final byte, ACK when it meets no reported cause and NAK when it meets one; and a
command that meets one changes nothing outside the framer and TX. -/
def Obligations.EveryCommandIsAnsweredOnce : Prop :=
  ∀ (i : Instr) (s : State), isCommand i = true →
    (causeOf s.par i = none → ∃ t body, exec i s = .next t ∧ Answered s t body 0x21 ∧ IsBody body) ∧
    (causeOf s.par i ≠ none → exec i s = .next (rejected s))

/-- R65, R133: no instruction touches RXQ, the parameters, the tick's phase, channel or budget, nor any input. -/
def Obligations.NoInstructionTouchesQueueOrTick : Prop :=
  ∀ (i : Instr) (s t : State), exec i s = .next t →
    t.rxq = s.rxq ∧ t.par = s.par ∧ t.seq = { s.seq with epoch := t.seq.epoch } ∧ t.sched = s.sched ∧ t.drawn = s.drawn ∧
      t.ports = { s.ports with lastNow := t.ports.lastNow }

/-- R190 (derived in the spec): which instructions leave every channel's run state as it is. -/
def Obligations.RunStateIsKeptByTheOtherCommands : Prop :=
  ∀ (i : Instr) (s t : State), exec i s = .next t →
    ((∃ a, (t.ana.get a).state ≠ (s.ana.get a).state) →
      (∃ m, i = .arm m) ∨ i = .halt ∨ i = .mdeSync ∨ (∃ c, i = .mdeAsamptime c) ∨ (∃ k p, i = .mdeAtrig k p)) ∧
    ((∃ d, (t.dig.get d).state ≠ (s.dig.get d).state) →
      (∃ m, i = .arm m) ∨ i = .halt ∨ i = .mdeSync ∨ (∃ e, i = .mdeDtrig e))

/-! ## Whole-machine rules -/

/-- R184: no step of any agent changes a parameter, and no step changes a source tag that is the parameter's (R33, R43). -/
def Obligations.ParametersAreConstant : Prop :=
  ∀ (s t : State), step s = .next t → t.par = s.par ∧
    (∀ a, (s.ana.get a).src = s.par.tags.analog a → (t.ana.get a).src = s.par.tags.analog a) ∧
    (∀ d, (s.dig.get d).src = s.par.tags.digital d → (t.dig.get d).src = s.par.tags.digital d)

/-- R19: but for reset, only the dispatch of MDE_SYNC writes the shared epoch. -/
def Obligations.OnlySyncWritesTheEpoch : Prop :=
  ∀ (s t : State), step s = .next t → isReset (nextEvent s) = false → t.seq.epoch ≠ s.seq.epoch →
    nextEvent s = .sequencer ∧ s.seq.phase = .dispatch ∧ dispatchInstr s = some .mdeSync

/-- R2, R44: but for reset, the configuration registers of the channels and the LED register are written only by the dispatch of a completed
configuration command. -/
def Obligations.OnlyCommandsWriteConfiguration : Prop :=
  ∀ (s t : State), step s = .next t → isReset (nextEvent s) = false → ¬ SameConfiguration s t →
    nextEvent s = .sequencer ∧ s.seq.phase = .dispatch ∧ ∃ i, dispatchInstr s = some i ∧ writesConfiguration i = true

/-- R89, with reset as R180 says: a complete command is left only by the DISPATCH step that answers it, which emits a last byte ACK or NAK. -/
def Obligations.CompleteIsLeftOnlyByAReply : Prop :=
  ∀ (s t : State), step s = .next t → isReset (nextEvent s) = false → s.framer.state = .complete → t.framer ≠ s.framer →
    nextEvent s = .sequencer ∧ s.seq.phase = .dispatch ∧ t.framer.state = .awaitingOpcode ∧
      (t.tx.getLast? = some 0x21 ∨ t.tx.getLast? = some 0x3F)

/-- The invariant of the core holds at reset, for every parameter assignment and every input. -/
def Obligations.ResetMeetsTheInvariant : Prop :=
  CoreInv State.reset

/-- Every step of every agent, from any state that meets the invariant, leads to one that meets it (R93, R132, R20, R17, R4, R172). -/
def Obligations.StepKeepsTheInvariant : Prop :=
  ∀ (s t : State), CoreInv s → step s = .next t → CoreInv t

/-- R140: from any state that meets the invariant, the core never stops: every step, whichever agent takes it, answers a next state. -/
def Obligations.CoreNeverStops : Prop :=
  ∀ (s : State), CoreInv s → ∃ t, step s = .next t

/-- R139 (D41), by the model's own order of events (assumptions 3 and 20): from every state the sequencer's next turn comes after at most as many
steps as events are due before it, which leave its registers alone unless `rst` is asserted or released; where it stood in Idle, and `rst` is
released when the turn comes, that turn is TICK_START. -/
def Obligations.TickStartIsEventuallyTaken : Prop :=
  ∀ (s : State), ∃ n t, n ≤ s.sched.length ∧ Host.Core.run core n s = .next t ∧ nextEvent t = .sequencer ∧
    ((∀ e ∈ eventsOf n s, isReset e = false) → t.seq = s.seq ∧ t.ports.rst = s.ports.rst) ∧
    (s.seq.phase = .idle → t.seq.phase = .idle ∧
      (t.ports.rst = false → ∃ u, step t = .next u ∧ u.seq = { t.seq with phase := .drain, budget := t.rxq.length }))
end

