-- ==== Sys2Proof/Laws/State.lean ====
section
/-! SUPPORT. One lemma for each field and each update of the state, and the laws of the channel banks. -/

namespace Sys2Proof.Machine

variable (s : State)

/-! ### `withFramer` -/

@[simp] theorem State.withFramer_par (x : Framer) : (s.withFramer x).par = s.par := rfl
@[simp] theorem State.withFramer_framer (x : Framer) : (s.withFramer x).framer = x := rfl
@[simp] theorem State.withFramer_seq (x : Framer) : (s.withFramer x).seq = s.seq := rfl
@[simp] theorem State.withFramer_rxq (x : Framer) : (s.withFramer x).rxq = s.rxq := rfl
@[simp] theorem State.withFramer_led (x : Framer) : (s.withFramer x).led = s.led := rfl
@[simp] theorem State.withFramer_ana (x : Framer) : (s.withFramer x).ana = s.ana := rfl
@[simp] theorem State.withFramer_dig (x : Framer) : (s.withFramer x).dig = s.dig := rfl
@[simp] theorem State.withFramer_tx (x : Framer) : (s.withFramer x).tx = s.tx := rfl
@[simp] theorem State.withFramer_ports (x : Framer) : (s.withFramer x).ports = s.ports := rfl
@[simp] theorem State.withFramer_sched (x : Framer) : (s.withFramer x).sched = s.sched := rfl
@[simp] theorem State.withFramer_drawn (x : Framer) : (s.withFramer x).drawn = s.drawn := rfl

/-! ### `withSeq` -/

@[simp] theorem State.withSeq_par (x : Sequencer) : (s.withSeq x).par = s.par := rfl
@[simp] theorem State.withSeq_framer (x : Sequencer) : (s.withSeq x).framer = s.framer := rfl
@[simp] theorem State.withSeq_seq (x : Sequencer) : (s.withSeq x).seq = x := rfl
@[simp] theorem State.withSeq_rxq (x : Sequencer) : (s.withSeq x).rxq = s.rxq := rfl
@[simp] theorem State.withSeq_led (x : Sequencer) : (s.withSeq x).led = s.led := rfl
@[simp] theorem State.withSeq_ana (x : Sequencer) : (s.withSeq x).ana = s.ana := rfl
@[simp] theorem State.withSeq_dig (x : Sequencer) : (s.withSeq x).dig = s.dig := rfl
@[simp] theorem State.withSeq_tx (x : Sequencer) : (s.withSeq x).tx = s.tx := rfl
@[simp] theorem State.withSeq_ports (x : Sequencer) : (s.withSeq x).ports = s.ports := rfl
@[simp] theorem State.withSeq_sched (x : Sequencer) : (s.withSeq x).sched = s.sched := rfl
@[simp] theorem State.withSeq_drawn (x : Sequencer) : (s.withSeq x).drawn = s.drawn := rfl

/-! ### `withRxq` -/

@[simp] theorem State.withRxq_par (x : List Byte) : (s.withRxq x).par = s.par := rfl
@[simp] theorem State.withRxq_framer (x : List Byte) : (s.withRxq x).framer = s.framer := rfl
@[simp] theorem State.withRxq_seq (x : List Byte) : (s.withRxq x).seq = s.seq := rfl
@[simp] theorem State.withRxq_rxq (x : List Byte) : (s.withRxq x).rxq = x := rfl
@[simp] theorem State.withRxq_led (x : List Byte) : (s.withRxq x).led = s.led := rfl
@[simp] theorem State.withRxq_ana (x : List Byte) : (s.withRxq x).ana = s.ana := rfl
@[simp] theorem State.withRxq_dig (x : List Byte) : (s.withRxq x).dig = s.dig := rfl
@[simp] theorem State.withRxq_tx (x : List Byte) : (s.withRxq x).tx = s.tx := rfl
@[simp] theorem State.withRxq_ports (x : List Byte) : (s.withRxq x).ports = s.ports := rfl
@[simp] theorem State.withRxq_sched (x : List Byte) : (s.withRxq x).sched = s.sched := rfl
@[simp] theorem State.withRxq_drawn (x : List Byte) : (s.withRxq x).drawn = s.drawn := rfl

/-! ### `withLed` -/

@[simp] theorem State.withLed_par (x : Led) : (s.withLed x).par = s.par := rfl
@[simp] theorem State.withLed_framer (x : Led) : (s.withLed x).framer = s.framer := rfl
@[simp] theorem State.withLed_seq (x : Led) : (s.withLed x).seq = s.seq := rfl
@[simp] theorem State.withLed_rxq (x : Led) : (s.withLed x).rxq = s.rxq := rfl
@[simp] theorem State.withLed_led (x : Led) : (s.withLed x).led = x := rfl
@[simp] theorem State.withLed_ana (x : Led) : (s.withLed x).ana = s.ana := rfl
@[simp] theorem State.withLed_dig (x : Led) : (s.withLed x).dig = s.dig := rfl
@[simp] theorem State.withLed_tx (x : Led) : (s.withLed x).tx = s.tx := rfl
@[simp] theorem State.withLed_ports (x : Led) : (s.withLed x).ports = s.ports := rfl
@[simp] theorem State.withLed_sched (x : Led) : (s.withLed x).sched = s.sched := rfl
@[simp] theorem State.withLed_drawn (x : Led) : (s.withLed x).drawn = s.drawn := rfl

/-! ### `withAna` -/

@[simp] theorem State.withAna_par (x : AnalogBank) : (s.withAna x).par = s.par := rfl
@[simp] theorem State.withAna_framer (x : AnalogBank) : (s.withAna x).framer = s.framer := rfl
@[simp] theorem State.withAna_seq (x : AnalogBank) : (s.withAna x).seq = s.seq := rfl
@[simp] theorem State.withAna_rxq (x : AnalogBank) : (s.withAna x).rxq = s.rxq := rfl
@[simp] theorem State.withAna_led (x : AnalogBank) : (s.withAna x).led = s.led := rfl
@[simp] theorem State.withAna_ana (x : AnalogBank) : (s.withAna x).ana = x := rfl
@[simp] theorem State.withAna_dig (x : AnalogBank) : (s.withAna x).dig = s.dig := rfl
@[simp] theorem State.withAna_tx (x : AnalogBank) : (s.withAna x).tx = s.tx := rfl
@[simp] theorem State.withAna_ports (x : AnalogBank) : (s.withAna x).ports = s.ports := rfl
@[simp] theorem State.withAna_sched (x : AnalogBank) : (s.withAna x).sched = s.sched := rfl
@[simp] theorem State.withAna_drawn (x : AnalogBank) : (s.withAna x).drawn = s.drawn := rfl

/-! ### `withDig` -/

@[simp] theorem State.withDig_par (x : DigitalBank) : (s.withDig x).par = s.par := rfl
@[simp] theorem State.withDig_framer (x : DigitalBank) : (s.withDig x).framer = s.framer := rfl
@[simp] theorem State.withDig_seq (x : DigitalBank) : (s.withDig x).seq = s.seq := rfl
@[simp] theorem State.withDig_rxq (x : DigitalBank) : (s.withDig x).rxq = s.rxq := rfl
@[simp] theorem State.withDig_led (x : DigitalBank) : (s.withDig x).led = s.led := rfl
@[simp] theorem State.withDig_ana (x : DigitalBank) : (s.withDig x).ana = s.ana := rfl
@[simp] theorem State.withDig_dig (x : DigitalBank) : (s.withDig x).dig = x := rfl
@[simp] theorem State.withDig_tx (x : DigitalBank) : (s.withDig x).tx = s.tx := rfl
@[simp] theorem State.withDig_ports (x : DigitalBank) : (s.withDig x).ports = s.ports := rfl
@[simp] theorem State.withDig_sched (x : DigitalBank) : (s.withDig x).sched = s.sched := rfl
@[simp] theorem State.withDig_drawn (x : DigitalBank) : (s.withDig x).drawn = s.drawn := rfl

/-! ### `withTx` -/

@[simp] theorem State.withTx_par (x : List Byte) : (s.withTx x).par = s.par := rfl
@[simp] theorem State.withTx_framer (x : List Byte) : (s.withTx x).framer = s.framer := rfl
@[simp] theorem State.withTx_seq (x : List Byte) : (s.withTx x).seq = s.seq := rfl
@[simp] theorem State.withTx_rxq (x : List Byte) : (s.withTx x).rxq = s.rxq := rfl
@[simp] theorem State.withTx_led (x : List Byte) : (s.withTx x).led = s.led := rfl
@[simp] theorem State.withTx_ana (x : List Byte) : (s.withTx x).ana = s.ana := rfl
@[simp] theorem State.withTx_dig (x : List Byte) : (s.withTx x).dig = s.dig := rfl
@[simp] theorem State.withTx_tx (x : List Byte) : (s.withTx x).tx = x := rfl
@[simp] theorem State.withTx_ports (x : List Byte) : (s.withTx x).ports = s.ports := rfl
@[simp] theorem State.withTx_sched (x : List Byte) : (s.withTx x).sched = s.sched := rfl
@[simp] theorem State.withTx_drawn (x : List Byte) : (s.withTx x).drawn = s.drawn := rfl

/-! ### `withPorts` -/

@[simp] theorem State.withPorts_par (x : Ports) : (s.withPorts x).par = s.par := rfl
@[simp] theorem State.withPorts_framer (x : Ports) : (s.withPorts x).framer = s.framer := rfl
@[simp] theorem State.withPorts_seq (x : Ports) : (s.withPorts x).seq = s.seq := rfl
@[simp] theorem State.withPorts_rxq (x : Ports) : (s.withPorts x).rxq = s.rxq := rfl
@[simp] theorem State.withPorts_led (x : Ports) : (s.withPorts x).led = s.led := rfl
@[simp] theorem State.withPorts_ana (x : Ports) : (s.withPorts x).ana = s.ana := rfl
@[simp] theorem State.withPorts_dig (x : Ports) : (s.withPorts x).dig = s.dig := rfl
@[simp] theorem State.withPorts_tx (x : Ports) : (s.withPorts x).tx = s.tx := rfl
@[simp] theorem State.withPorts_ports (x : Ports) : (s.withPorts x).ports = x := rfl
@[simp] theorem State.withPorts_sched (x : Ports) : (s.withPorts x).sched = s.sched := rfl
@[simp] theorem State.withPorts_drawn (x : Ports) : (s.withPorts x).drawn = s.drawn := rfl

/-! ### `withSched` -/

@[simp] theorem State.withSched_par (x : List Event) : (s.withSched x).par = s.par := rfl
@[simp] theorem State.withSched_framer (x : List Event) : (s.withSched x).framer = s.framer := rfl
@[simp] theorem State.withSched_seq (x : List Event) : (s.withSched x).seq = s.seq := rfl
@[simp] theorem State.withSched_rxq (x : List Event) : (s.withSched x).rxq = s.rxq := rfl
@[simp] theorem State.withSched_led (x : List Event) : (s.withSched x).led = s.led := rfl
@[simp] theorem State.withSched_ana (x : List Event) : (s.withSched x).ana = s.ana := rfl
@[simp] theorem State.withSched_dig (x : List Event) : (s.withSched x).dig = s.dig := rfl
@[simp] theorem State.withSched_tx (x : List Event) : (s.withSched x).tx = s.tx := rfl
@[simp] theorem State.withSched_ports (x : List Event) : (s.withSched x).ports = s.ports := rfl
@[simp] theorem State.withSched_sched (x : List Event) : (s.withSched x).sched = x := rfl
@[simp] theorem State.withSched_drawn (x : List Event) : (s.withSched x).drawn = s.drawn := rfl

/-! ### `withDrawn` -/

@[simp] theorem State.withDrawn_par (x : Nat) : (s.withDrawn x).par = s.par := rfl
@[simp] theorem State.withDrawn_framer (x : Nat) : (s.withDrawn x).framer = s.framer := rfl
@[simp] theorem State.withDrawn_seq (x : Nat) : (s.withDrawn x).seq = s.seq := rfl
@[simp] theorem State.withDrawn_rxq (x : Nat) : (s.withDrawn x).rxq = s.rxq := rfl
@[simp] theorem State.withDrawn_led (x : Nat) : (s.withDrawn x).led = s.led := rfl
@[simp] theorem State.withDrawn_ana (x : Nat) : (s.withDrawn x).ana = s.ana := rfl
@[simp] theorem State.withDrawn_dig (x : Nat) : (s.withDrawn x).dig = s.dig := rfl
@[simp] theorem State.withDrawn_tx (x : Nat) : (s.withDrawn x).tx = s.tx := rfl
@[simp] theorem State.withDrawn_ports (x : Nat) : (s.withDrawn x).ports = s.ports := rfl
@[simp] theorem State.withDrawn_sched (x : Nat) : (s.withDrawn x).sched = s.sched := rfl
@[simp] theorem State.withDrawn_drawn (x : Nat) : (s.withDrawn x).drawn = x := rfl

/-! ### Channel banks -/

@[simp] theorem AnalogBank.get_mapAll (f : AnId → AnalogChannel → AnalogChannel) (b : AnalogBank) (a : AnId) :
    (b.mapAll f).get a = f a (b.get a) := by cases a <;> rfl

@[simp] theorem DigitalBank.get_mapAll (f : DigId → DigitalChannel → DigitalChannel) (b : DigitalBank) (d : DigId) :
    (b.mapAll f).get d = f d (b.get d) := by cases d <;> rfl

theorem AnalogBank.get_set (b : AnalogBank) (a a' : AnId) (c : AnalogChannel) :
    (b.set a c).get a' = if a' = a then c else b.get a' := by cases a <;> cases a' <;> rfl

theorem DigitalBank.get_set (b : DigitalBank) (d d' : DigId) (c : DigitalChannel) :
    (b.set d c).get d' = if d' = d then c else b.get d' := by cases d <;> cases d' <;> rfl

@[simp] theorem AnalogBank.get_set_same (b : AnalogBank) (a : AnId) (c : AnalogChannel) : (b.set a c).get a = c := by
  simp [AnalogBank.get_set]

@[simp] theorem DigitalBank.get_set_same (b : DigitalBank) (d : DigId) (c : DigitalChannel) : (b.set d c).get d = c := by
  simp [DigitalBank.get_set]

/-- Writing back what is there changes nothing. -/
@[simp] theorem AnalogBank.set_get (b : AnalogBank) (a : AnId) : b.set a (b.get a) = b := by cases a <;> rfl

/-- Writing back what is there changes nothing. -/
@[simp] theorem DigitalBank.set_get (b : DigitalBank) (d : DigId) : b.set d (b.get d) = b := by cases d <;> rfl

/-- Two analog banks with the same channels are the same. -/
theorem AnalogBank.ext_get (b c : AnalogBank) (h : ∀ a, b.get a = c.get a) : b = c := by
  obtain ⟨_, _, _, _⟩ := b
  obtain ⟨_, _, _, _⟩ := c
  simpa [AnalogBank.get] using And.intro (h .an051) (And.intro (h .an101) (And.intro (h .an052) (h .an102)))

/-- Two digital banks with the same channels are the same. -/
theorem DigitalBank.ext_get (b c : DigitalBank) (h : ∀ d, b.get d = c.get d) : b = c := by
  obtain ⟨_, _⟩ := b
  obtain ⟨_, _⟩ := c
  simpa [DigitalBank.get] using And.intro (h .dig1) (h .dig2)

end Sys2Proof.Machine
end

