-- ==== Sys2Proof/Laws/Channels.lean ====
section
/-! SUPPORT. What polling a channel can do: one inversion lemma for each kind, and what a poll never writes. -/

namespace Sys2Proof.Machine

/-! ## Analog -/

theorem timeReached_iff (t x : Micros) : timeReached t x = true ↔ (t - x).toNat < 2 ^ 31 := by
  simp [timeReached, BitVec.ult]

theorem AnalogChannel.stopReached_iff (c : AnalogChannel) :
    c.stopReached = true ↔ c.stop ≠ 0 ∧ c.stop.toNat ≤ c.count.toNat := by
  have h : c.stop.toNat < 2 ^ 14 := c.stop.isLt
  simp only [AnalogChannel.stopReached, Bool.and_eq_true, bne_iff_ne, ne_eq, BitVec.ule, BitVec.toNat_setWidth, decide_eq_true_eq]
  rw [Nat.mod_eq_of_lt (by omega)]

/-- Trigger evaluation writes the trigger history alone (R105). -/
theorem AnalogChannel.evalTrigger_chan (c : AnalogChannel) (r : Raw) :
    (c.evalTrigger r).2 = { c with tprev := (c.evalTrigger r).2.tprev, tprevValid := (c.evalTrigger r).2.tprevValid } := by
  unfold AnalogChannel.evalTrigger
  split <;> rfl

/-- Everything a poll of an analog channel can do (R102 to R109). -/
theorem AnalogChannel.poll_cases (c : AnalogChannel) (r : Raw) (t : Micros) (b : Bit) :
    (c.state = .halt ∧ c.poll r t b = { result := .nodata, chan := c, readsTime := false }) ∨
    (c.state = .armed ∧ (c.evalTrigger r).1 = true ∧
      c.poll r t b =
        { result := .nodata, chan := { (c.evalTrigger r).2 with state := .run, nextRead := t + c.period }, readsTime := true }) ∨
    (c.state = .armed ∧ (c.evalTrigger r).1 = false ∧
      c.poll r t b = { result := .nodata, chan := (c.evalTrigger r).2, readsTime := false }) ∨
    (c.state = .run ∧ c.stopReached = true ∧
      c.poll r t b = { result := .nodata, chan := { c with state := .halt }, readsTime := false }) ∨
    (c.state = .run ∧ c.stopReached = false ∧ c.period = 0 ∧ b = 1 ∧
      c.poll r t b = { result := .wait, chan := c, readsTime := false }) ∨
    (c.state = .run ∧ c.stopReached = false ∧ c.period = 0 ∧ b ≠ 1 ∧
      c.poll r t b = { result := .nodata, chan := c, readsTime := false }) ∨
    (c.state = .run ∧ c.stopReached = false ∧ c.period ≠ 0 ∧ timeReached t c.nextRead = true ∧
      c.poll r t b = { result := .data, chan := c.takeReading r t, readsTime := true }) ∨
    (c.state = .run ∧ c.stopReached = false ∧ c.period ≠ 0 ∧ timeReached t c.nextRead = false ∧
      c.poll r t b = { result := .nodata, chan := c, readsTime := true }) := by
  have hp : (c.evalTrigger r).2.period = c.period := by rw [c.evalTrigger_chan r]
  cases hs : c.state with
  | halt => exact .inl ⟨rfl, by simp [AnalogChannel.poll, hs]⟩
  | armed =>
    cases hh : (c.evalTrigger r).1 with
    | true => exact .inr (.inl ⟨rfl, rfl, by simp [AnalogChannel.poll, hs, AnalogChannel.armedStep, hh, hp]⟩)
    | false => exact .inr (.inr (.inl ⟨rfl, rfl, by simp [AnalogChannel.poll, hs, AnalogChannel.armedStep, hh]⟩))
  | run =>
    cases hstop : c.stopReached with
    | true => exact .inr (.inr (.inr (.inl ⟨rfl, rfl, by simp [AnalogChannel.poll, hs, hstop]⟩)))
    | false =>
      by_cases hz : c.period = 0
      · by_cases hb : b = 1
        · exact .inr (.inr (.inr (.inr (.inl ⟨rfl, rfl, hz, hb, by
            simp [AnalogChannel.poll, hs, hstop, hz, AnalogChannel.buttonStep, hb]⟩))))
        · exact .inr (.inr (.inr (.inr (.inr (.inl ⟨rfl, rfl, hz, hb, by
            simp [AnalogChannel.poll, hs, hstop, hz, AnalogChannel.buttonStep]; simpa using hb⟩)))))
      · cases ht : timeReached t c.nextRead with
        | true => exact .inr (.inr (.inr (.inr (.inr (.inr (.inl ⟨rfl, rfl, hz, rfl, by
            simp only [AnalogChannel.poll, hs, hstop, if_neg hz, AnalogChannel.periodicStep, ht]; rfl⟩))))))
        | false => exact .inr (.inr (.inr (.inr (.inr (.inr (.inr ⟨rfl, rfl, hz, rfl, by
            simp only [AnalogChannel.poll, hs, hstop, if_neg hz, AnalogChannel.periodicStep, ht]; rfl⟩))))))

/-- A poll never writes configuration, base or tag (R2, R44, R33). -/
theorem AnalogChannel.poll_config (c : AnalogChannel) (r : Raw) (t : Micros) (b : Bit) :
    (c.poll r t b).chan.period = c.period ∧ (c.poll r t b).chan.cond = c.cond ∧ (c.poll r t b).chan.thr = c.thr ∧
      (c.poll r t b).chan.stop = c.stop ∧ (c.poll r t b).chan.base = c.base ∧ (c.poll r t b).chan.src = c.src := by
  have h := c.evalTrigger_chan r
  rcases c.poll_cases r t b with ⟨_, e⟩ | ⟨_, _, e⟩ | ⟨_, _, e⟩ | ⟨_, _, e⟩ | ⟨_, _, _, _, e⟩ | ⟨_, _, _, _, e⟩ | ⟨_, _, _, _, e⟩ |
    ⟨_, _, _, _, e⟩ <;> rw [e] <;> first | exact ⟨rfl, rfl, rfl, rfl, rfl, rfl⟩ | (rw [h]; exact ⟨rfl, rfl, rfl, rfl, rfl, rfl⟩)

/-- A blocked poll is one of a running button-gated channel below its stop count, and leaves the channel as it is (R107). -/
theorem AnalogChannel.poll_wait {c : AnalogChannel} {r : Raw} {t : Micros} {b : Bit} (h : (c.poll r t b).result = .wait) :
    c.state = .run ∧ c.period = 0 ∧ c.stopReached = false ∧ b = 1 ∧ (c.poll r t b).chan = c := by
  rcases c.poll_cases r t b with ⟨_, e⟩ | ⟨_, _, e⟩ | ⟨_, _, e⟩ | ⟨_, _, e⟩ | ⟨hs, hst, hz, hb, e⟩ | ⟨_, _, _, _, e⟩ |
    ⟨_, _, _, _, e⟩ | ⟨_, _, _, _, e⟩
  all_goals rw [e] at h
  case inr.inr.inr.inr.inl => exact ⟨hs, hz, hst, hb, by rw [e]⟩
  all_goals cases h

/-! ## Digital -/

/-- Everything a poll of a digital channel can do (R122). -/
theorem DigitalChannel.poll_cases (c : DigitalChannel) (l : Bit) (t : Micros) :
    (c.state = .halt ∧ c.poll l t = { result := .nodata, chan := c, readsTime := false }) ∨
    (c.state = .run ∧ l = c.level ∧ c.poll l t = { result := .nodata, chan := c, readsTime := false }) ∨
    (c.state = .run ∧ l ≠ c.level ∧ c.mode.matchesEdge l = true ∧
      c.poll l t =
        { result := .data
          chan :=
            { c with level := l, count := c.count + 1, delta := t - c.prevMatch, prevMatch := t, ts := t - c.base, dir := l }
          readsTime := true }) ∨
    (c.state = .run ∧ l ≠ c.level ∧ c.mode.matchesEdge l = false ∧
      c.poll l t = { result := .nodata, chan := { c with level := l }, readsTime := false }) := by
  cases hs : c.state with
  | halt => exact .inl ⟨rfl, by simp [DigitalChannel.poll, hs]⟩
  | run =>
    by_cases hl : l = c.level
    · exact .inr (.inl ⟨rfl, hl, by simp [DigitalChannel.poll, hs, hl]⟩)
    · cases hm : c.mode.matchesEdge l with
      | true => exact .inr (.inr (.inl ⟨rfl, hl, rfl, by simp [DigitalChannel.poll, hs, hl, hm, DigitalChannel.recordMatch]⟩))
      | false => exact .inr (.inr (.inr ⟨rfl, hl, rfl, by simp [DigitalChannel.poll, hs, hl, hm]⟩))

/-- A digital poll never blocks (R122). -/
theorem DigitalChannel.poll_ne_wait (c : DigitalChannel) (l : Bit) (t : Micros) : (c.poll l t).result ≠ .wait := by
  rcases c.poll_cases l t with ⟨_, e⟩ | ⟨_, _, e⟩ | ⟨_, _, _, e⟩ | ⟨_, _, _, e⟩ <;> rw [e] <;> simp

/-- A poll never writes mode, base or tag (R2, R44, R43). -/
theorem DigitalChannel.poll_config (c : DigitalChannel) (l : Bit) (t : Micros) :
    (c.poll l t).chan.mode = c.mode ∧ (c.poll l t).chan.base = c.base ∧ (c.poll l t).chan.src = c.src ∧
      (c.poll l t).chan.state = c.state := by
  rcases c.poll_cases l t with ⟨_, e⟩ | ⟨_, _, e⟩ | ⟨_, _, _, e⟩ | ⟨_, _, _, e⟩ <;> rw [e] <;> exact ⟨rfl, rfl, rfl, rfl⟩

end Sys2Proof.Machine
end

