-- ==== Sys2Proof/Laws/Encoding.lean ====
section
/-! SUPPORT. The two byte formats are read back from the bytes built of them (R66 to R70), and what the lookup of a handler gives (R141). -/

namespace Sys2Proof

/-! ## Fields -/

@[simp] theorem isOpcodeByte_opcodeByte (fc : BitVec 5) (n : BitVec 2) : isOpcodeByte (opcodeByte fc n) = true := by
  revert fc n; decide

@[simp] theorem functionCode_opcodeByte (fc : BitVec 5) (n : BitVec 2) : functionCode (opcodeByte fc n) = fc := by
  revert fc n; decide

@[simp] theorem paramCount_opcodeByte (fc : BitVec 5) (n : BitVec 2) : paramCount (opcodeByte fc n) = n := by
  revert fc n; decide

@[simp] theorem isOpcodeByte_paramByte (v : Digit) : isOpcodeByte (paramByte v) = false := by
  revert v; decide

@[simp] theorem paramValue_paramByte (v : Digit) : paramValue (paramByte v) = v := by
  revert v; decide

/-- An opcode byte is built of its two fields. -/
theorem opcodeByte_fields (b : Byte) (h : isOpcodeByte b = true) : opcodeByte (functionCode b) (paramCount b) = b := by
  revert b; decide

/-- A parameter byte is built of its value. -/
theorem paramByte_value (b : Byte) (h : isOpcodeByte b = false) : paramByte (paramValue b) = b := by
  revert b; decide

/-- The numeric value of an opcode byte (R70). -/
theorem opcodeByte_toNat (fc : BitVec 5) (n : BitVec 2) : (opcodeByte fc n).toNat = 128 + 4 * fc.toNat + n.toNat := by
  revert fc n; decide

/-- The parameter count of a byte is its value modulo 4 (R67). -/
theorem paramCount_toNat (b : Byte) : (paramCount b).toNat = b.toNat % 4 := by
  revert b; decide

/-- The composed value of two parameters: the first is the low digit (R50, R92). -/
theorem composeDigits_toNat (p1 p2 : Digit) : (composeDigits p1 p2).toNat = p1.toNat + 128 * p2.toNat := by
  have h2 : p2.toNat < 128 := p2.isLt
  have h1 : p1.toNat < 2 ^ 7 := p1.isLt
  simp only [composeDigits, BitVec.toNat_or, BitVec.toNat_shiftLeft, BitVec.toNat_setWidth, Nat.shiftLeft_eq]
  rw [Nat.mod_eq_of_lt (a := p1.toNat) (by omega), Nat.mod_eq_of_lt (a := p2.toNat) (by omega), Nat.mod_eq_of_lt (by omega),
    Nat.mul_comm, ← Nat.two_pow_add_eq_or_of_lt h1]
  omega

/-- The two digits of a composed value are read back. -/
theorem composeDigits_extract (s : BitVec 14) : composeDigits (s.extractLsb' 0 7) (s.extractLsb' 7 7) = s := by
  apply BitVec.eq_of_toNat_eq
  rw [composeDigits_toNat]
  simp [BitVec.extractLsb'_toNat, Nat.shiftRight_eq_div_pow]
  omega

/-! ## The opcode map -/

@[simp] theorem MapRow.mem_all (r : MapRow) : r ∈ MapRow.all := by cases r <;> decide

/-- R141: a handler that is found has the pair that was looked up. -/
theorem handlerFor_some {p : Params} {fc : BitVec 5} {n : BitVec 2} {r : MapRow} (h : handlerFor p fc n = some r) :
    p.code r = fc ∧ r.count = n := by
  simpa using List.find?_some h

/-- R141: no handler is found exactly when no row has the pair. -/
theorem handlerFor_none {p : Params} {fc : BitVec 5} {n : BitVec 2} :
    handlerFor p fc n = none ↔ ∀ r : MapRow, p.code r = fc → r.count ≠ n := by
  simp [handlerFor]

/-- R3: two different rows of equal count have different codes. -/
theorem Params.codesDistinct_iff (p : Params) :
    p.codesDistinct = true ↔ ∀ r r' : MapRow, r.count = r'.count → p.code r = p.code r' → r = r' := by
  simp only [Params.codesDistinct, List.all_eq_true, MapRow.mem_all, true_implies, Bool.or_eq_true, beq_iff_eq, bne_iff_ne, ne_eq]
  constructor
  · intro h r r' hc hk
    rcases h r r' with (h | h) | h
    · exact h
    · exact absurd hc h
    · exact absurd hk h
  · intro h r r'
    by_cases hc : r.count = r'.count
    · by_cases hk : p.code r = p.code r'
      · exact .inl (.inl (h r r' hc hk))
      · exact .inr hk
    · exact .inl (.inr hc)

/-- R75: under R3 a row's own pair selects that row. -/
theorem handlerFor_row {p : Params} (hp : p.codesDistinct = true) (r : MapRow) : handlerFor p (p.code r) r.count = some r := by
  cases h : handlerFor p (p.code r) r.count with
  | none => exact absurd rfl (handlerFor_none.1 h r rfl)
  | some r' =>
    obtain ⟨hc, hn⟩ := handlerFor_some h
    rw [(p.codesDistinct_iff.1 hp) r' r hn hc]

/-- A pair is listed exactly when it has a handler. -/
theorem Params.listed_iff {p : Params} {fc : BitVec 5} {n : BitVec 2} : p.listed fc n = true ↔ handlerFor p fc n ≠ none := by
  rw [ne_eq, handlerFor_none]
  simp [Params.listed]

/-- The parameter count of a row is 0, 1 or 2: the reserved count has no row. -/
theorem MapRow.count_ne_three (r : MapRow) : r.count ≠ 3 := by cases r <;> decide

theorem Params.wf_codesDistinct {p : Params} (h : p.wf = true) : p.codesDistinct = true := by
  simp only [Params.wf, Bool.and_eq_true] at h
  exact h.1.1.1.1.1.1

theorem Params.wf_ratesFunctional {p : Params} (h : p.wf = true) : p.ratesFunctional = true := by
  simp only [Params.wf, Bool.and_eq_true] at h
  exact h.1.1.1.1.1.2

theorem Params.wf_resetPeriodInTable {p : Params} (h : p.wf = true) : p.resetPeriodInTable = true := by
  simp only [Params.wf, Bool.and_eq_true] at h
  exact h.1.2

/-- The parameters of this core meet the spec's constraints, whatever the implementation supplies (assumption 1). -/
theorem Config.params_wf : Config.params.wf = true := by
  unfold Config.params
  split
  · assumption
  · decide

end Sys2Proof
end

