-- ==== Sys2Proof/Laws/Environment.lean ====
section
/-! SUPPORT. The next event, and what the receive path and the environment can change. -/

namespace Sys2Proof.Machine

theorem nextEvent_cons {s : State} {e : Event} {es : List Event} (h : s.sched = e :: es) : nextEvent s = e := by
  simp [nextEvent, h]

theorem takeEvent_cons {s : State} {e : Event} {es : List Event} (h : s.sched = e :: es) : takeEvent s = { s with sched := es } := by
  simp [takeEvent, h, State.withSched]

/-- With no event left before it, the sequencer has its turn (R139). -/
theorem nextEvent_nil {s : State} (h : s.sched = []) : nextEvent s = .sequencer := by
  simp [nextEvent, h]

/-- At that turn the next free list is drawn. -/
theorem takeEvent_nil {s : State} (h : s.sched = []) :
    takeEvent s = { s with sched := Config.round s.drawn, drawn := s.drawn + 1 } := by
  simp [takeEvent, h, State.withSched, State.withDrawn]

/-- Taking the next event changes the record of events alone. -/
theorem takeEvent_eq (s : State) : takeEvent s = { s with sched := (takeEvent s).sched, drawn := (takeEvent s).drawn } := by
  unfold takeEvent
  split <;> rfl

@[simp] theorem takeEvent_par (s : State) : (takeEvent s).par = s.par := by rw [takeEvent_eq]
@[simp] theorem takeEvent_framer (s : State) : (takeEvent s).framer = s.framer := by rw [takeEvent_eq]
@[simp] theorem takeEvent_seq (s : State) : (takeEvent s).seq = s.seq := by rw [takeEvent_eq]
@[simp] theorem takeEvent_rxq (s : State) : (takeEvent s).rxq = s.rxq := by rw [takeEvent_eq]
@[simp] theorem takeEvent_led (s : State) : (takeEvent s).led = s.led := by rw [takeEvent_eq]
@[simp] theorem takeEvent_ana (s : State) : (takeEvent s).ana = s.ana := by rw [takeEvent_eq]
@[simp] theorem takeEvent_dig (s : State) : (takeEvent s).dig = s.dig := by rw [takeEvent_eq]
@[simp] theorem takeEvent_tx (s : State) : (takeEvent s).tx = s.tx := by rw [takeEvent_eq]
@[simp] theorem takeEvent_ports (s : State) : (takeEvent s).ports = s.ports := by rw [takeEvent_eq]

/-- An event other than the sequencer's turn is the head of the list. -/
theorem sched_of_nextEvent {s : State} (h : nextEvent s ≠ .sequencer) : s.sched = nextEvent s :: (takeEvent s).sched := by
  cases hs : s.sched with
  | nil => exact absurd (nextEvent_nil hs) h
  | cons e es => simp [nextEvent_cons hs, takeEvent_cons hs]

/-- RX_APPEND changes the tail of RXQ, or nothing (R53, R60, R182). -/
theorem rxAppend_cases (b : Byte) (s : State) :
    rxAppend b s = s ∨ (s.ports.rst = false ∧ s.rxq.length < s.par.rxDepth ∧ rxAppend b s = { s with rxq := s.rxq ++ [b] }) := by
  unfold rxAppend
  split
  · exact .inl rfl
  · split
    · exact .inr ⟨by simpa using ‹¬s.ports.rst = true›, ‹_›, rfl⟩
    · exact .inl rfl

/-- Driving a digital input changes it alone. -/
theorem Ports.driveDigital_eq (d : DigId) (l : Bit) (p : Ports) :
    p.driveDigital d l = { p with dig1 := (p.driveDigital d l).dig1, dig2 := (p.driveDigital d l).dig2 } := by
  cases d <;> rfl

/-- The driven digital input has its level, the other keeps its own. -/
theorem Ports.driveDigital_digIn (d d' : DigId) (l : Bit) (p : Ports) :
    (p.driveDigital d l).digIn d' = if d' = d then l else p.digIn d' := by
  cases d <;> cases d' <;> rfl

/-- Driving an analog input changes it alone. -/
theorem Ports.driveAnalog_eq (a : AnId) (r : Raw) (p : Ports) :
    p.driveAnalog a r =
      { p with
        an051 := (p.driveAnalog a r).an051, an101 := (p.driveAnalog a r).an101, an052 := (p.driveAnalog a r).an052
        an102 := (p.driveAnalog a r).an102 } := by
  cases a <;> rfl

/-- The driven analog input has its value, the others keep their own. -/
theorem Ports.driveAnalog_anIn (a a' : AnId) (r : Raw) (p : Ports) :
    (p.driveAnalog a r).anIn a' = if a' = a then r else p.anIn a' := by
  cases a <;> cases a' <;> rfl

/-- The time moves by the advance, past the last value read (R172). -/
theorem Ports.driveTime_sub (adv : BitVec 31) (p : Ports) :
    ((p.driveTime adv).nowUs - (p.driveTime adv).lastNow).toNat = adv.toNat := by
  have h : adv.toNat < 2 ^ 31 := adv.isLt
  simp [Ports.driveTime]
  omega

/-- The receive path and the environment leave the list of events as it is. -/
@[simp] theorem environmentStep_sched (e : Event) (s : State) : (environmentStep e s).sched = s.sched := by
  cases e with
  | rx b => simp only [environmentStep, rxAppend]; split_ifs <;> rfl
  | rstRelease => simp only [environmentStep, releaseReset]; split_ifs <;> rfl
  | _ => rfl

/-- Everything an event of the receive path or of the environment can do: nothing, one byte at the tail of RXQ, new ports with `rst` as it was
and the same note of the last time read, or the reset registers. -/
theorem environmentStep_cases (e : Event) (s : State) :
    environmentStep e s = s ∨
    (∃ b, e = .rx b ∧ s.ports.rst = false ∧ s.rxq.length < s.par.rxDepth ∧ environmentStep e s = { s with rxq := s.rxq ++ [b] }) ∨
    (∃ p : Ports, environmentStep e s = { s with ports := p } ∧ p.rst = s.ports.rst ∧ p.lastNow = s.ports.lastNow ∧
      (p.nowUs = s.ports.nowUs ∨ (p.nowUs - p.lastNow).toNat < 2 ^ 31)) ∨
    (∃ rst, (e = .rstAssert ∨ e = .rstRelease) ∧
      environmentStep e s = State.ofReset s.par { s.ports with rst := rst } s.sched s.drawn) := by
  cases e with
  | sequencer => exact .inl rfl
  | rx b =>
    rcases rxAppend_cases b s with h | ⟨h1, h2, h3⟩
    · exact .inl h
    · exact .inr (.inl ⟨b, rfl, h1, h2, h3⟩)
  | time adv =>
    refine .inr (.inr (.inl ⟨s.ports.driveTime adv, rfl, rfl, rfl, .inr ?_⟩))
    rw [Ports.driveTime_sub]; exact adv.isLt
  | digital d l => exact .inr (.inr (.inl ⟨s.ports.driveDigital d l, rfl, by cases d <;> exact ⟨rfl, rfl, .inl rfl⟩⟩))
  | analog a r => exact .inr (.inr (.inl ⟨s.ports.driveAnalog a r, rfl, by cases a <;> exact ⟨rfl, rfl, .inl rfl⟩⟩))
  | button l => exact .inr (.inr (.inl ⟨_, rfl, rfl, rfl, .inl rfl⟩))
  | status t => exact .inr (.inr (.inl ⟨_, rfl, rfl, rfl, .inl rfl⟩))
  | rstAssert => exact .inr (.inr (.inr ⟨true, .inl rfl, rfl⟩))
  | rstRelease =>
    cases h : s.ports.rst with
    | true => exact .inr (.inr (.inr ⟨false, .inr rfl, by simp [environmentStep, releaseReset, h]⟩))
    | false => exact .inl (by simp [environmentStep, releaseReset, h])

end Sys2Proof.Machine
end

