-- ==== Sys2Proof/Laws/Ops.lean ====
section
/-! SUPPORT. What each shared operation of Machine/Ops.lean leaves, field by field. -/

namespace Sys2Proof.Machine

variable (s : State)

/-- `emitAll` changes TX alone. -/
theorem emitAll_eq (bs : List Byte) : emitAll bs s = { s with tx := s.tx ++ bs } := rfl

/-- `emitBlob` changes TX alone. -/
theorem emitBlob_eq (b : Blob) : emitBlob b s = { s with tx := s.tx ++ b.bytes } := rfl

/-- `noteNow` changes the note of the last time read alone. -/
theorem noteNow_eq : noteNow s = { s with ports := { s.ports with lastNow := s.ports.nowUs } } := rfl

/-- ACK changes TX and the framer alone (R87). -/
theorem commandSuccessful_eq : commandSuccessful s = { s with tx := s.tx ++ [0x21], framer := s.framer.ready } := rfl

/-- A reported error changes TX and the framer alone (R160). -/
theorem raiseProtocolError_reported {c : Cause} (h : c.reported = true) :
    raiseProtocolError c s = { s with tx := s.tx ++ [0x3F], framer := s.framer.ready } := by
  simp [raiseProtocolError, h, badCommand, emit, State.withTx, State.withFramer, nakByte]

/-- A silent error changes nothing (R161, R162). -/
theorem raiseProtocolError_silent {c : Cause} (h : c.reported = false) : raiseProtocolError c s = s := by
  simp [raiseProtocolError, h]

/-- A handler that ends in OK is answered by ACK. -/
theorem concludeCommand_ok (s' : State) :
    concludeCommand s (some s') = { s' with tx := s'.tx ++ [0x21], framer := s'.framer.ready } := rfl

/-- A handler that ends in BAD leaves a NAK on the state before it (R163). -/
theorem concludeCommand_bad : concludeCommand s none = { s with tx := s.tx ++ [0x3F], framer := s.framer.ready } := rfl

@[simp] theorem thenDo_next (f : State → State) : thenDo f (.next s) = .next (f s) := rfl

@[simp] theorem Framer.ready_state (f : Framer) : f.ready.state = .awaitingOpcode := rfl
@[simp] theorem Framer.ready_op (f : Framer) : f.ready.op = f.op := rfl
@[simp] theorem Framer.ready_rem (f : Framer) : f.ready.rem = 0 := rfl
@[simp] theorem Framer.ready_k (f : Framer) : f.ready.k = 0 := rfl
@[simp] theorem Framer.ready_p1 (f : Framer) : f.ready.p1 = f.p1 := rfl
@[simp] theorem Framer.ready_p2 (f : Framer) : f.ready.p2 = f.p2 := rfl

end Sys2Proof.Machine
end

