-- ==== Sys2Proof/Laws/Exec.lean ====
section
/-! SUPPORT. What each instruction leaves, as one equation for each: the registers it writes, its body on TX, its ACK or NAK. -/

namespace Sys2Proof.Machine

open Sys2Proof.Safety

/-! ## Run control (R142 to R144) -/

theorem exec_arm (m : Digit) (s : State) :
    exec (.arm m) s =
      .next { s with
        dig := s.dig.mapAll fun d c => if maskSelects m (digitalIndex d) then c.armPort else c
        ana := s.ana.mapAll fun a c => if maskSelects m (analogIndex a) then c.armPort else c
        tx := s.tx ++ [0x21], framer := s.framer.ready } := rfl

theorem exec_halt (s : State) :
    exec .halt s =
      .next { s with
        dig := s.dig.mapAll fun _ c => c.haltPort, ana := s.ana.mapAll fun _ c => c.haltPort
        tx := s.tx ++ [0x21], framer := s.framer.ready } := rfl

theorem exec_blinkled (v : Digit) (s : State) :
    exec (.blinkled v) s =
      .next { s with led := { value := v, strobes := s.led.strobes + 1 }, tx := s.tx ++ [0x21], framer := s.framer.ready } := rfl

/-! ## Immediate reads (R145 to R152) -/

/-- What an immediate read of `raw` with tag `src` leaves (R145). -/
def afterImmediate (raw : Raw) (src : BitVec 3) (s : State) : State :=
  { s with
    ports := { s.ports with lastNow := s.ports.nowUs }
    tx := s.tx ++ (encodeBlob 0 raw (src.setWidth 8) (s.ports.nowUs - s.seq.epoch)).bytes ++ [0x21]
    framer := s.framer.ready }

theorem exec_immDig1 (s : State) : exec .immDig1 s = .next (afterImmediate (s.ports.dig1.setWidth 16) s.dig.dig1.src s) := rfl
theorem exec_immDig2 (s : State) : exec .immDig2 s = .next (afterImmediate (s.ports.dig2.setWidth 16) s.dig.dig2.src s) := rfl
theorem exec_immAn051 (s : State) : exec .immAn051 s = .next (afterImmediate s.ports.an051 s.ana.an051.src s) := rfl
theorem exec_immAn101 (s : State) : exec .immAn101 s = .next (afterImmediate s.ports.an101 s.ana.an101.src s) := rfl
theorem exec_immAn052 (s : State) : exec .immAn052 s = .next (afterImmediate s.ports.an052 s.ana.an052.src s) := rfl
theorem exec_immAn102 (s : State) : exec .immAn102 s = .next (afterImmediate s.ports.an102 s.ana.an102.src s) := rfl
theorem exec_immButstate (s : State) :
    exec .immButstate s = .next (afterImmediate (s.ports.button.setWidth 16) s.par.tags.button s) := rfl

/-! ## Modes (R153 to R157) -/

theorem exec_mdeSync (s : State) :
    exec .mdeSync s =
      .next { s with
        ports := { s.ports with lastNow := s.ports.nowUs }
        seq := { s.seq with epoch := s.ports.nowUs }
        dig := s.dig.mapAll fun _ c => c.sync s.ports.nowUs, ana := s.ana.mapAll fun _ c => c.sync s.ports.nowUs
        tx := s.tx ++ [0x21], framer := s.framer.ready } := rfl

theorem exec_mdeAsamptime_ok {c : Digit} {s : State} {t : Micros} (h : ratePeriod s.par c = some t) :
    exec (.mdeAsamptime c) s =
      .next { s with
        ana := s.ana.mapAll fun _ ch => ch.setSampleRate t s.seq.epoch, tx := s.tx ++ [0x21], framer := s.framer.ready } := by
  simp only [exec, execMdeAsamptime, setRate, h]; rfl

theorem exec_mdeAsamptime_bad {c : Digit} {s : State} (h : ratePeriod s.par c = none) :
    exec (.mdeAsamptime c) s = .next (rejected s) := by
  simp only [exec, execMdeAsamptime, setRate, h]; rfl

theorem exec_mdeAstop (n : BitVec 14) (s : State) :
    exec (.mdeAstop n) s =
      .next { s with
        ana := s.ana.mapAll fun _ ch => ch.setStopCondition n, tx := s.tx ++ [0x21], framer := s.framer.ready } := rfl

theorem exec_mdeAtrig_ok {k : Digit} (t : Digit) {s : State} {cond : TriggerCond} (h : conditionOf k = some cond) :
    exec (.mdeAtrig k t) s =
      .next { s with
        ana := s.ana.mapAll fun _ ch => ch.setTrigger cond (thresholdOf t), tx := s.tx ++ [0x21], framer := s.framer.ready } := by
  simp only [exec, execMdeAtrig, setAnalogTriggers, h]; rfl

theorem exec_mdeAtrig_bad {k : Digit} (t : Digit) {s : State} (h : conditionOf k = none) :
    exec (.mdeAtrig k t) s = .next (rejected s) := by
  simp only [exec, execMdeAtrig, setAnalogTriggers, h]; rfl

theorem exec_mdeDtrig_ok {e : Digit} {s : State} {m : EdgeMode} (h : edgeModeOf e = some m) :
    exec (.mdeDtrig e) s =
      .next { s with
        dig := s.dig.mapAll fun d ch => ch.setTrigger m (s.ports.digIn d) s.seq.epoch
        tx := s.tx ++ [0x21], framer := s.framer.ready } := by
  simp only [exec, execMdeDtrig, setDigitalTriggers, h]; rfl

theorem exec_mdeDtrig_bad {e : Digit} {s : State} (h : edgeModeOf e = none) : exec (.mdeDtrig e) s = .next (rejected s) := by
  simp only [exec, execMdeDtrig, setDigitalTriggers, h]; rfl

/-! ## Status (R158) -/

theorem exec_stVers (s : State) :
    exec .stVers s = .next { s with tx := s.tx ++ statusBytes s.ports.status ++ [0x21], framer := s.framer.ready } := rfl

theorem exec_stAnalog_ok {n : Digit} {s : State} (h : ¬(n ≠ 0 ∧ selectedAnalog n = none)) :
    exec (.stAnalog n) s = .next { s with tx := s.tx ++ statusBytes s.ports.status ++ [0x21], framer := s.framer.ready } := by
  simp only [exec, execStAnalog, reportSelected]
  by_cases hn : n = 0
  · simp only [hn, if_true]; rfl
  · cases ha : selectedAnalog n with
    | none => exact absurd ⟨hn, ha⟩ h
    | some a => simp only [if_neg hn]; rfl

theorem exec_stAnalog_bad {n : Digit} {s : State} (hn : n ≠ 0) (h : selectedAnalog n = none) :
    exec (.stAnalog n) s = .next (rejected s) := by
  simp only [exec, execStAnalog, reportSelected, if_neg hn, h]; rfl

/-! ## Byte classes (R76, R77, R83, R84) -/

theorem exec_param (v : Digit) (s : State) : exec (.param v) s = .next { s with framer := s.framer.feedByte (paramByte v) } := rfl

theorem exec_reservedN3 (fc : BitVec 5) (s : State) : exec (.reservedN3 fc) s = .next (feedReserved (opcodeByte fc 3) s) := rfl

theorem exec_unknown (fc : BitVec 5) (ps : List Digit) (s : State) : exec (.unknown fc ps) s = .next (rejected s) := rfl

/-- An opcode byte of reserved count, where the framer accepts: latched, abandoned and answered (R76, R82). -/
theorem feedReserved_accepts {b : Byte} {s : State} (h : s.framer.accepts = true) :
    feedReserved b s = { s with tx := s.tx ++ [0x3F], framer := (s.framer.feedByte b).ready } := by
  simp only [feedReserved, if_pos h]; rfl

/-- A framer that does not accept takes no byte (R81). -/
theorem feedReserved_not_accepts {b : Byte} {s : State} (h : s.framer.accepts = false) : feedReserved b s = s := by
  simp [feedReserved, h]

/-! ## All commands at once -/

/-- Everything a command can do: one ACK after a body, with channels, LED and epoch as its own equation says and the time read or not; or a
rejection with a reported cause (R133, R159, R163). -/
theorem exec_command {i : Instr} (s : State) (h : isCommand i = true) :
    (causeOf s.par i = none ∧ ∃ (led : Led) (ana : AnalogBank) (dig : DigitalBank) (epoch last : Micros) (body : List Byte),
      IsBody body ∧ (last = s.ports.lastNow ∨ last = s.ports.nowUs) ∧
      exec i s =
        .next { s with
          led := led, ana := ana, dig := dig, seq := { s.seq with epoch := epoch }, ports := { s.ports with lastNow := last }
          tx := s.tx ++ body ++ [0x21], framer := s.framer.ready }) ∨
    (causeOf s.par i ≠ none ∧ exec i s = .next (rejected s)) := by
  have text : ∀ t : StatusText, IsBody (statusBytes t) := fun t => .inr (.inr ⟨t, rfl⟩)
  have imm : ∀ (seq : Count) (raw : Raw) (src : Byte) (ts : Micros), IsBody (encodeBlob seq raw src ts).bytes :=
    fun seq raw src ts => .inr (.inl ⟨_, rfl, rfl⟩)
  cases i with
  | param v => cases h
  | reservedN3 fc => cases h
  | unknown fc ps => exact .inr ⟨by simp [causeOf], rfl⟩
  | mdeAsamptime c =>
    cases hr : ratePeriod s.par c with
    | some t => exact .inl ⟨by simp [causeOf, hr], _, _, _, _, _, [], .inl rfl, .inl rfl, by rw [exec_mdeAsamptime_ok hr, List.append_nil]⟩
    | none => exact .inr ⟨by simp [causeOf, hr], exec_mdeAsamptime_bad hr⟩
  | mdeAtrig k t =>
    cases hr : conditionOf k with
    | some cond => exact .inl ⟨by simp [causeOf, hr], _, _, _, _, _, [], .inl rfl, .inl rfl, by rw [exec_mdeAtrig_ok t hr, List.append_nil]⟩
    | none => exact .inr ⟨by simp [causeOf, hr], exec_mdeAtrig_bad t hr⟩
  | mdeDtrig e =>
    cases hr : edgeModeOf e with
    | some m => exact .inl ⟨by simp [causeOf, hr], _, _, _, _, _, [], .inl rfl, .inl rfl, by rw [exec_mdeDtrig_ok hr, List.append_nil]⟩
    | none => exact .inr ⟨by simp [causeOf, hr], exec_mdeDtrig_bad hr⟩
  | stAnalog n =>
    by_cases hr : n ≠ 0 ∧ selectedAnalog n = none
    · exact .inr ⟨by simp only [causeOf, if_pos hr]; exact Option.some_ne_none _, exec_stAnalog_bad hr.1 hr.2⟩
    · exact .inl ⟨by simp only [causeOf, if_neg hr], _, _, _, _, _, _, text _, .inl rfl, exec_stAnalog_ok hr⟩
  | stVers => exact .inl ⟨rfl, _, _, _, _, _, _, text _, .inl rfl, exec_stVers s⟩
  | immDig1 => exact .inl ⟨rfl, _, _, _, _, _, _, imm _ _ _ _, .inr rfl, exec_immDig1 s⟩
  | immDig2 => exact .inl ⟨rfl, _, _, _, _, _, _, imm _ _ _ _, .inr rfl, exec_immDig2 s⟩
  | immAn051 => exact .inl ⟨rfl, _, _, _, _, _, _, imm _ _ _ _, .inr rfl, exec_immAn051 s⟩
  | immAn101 => exact .inl ⟨rfl, _, _, _, _, _, _, imm _ _ _ _, .inr rfl, exec_immAn101 s⟩
  | immAn052 => exact .inl ⟨rfl, _, _, _, _, _, _, imm _ _ _ _, .inr rfl, exec_immAn052 s⟩
  | immAn102 => exact .inl ⟨rfl, _, _, _, _, _, _, imm _ _ _ _, .inr rfl, exec_immAn102 s⟩
  | immButstate => exact .inl ⟨rfl, _, _, _, _, _, _, imm _ _ _ _, .inr rfl, exec_immButstate s⟩
  | arm m => exact .inl ⟨rfl, _, _, _, _, _, [], .inl rfl, .inl rfl, by rw [exec_arm, List.append_nil]⟩
  | halt => exact .inl ⟨rfl, _, _, _, _, _, [], .inl rfl, .inl rfl, by rw [exec_halt, List.append_nil]⟩
  | blinkled v => exact .inl ⟨rfl, _, _, _, _, _, [], .inl rfl, .inl rfl, by rw [exec_blinkled, List.append_nil]⟩
  | mdeSync => exact .inl ⟨rfl, _, _, _, _, _, [], .inl rfl, .inr rfl, by rw [exec_mdeSync, List.append_nil]⟩
  | mdeAstop n => exact .inl ⟨rfl, _, _, _, _, _, [], .inl rfl, .inl rfl, by rw [exec_mdeAstop, List.append_nil]⟩

/-- Every instruction answers a next state, in every state. -/
theorem exec_next (i : Instr) (s : State) : ∃ t, exec i s = .next t := by
  cases h : isCommand i with
  | true =>
    rcases exec_command s h with ⟨_, _, _, _, _, _, _, _, _, e⟩ | ⟨_, e⟩
    · exact ⟨_, e⟩
    · exact ⟨_, e⟩
  | false =>
    cases i with
    | param v => exact ⟨_, rfl⟩
    | reservedN3 fc => exact ⟨_, rfl⟩
    | _ => cases h

end Sys2Proof.Machine
end

