-- ==== Sys2Proof/Laws/Framer.lean ====
section
/-! SUPPORT. The framer: what feeding a byte does in each case, and that it keeps the invariants of R93. -/

namespace Sys2Proof.Machine

open Sys2Proof.Safety

theorem Framer.accepts_iff (f : Framer) : f.accepts = true ↔ f.state = .awaitingOpcode ∨ f.state = .collecting := by
  simp [Framer.accepts]

/-- R81: a framer that does not accept takes no byte. -/
theorem Framer.feedByte_of_not_accepts {f : Framer} (h : f.accepts = false) (b : Byte) : f.feedByte b = f := by
  simp [Framer.feedByte, h]

/-- R82: the opcode case. -/
theorem Framer.feedByte_opcode {f : Framer} (ha : f.accepts = true) {b : Byte} (hb : isOpcodeByte b = true) :
    f.feedByte b = f.feedOpcode b := by
  simp [Framer.feedByte, ha, hb]

/-- R83: the parameter case while collecting. -/
theorem Framer.feedByte_param {f : Framer} (hs : f.state = .collecting) {b : Byte} (hb : isOpcodeByte b = false) :
    f.feedByte b = f.feedParam b := by
  simp [Framer.feedByte, Framer.accepts, hs, hb]

/-- R84: the stray. -/
theorem Framer.feedByte_stray {f : Framer} (hs : f.state ≠ .collecting) {b : Byte} (hb : isOpcodeByte b = false) :
    f.feedByte b = f := by
  simp [Framer.feedByte, hs, hb]

/-- R93: feeding a byte keeps the framer invariants. -/
theorem Framer.feedByte_framerOk {f : Framer} (h : FramerOk f) (b : Byte) : FramerOk (f.feedByte b) := by
  by_cases ha : f.accepts = true
  · by_cases hb : isOpcodeByte b = true
    · rw [Framer.feedByte_opcode ha hb]
      have hn : paramCount b = 0 ∨ paramCount b = 1 ∨ paramCount b = 2 ∨ paramCount b = 3 := by
        generalize paramCount b = n; revert n; decide
      constructor <;> rcases hn with hn | hn | hn | hn <;> simp [Framer.feedOpcode, hn, hb]
    · rw [Bool.not_eq_true] at hb
      by_cases hs : f.state = .collecting
      · rw [Framer.feedByte_param hs hb]
        obtain ⟨hop, hcnt, hrem, hsum⟩ := h.collecting hs
        have hk : f.k.toNat < 4 := f.k.isLt
        have hr : f.rem.toNat < 4 := f.rem.isLt
        have hc2 : (paramCount f.op).toNat ≤ 2 := by rcases hcnt with h | h <;> simp [h]
        have e1 : (f.rem - 1).toNat = f.rem.toNat - 1 := by simp [BitVec.toNat_sub]; omega
        have e2 : (f.k + 1).toNat = f.k.toNat + 1 := by simp [BitVec.toNat_add]; omega
        by_cases hz : f.rem - 1 = 0
        · have hz' : f.rem.toNat = 1 := by
            have := congrArg BitVec.toNat hz
            rw [e1] at this
            simp at this
            omega
          have hst : (f.feedParam b).state = .complete := by simp only [Framer.feedParam, if_pos hz]
          refine ⟨?_, ?_, fun _ => ⟨hop, ?_, hz, ?_⟩, ?_⟩
          · intro hh; rw [hst] at hh; cases hh
          · intro hh; rw [hst] at hh; cases hh
          · show paramCount f.op ≠ 3
            rcases hcnt with h | h <;> simp [h]
          · apply BitVec.eq_of_toNat_eq
            show (f.k + 1).toNat = (paramCount f.op).toNat
            omega
          · intro hh; rw [hst] at hh; cases hh
        · have hz' : f.rem.toNat ≠ 1 := by
            intro hh
            apply hz
            apply BitVec.eq_of_toNat_eq
            rw [e1]; simp; omega
          have hst : (f.feedParam b).state = .collecting := by simp only [Framer.feedParam, if_neg hz, hs]
          refine ⟨?_, fun _ => ⟨hop, hcnt, ?_, ?_⟩, ?_, ?_⟩
          · intro hh; rw [hst] at hh; cases hh
          · show 1 ≤ (f.rem - 1).toNat
            omega
          · show (f.k + 1).toNat + (f.rem - 1).toNat = (paramCount f.op).toNat
            omega
          · intro hh; rw [hst] at hh; cases hh
          · intro hh; rw [hst] at hh; cases hh
      · rw [Framer.feedByte_stray hs hb]; exact h
  · rw [Bool.not_eq_true] at ha
    rw [Framer.feedByte_of_not_accepts ha]; exact h

/-- R87, R88: a ready framer meets the invariants. -/
theorem Framer.ready_framerOk (f : Framer) : FramerOk f.ready := by
  constructor <;> simp

/-- A reserved count alone leads to Invalid (R82). -/
theorem Framer.feedByte_invalid {f : Framer} (hf : f.state ≠ .invalid) {b : Byte} (h : (f.feedByte b).state = .invalid) :
    f.accepts = true ∧ isOpcodeByte b = true ∧ paramCount b = 3 := by
  by_cases ha : f.accepts = true
  · by_cases hb : isOpcodeByte b = true
    · rw [Framer.feedByte_opcode ha hb, Framer.feedOpcode] at h
      split at h
      · exact ⟨ha, hb, by assumption⟩
      · split at h <;> cases h
    · rw [Bool.not_eq_true] at hb
      by_cases hs : f.state = .collecting
      · rw [Framer.feedByte_param hs hb] at h
        simp only [Framer.feedParam] at h
        split at h
        · cases h
        · exact absurd h hf
      · rw [Framer.feedByte_stray hs hb] at h
        exact absurd h hf
  · rw [Bool.not_eq_true] at ha
    rw [Framer.feedByte_of_not_accepts ha] at h
    exact absurd h hf

end Sys2Proof.Machine
end

