-- ==== Sys2Proof/Laws/Operands.lean ====
section
/-! SUPPORT. The rate table read as a map (R4), and the threshold as a multiple of 8 (R156). -/

namespace Sys2Proof.Machine

/-- A period that is found is an entry of the table. -/
theorem ratePeriod_mem {p : Params} {c : Digit} {t : Micros} (h : ratePeriod p c = some t) : (c, t) ∈ p.rates := by
  simp only [ratePeriod, Option.map_eq_some_iff] at h
  obtain ⟨⟨a, b⟩, hf, rfl⟩ := h
  have ha : a = c := by simpa using List.find?_some hf
  subst ha
  exact List.mem_of_find?_eq_some hf

/-- No period is found exactly when the code has no entry. -/
theorem ratePeriod_none {p : Params} {c : Digit} : ratePeriod p c = none ↔ ∀ r ∈ p.rates, r.1 ≠ c := by
  simp [ratePeriod]

/-- In a table without repeated codes every entry is found. -/
theorem ratePeriod_of_mem {p : Params} (hp : p.ratesFunctional = true) {c : Digit} {t : Micros} (h : (c, t) ∈ p.rates) :
    ratePeriod p c = some t := by
  cases hr : ratePeriod p c with
  | none => exact absurd rfl (ratePeriod_none.1 hr _ h)
  | some u =>
    simp only [Params.ratesFunctional, decide_eq_true_eq] at hp
    have := List.inj_on_of_nodup_map hp h (ratePeriod_mem hr) rfl
    simp only [Prod.mk.injEq, true_and] at this
    rw [this]

/-- The threshold of a byte is 8 times its value (D19). -/
theorem thresholdOf_toNat (t : Digit) : (thresholdOf t).toNat = 8 * t.toNat := by
  revert t; decide

end Sys2Proof.Machine
end

