-- ==== Sys2Proof/Laws/PerInstr.lean ====
section
/-! SUPPORT. Statements about every instruction as syntax, one lemma for each constructor. -/

namespace Sys2Proof.Laws.EncodingShape

/-- The bytes of an instruction are one byte and then parameter bytes: as many as the opcode's count says, and none after a PARAM byte or a
reserved count (R69, R76, R80). -/
def Statement (i : Instr) : Prop :=
  ∀ p : Params, i.wf p = true →
    ∃ b ps, encode p i = b :: ps ∧ (∀ x ∈ ps, isOpcodeByte x = false) ∧
      (isOpcodeByte b = true → paramCount b ≠ 3 → ps.length = (paramCount b).toNat) ∧
      ((isOpcodeByte b = false ∨ paramCount b = 3) → ps = [])

/-- A command whose opcode byte has the count `n` of its parameters has the shape. -/
theorem of_opcode {p : Params} {i : Instr} {fc : BitVec 5} {n : BitVec 2} {vs : List Digit}
    (he : encode p i = opcodeByte fc n :: vs.map paramByte) (hn : vs.length = n.toNat) (h3 : n ≠ 3) :
    ∃ b ps, encode p i = b :: ps ∧ (∀ x ∈ ps, isOpcodeByte x = false) ∧
      (isOpcodeByte b = true → paramCount b ≠ 3 → ps.length = (paramCount b).toNat) ∧
      ((isOpcodeByte b = false ∨ paramCount b = 3) → ps = []) := by
  refine ⟨_, _, he, ?_, ?_, ?_⟩
  · intro x hx
    obtain ⟨v, _, rfl⟩ := List.mem_map.1 hx
    exact isOpcodeByte_paramByte v
  · intro _ _
    rw [paramCount_opcodeByte, List.length_map, hn]
  · intro h
    rw [isOpcodeByte_opcodeByte, paramCount_opcodeByte] at h
    rcases h with h | h
    · cases h
    · exact absurd h h3

theorem arm (m : Digit) : Statement (.arm m) := fun _ _ => of_opcode (vs := [m]) rfl rfl (by decide)
theorem halt : Statement .halt := fun _ _ => of_opcode (vs := []) rfl rfl (by decide)
theorem blinkled (v : Digit) : Statement (.blinkled v) := fun _ _ => of_opcode (vs := [v]) rfl rfl (by decide)
theorem immDig1 : Statement .immDig1 := fun _ _ => of_opcode (vs := []) rfl rfl (by decide)
theorem immDig2 : Statement .immDig2 := fun _ _ => of_opcode (vs := []) rfl rfl (by decide)
theorem immAn051 : Statement .immAn051 := fun _ _ => of_opcode (vs := []) rfl rfl (by decide)
theorem immAn101 : Statement .immAn101 := fun _ _ => of_opcode (vs := []) rfl rfl (by decide)
theorem immAn052 : Statement .immAn052 := fun _ _ => of_opcode (vs := []) rfl rfl (by decide)
theorem immAn102 : Statement .immAn102 := fun _ _ => of_opcode (vs := []) rfl rfl (by decide)
theorem immButstate : Statement .immButstate := fun _ _ => of_opcode (vs := []) rfl rfl (by decide)
theorem mdeSync : Statement .mdeSync := fun _ _ => of_opcode (vs := []) rfl rfl (by decide)
theorem mdeAsamptime (c : Digit) : Statement (.mdeAsamptime c) := fun _ _ => of_opcode (vs := [c]) rfl rfl (by decide)
theorem mdeAstop (n : BitVec 14) : Statement (.mdeAstop n) := fun _ _ =>
  of_opcode (vs := [n.extractLsb' 0 7, n.extractLsb' 7 7]) rfl rfl (by decide)
theorem mdeAtrig (k t : Digit) : Statement (.mdeAtrig k t) := fun _ _ => of_opcode (vs := [k, t]) rfl rfl (by decide)
theorem mdeDtrig (e : Digit) : Statement (.mdeDtrig e) := fun _ _ => of_opcode (vs := [e]) rfl rfl (by decide)
theorem stVers : Statement .stVers := fun _ _ => of_opcode (vs := [0]) rfl rfl (by decide)
theorem stAnalog (n : Digit) : Statement (.stAnalog n) := fun _ _ => of_opcode (vs := [n]) rfl rfl (by decide)

theorem param (v : Digit) : Statement (.param v) := fun _ _ =>
  ⟨paramByte v, [], rfl, by simp, by simp, fun _ => rfl⟩

theorem reservedN3 (fc : BitVec 5) : Statement (.reservedN3 fc) := fun _ _ =>
  ⟨opcodeByte fc 3, [], rfl, by simp, by simp, fun _ => rfl⟩

theorem unknown (fc : BitVec 5) (ps : List Digit) : Statement (.unknown fc ps) := by
  intro p h
  have hl : ps.length ≤ 2 := by
    simp only [Instr.wf, atMostTwo, Bool.and_eq_true, decide_eq_true_eq] at h
    exact h.1
  have hn : ps.length = (BitVec.ofNat 2 ps.length).toNat := by simp; omega
  refine of_opcode (fc := fc) (vs := ps) rfl hn ?_
  intro h3
  rw [h3] at hn
  simp at hn
  omega

end Sys2Proof.Laws.EncodingShape
end

