-- ==== Sys2Proof/Laws/Sequencer.lean ====
section
/-! SUPPORT. The sequencer's operations, as one equation for each case. -/

namespace Sys2Proof.Machine

theorem noteNowIf_eq (b : Bool) (s : State) :
    noteNowIf b s = { s with ports := { s.ports with lastNow := if b then s.ports.nowUs else s.ports.lastNow } } := by
  cases b <;> rfl

/-! ## DRAIN (R132) -/

/-- A byte is fed exactly when the budget lasts, a byte is buffered and the framer accepts. -/
theorem drainByte_some {s : State} {b : Byte} (h : drainByte s = some b) :
    0 < s.seq.budget ∧ s.framer.accepts = true ∧ ∃ rest, s.rxq = b :: rest := by
  unfold drainByte at h
  split at h
  · rename_i hc
    refine ⟨hc.1, hc.2, ?_⟩
    cases hq : s.rxq with
    | nil => rw [hq] at h; cases h
    | cons x rest =>
      rw [hq] at h
      exact ⟨rest, by simpa using h⟩
  · cases h

theorem drainByte_cons {s : State} {b : Byte} {rest : List Byte} (hq : s.rxq = b :: rest) (hb : 0 < s.seq.budget)
    (ha : s.framer.accepts = true) : drainByte s = some b := by
  simp [drainByte, hb, ha, hq]

theorem drainByte_none {s : State} (h : s.rxq = [] ∨ s.seq.budget = 0 ∨ s.framer.accepts = false) : drainByte s = none := by
  rcases h with h | h | h <;> simp [drainByte, h]

theorem popByte_eq {s : State} {b : Byte} {rest : List Byte} (hq : s.rxq = b :: rest) :
    popByte s = { s with rxq := rest, seq := { s.seq with budget := s.seq.budget - 1 } } := by
  simp [popByte, hq, State.withRxq, State.withSeq]

/-- The three classes of a byte in the drain (R66, R76). -/
theorem byteInstr_cases (b : Byte) :
    (isOpcodeByte b = false ∧ byteInstr b = some (.param (paramValue b))) ∨
    (isOpcodeByte b = true ∧ paramCount b = 3 ∧ byteInstr b = some (.reservedN3 (functionCode b))) ∨
    (isOpcodeByte b = true ∧ paramCount b ≠ 3 ∧ byteInstr b = none) := by
  unfold byteInstr
  cases hb : isOpcodeByte b with
  | false => exact .inl ⟨rfl, rfl⟩
  | true =>
    by_cases hn : paramCount b = 3
    · exact .inr (.inl ⟨rfl, hn, by simp [hn]⟩)
    · exact .inr (.inr ⟨rfl, hn, by rw [if_pos rfl, if_neg hn]⟩)

/-! ## POLL (R134) -/

/-- `advancePoll` moves the place in the tick alone. -/
theorem advancePoll_last {s : State} (h : s.seq.ch = 5) : advancePoll s = { s with seq := { s.seq with ch := 0, phase := .idle } } := by
  simp [advancePoll, h, State.withSeq]

theorem advancePoll_more {s : State} (h : s.seq.ch ≠ 5) : advancePoll s = { s with seq := { s.seq with ch := s.seq.ch + 1 } } := by
  simp [advancePoll, h, State.withSeq]

/-- What polling a digital channel leaves. -/
theorem pollDigital_eq (d : DigId) (s : State) :
    pollDigital d s =
      { s with
        dig := s.dig.set d ((s.dig.get d).poll (s.ports.digIn d) s.ports.nowUs).chan
        ports := { s.ports with
          lastNow := if ((s.dig.get d).poll (s.ports.digIn d) s.ports.nowUs).readsTime then s.ports.nowUs else s.ports.lastNow }
        tx := s.tx ++ if ((s.dig.get d).poll (s.ports.digIn d) s.ports.nowUs).result = .data then
          ((s.dig.get d).poll (s.ports.digIn d) s.ports.nowUs).chan.blob.bytes else [] } := by
  simp only [pollDigital, noteNowIf_eq, now]
  split <;> simp [State.withDig, emitBlob, emitAll, State.withTx]

/-- What polling an analog channel leaves. -/
theorem pollAnalog_eq (a : AnId) (s : State) :
    pollAnalog a s =
      { s with
        ana := s.ana.set a (analogOutcome a s).chan
        ports := { s.ports with lastNow := if (analogOutcome a s).readsTime then s.ports.nowUs else s.ports.lastNow }
        tx := s.tx ++ if (analogOutcome a s).result = .data then (analogOutcome a s).chan.blob.bytes else [] } := by
  simp only [pollAnalog, noteNowIf_eq]
  split <;> simp [State.withAna, emitBlob, emitAll, State.withTx]

/-- What a reading after the release leaves (R108). -/
theorem completeReading_eq (a : AnId) (s : State) :
    completeReading a s =
      { s with
        ana := s.ana.set a ((s.ana.get a).takeReading (s.ports.anIn a) s.ports.nowUs)
        ports := { s.ports with lastNow := s.ports.nowUs }
        tx := s.tx ++ ((s.ana.get a).takeReading (s.ports.anIn a) s.ports.nowUs).blob.bytes } := rfl

theorem chanAt_dig {c : Fin 6} {d : DigId} (h : chanAt c = .dig d) : c.val = digitalIndex d := by
  revert c; cases d <;> decide

theorem chanAt_an {c : Fin 6} {a : AnId} (h : chanAt c = .an a) : c.val = analogIndex a := by
  revert c; cases a <;> decide

theorem chanAt_of_digital {c : Fin 6} {d : DigId} (h : c.val = digitalIndex d) : chanAt c = .dig d := by
  revert c; cases d <;> decide

theorem chanAt_of_analog {c : Fin 6} {a : AnId} (h : c.val = analogIndex a) : chanAt c = .an a := by
  revert c; cases a <;> decide

/-- Everything a POLL step can do (R134). -/
theorem pollStep_cases (s : State) :
    (∃ d, chanAt s.seq.ch = .dig d ∧ s.seq.ch ≠ 5 ∧
      pollStep s = { pollDigital d s with seq := { s.seq with ch := s.seq.ch + 1 } }) ∨
    (∃ a, chanAt s.seq.ch = .an a ∧ (analogOutcome a s).result = .wait ∧
      pollStep s = { s with seq := { s.seq with phase := .waitRelease } }) ∨
    (∃ a, chanAt s.seq.ch = .an a ∧ (analogOutcome a s).result ≠ .wait ∧ s.seq.ch = 5 ∧
      pollStep s = { pollAnalog a s with seq := { s.seq with ch := 0, phase := .idle } }) ∨
    (∃ a, chanAt s.seq.ch = .an a ∧ (analogOutcome a s).result ≠ .wait ∧ s.seq.ch ≠ 5 ∧
      pollStep s = { pollAnalog a s with seq := { s.seq with ch := s.seq.ch + 1 } }) := by
  cases hc : chanAt s.seq.ch with
  | dig d =>
    have h5 : s.seq.ch ≠ 5 := by
      intro h; rw [h] at hc; cases hc
    refine .inl ⟨d, rfl, h5, ?_⟩
    simp only [pollStep, hc]
    rw [advancePoll_more (by rw [pollDigital_eq]; exact h5), pollDigital_eq]
  | an a =>
    by_cases hw : (analogOutcome a s).result = .wait
    · refine .inr (.inl ⟨a, rfl, hw, ?_⟩)
      obtain ⟨_, _, _, _, hch⟩ := AnalogChannel.poll_wait hw
      have ht : (analogOutcome a s).readsTime = false := by
        rcases (s.ana.get a).poll_cases (s.ports.anIn a) (now s) s.ports.button with ⟨_, e⟩ | ⟨_, _, e⟩ | ⟨_, _, e⟩ | ⟨_, _, e⟩ |
          ⟨_, _, _, _, e⟩ | ⟨_, _, _, _, e⟩ | ⟨_, _, _, _, e⟩ | ⟨_, _, _, _, e⟩ <;>
          (simp only [analogOutcome] at hw ⊢; rw [e] at hw ⊢; try cases hw)
      have hch' : (analogOutcome a s).chan = s.ana.get a := hch
      simp only [pollStep, hc, hw, if_true]
      rw [pollAnalog_eq, hch', ht, hw]
      simp [setPhase, State.withSeq]
    · by_cases h5 : s.seq.ch = 5
      · refine .inr (.inr (.inl ⟨a, rfl, hw, h5, ?_⟩))
        simp only [pollStep, hc, if_neg hw]
        rw [advancePoll_last (by rw [pollAnalog_eq]; exact h5), pollAnalog_eq]
      · refine .inr (.inr (.inr ⟨a, rfl, hw, h5, ?_⟩))
        simp only [pollStep, hc, if_neg hw]
        rw [advancePoll_more (by rw [pollAnalog_eq]; exact h5), pollAnalog_eq]

/-! ## WAIT_RELEASE (R135) -/

/-- Everything a WAIT_RELEASE step can do on an analog channel. -/
theorem waitReleaseStep_cases {s : State} {a : AnId} (h : chanAt s.seq.ch = .an a) :
    (s.ports.button = 1 ∧ waitReleaseStep s = .next s) ∨
    (s.ports.button ≠ 1 ∧ s.seq.ch = 5 ∧
      waitReleaseStep s = .next { completeReading a s with seq := { s.seq with ch := 0, phase := .idle } }) ∨
    (s.ports.button ≠ 1 ∧ s.seq.ch ≠ 5 ∧
      waitReleaseStep s = .next { completeReading a s with seq := { s.seq with ch := s.seq.ch + 1, phase := .poll } }) := by
  by_cases hb : s.ports.button = 1
  · exact .inl ⟨hb, by simp [waitReleaseStep, h, hb]⟩
  · by_cases h5 : s.seq.ch = 5
    · refine .inr (.inl ⟨hb, h5, ?_⟩)
      simp only [waitReleaseStep, h, if_neg hb]
      rw [advancePoll_last (by simpa [setPhase, completeReading_eq] using h5)]
      rfl
    · refine .inr (.inr ⟨hb, h5, ?_⟩)
      simp only [waitReleaseStep, h, if_neg hb]
      rw [advancePoll_more (by simpa [setPhase, completeReading_eq] using h5)]
      rfl

end Sys2Proof.Machine
end

