-- ==== Sys2Proof/Laws/Step.lean ====
section
/-! SUPPORT. Everything one step can do, said once. -/

namespace Sys2Proof.Machine

open Sys2Proof.Safety

/-- A DRAIN step that feeds the byte `b`: the framer takes it, and where it makes the framer Invalid, NAK and a ready framer follow at once
(R132, R85). -/
theorem drainStep_feeds {s : State} {b : Byte} {rest : List Byte} (hq : s.rxq = b :: rest) (hb : 0 < s.seq.budget)
    (ha : s.framer.accepts = true) :
    ((s.framer.feedByte b).state ≠ .invalid ∧
      drainStep s =
        .next { s with rxq := rest, seq := { s.seq with budget := s.seq.budget - 1 }, framer := s.framer.feedByte b }) ∨
    ((s.framer.feedByte b).state = .invalid ∧
      drainStep s =
        .next { s with
          rxq := rest, seq := { s.seq with budget := s.seq.budget - 1 }, tx := s.tx ++ [0x3F]
          framer := (s.framer.feedByte b).ready }) := by
  have hi : s.framer.state ≠ .invalid := by
    rcases (s.framer.accepts_iff).1 ha with h | h <;> simp [h]
  rcases byteInstr_cases b with ⟨hop, e⟩ | ⟨hop, hn, e⟩ | ⟨hop, hn, e⟩
  · refine .inl ⟨fun h => ?_, ?_⟩
    · obtain ⟨_, h2, _⟩ := Framer.feedByte_invalid hi h
      rw [hop] at h2; cases h2
    · simp only [drainStep, drainByte_cons hq hb ha, e, popByte_eq hq, exec_param, paramByte_value b hop]
  · refine .inr ⟨?_, ?_⟩
    · rw [Framer.feedByte_opcode ha hop, Framer.feedOpcode, if_pos hn]
    · have hbyte : opcodeByte (functionCode b) 3 = b := by rw [← hn]; exact opcodeByte_fields b hop
      simp only [drainStep, drainByte_cons hq hb ha, e, popByte_eq hq, exec_reservedN3, hbyte]
      exact congrArg Host.Outcome.next (feedReserved_accepts (s := { s with rxq := rest, seq := { s.seq with budget := s.seq.budget - 1 } }) ha)
  · refine .inl ⟨fun h => hn (Framer.feedByte_invalid hi h).2.2, ?_⟩
    simp only [drainStep, drainByte_cons hq hb ha, e, popByte_eq hq]
    rfl

/-- A DRAIN step with no byte to feed ends the drain. -/
theorem drainStep_ends {s : State} (h : s.rxq = [] ∨ s.seq.budget = 0 ∨ s.framer.accepts = false) :
    drainStep s = .next { s with seq := { s.seq with phase := .dispatch } } := by
  simp only [drainStep, drainByte_none h]; rfl

/-- Everything a DRAIN step can do. -/
theorem drainStep_cases (s : State) :
    (∃ b rest, s.rxq = b :: rest ∧ 0 < s.seq.budget ∧ s.framer.accepts = true ∧
      (((s.framer.feedByte b).state ≠ .invalid ∧
        drainStep s =
          .next { s with rxq := rest, seq := { s.seq with budget := s.seq.budget - 1 }, framer := s.framer.feedByte b }) ∨
      ((s.framer.feedByte b).state = .invalid ∧
        drainStep s =
          .next { s with
            rxq := rest, seq := { s.seq with budget := s.seq.budget - 1 }, tx := s.tx ++ [0x3F]
            framer := (s.framer.feedByte b).ready }))) ∨
    drainStep s = .next { s with seq := { s.seq with phase := .dispatch } } := by
  rcases hq : s.rxq with _ | ⟨b, rest⟩
  · exact .inr (hq ▸ drainStep_ends (.inl hq))
  · rw [← hq]
    by_cases hb : 0 < s.seq.budget
    · cases ha : s.framer.accepts with
      | true => exact .inl ⟨b, rest, hq, hb, rfl, drainStep_feeds hq hb ha⟩
      | false => exact .inr (drainStep_ends (.inr (.inr ha)))
    · exact .inr (drainStep_ends (.inr (.inl (by omega))))

/-- A DISPATCH step without a complete command only goes on (R133). -/
theorem dispatchStep_empty {s : State} (h : s.framer.state ≠ .complete) :
    dispatchStep s = .next { s with seq := { s.seq with ch := 0, phase := .poll } } := by
  simp only [dispatchStep, dispatchInstr, if_neg h]; rfl

/-- A DISPATCH step with a complete command runs it and goes on (R133). -/
theorem dispatchStep_runs {s : State} {i : Instr} (h : dispatchInstr s = some i) {t : State} (ht : exec i s = .next t) :
    dispatchStep s = .next { t with seq := { t.seq with ch := 0, phase := .poll } } := by
  simp only [dispatchStep, h, ht]; rfl

/-- What a complete command runs is a command, never a byte class. -/
theorem dispatchInstr_isCommand {s : State} {i : Instr} (h : dispatchInstr s = some i) : isCommand i = true := by
  unfold dispatchInstr at h
  split at h
  · rw [Option.some.injEq] at h
    subst h
    unfold decodeCommand
    split
    · rename_i r _
      cases r <;> first | rfl | (simp only [MapRow.instr]; split <;> rfl)
    · rfl
  · cases h

/-- Everything a step can do: an event of the receive path or of the environment, a turn given to the sequencer while `rst` is asserted, or
the sequencer's step in its phase. -/
theorem step_cases {s t : State} (h : step s = .next t) :
    (nextEvent s ≠ .sequencer ∧ t = environmentStep (nextEvent s) (takeEvent s)) ∨
    (nextEvent s = .sequencer ∧ s.ports.rst = true ∧ t = takeEvent s) ∨
    (nextEvent s = .sequencer ∧ s.ports.rst = false ∧ s.seq.phase = .idle ∧ t = tickStart (takeEvent s)) ∨
    (nextEvent s = .sequencer ∧ s.ports.rst = false ∧ s.seq.phase = .drain ∧ drainStep (takeEvent s) = .next t) ∨
    (nextEvent s = .sequencer ∧ s.ports.rst = false ∧ s.seq.phase = .dispatch ∧ dispatchStep (takeEvent s) = .next t) ∨
    (nextEvent s = .sequencer ∧ s.ports.rst = false ∧ s.seq.phase = .poll ∧ t = pollStep (takeEvent s)) ∨
    (nextEvent s = .sequencer ∧ s.ports.rst = false ∧ s.seq.phase = .waitRelease ∧ waitReleaseStep (takeEvent s) = .next t) := by
  unfold step at h
  cases he : nextEvent s with
  | sequencer =>
    rw [he] at h
    simp only [perform, takeEvent_ports] at h
    cases hr : s.ports.rst with
    | true =>
      rw [hr] at h
      exact .inr (.inl ⟨rfl, rfl, by simpa using h.symm⟩)
    | false =>
      rw [hr] at h
      simp only [Bool.false_eq_true, if_false, sequencerStep, takeEvent_seq] at h
      cases hp : s.seq.phase <;> simp only [hp] at h
      · exact .inr (.inr (.inl ⟨rfl, rfl, rfl, by simpa using h.symm⟩))
      · exact .inr (.inr (.inr (.inl ⟨rfl, rfl, rfl, h⟩)))
      · exact .inr (.inr (.inr (.inr (.inl ⟨rfl, rfl, rfl, h⟩))))
      · exact .inr (.inr (.inr (.inr (.inr (.inl ⟨rfl, rfl, rfl, by simpa using h.symm⟩)))))
      · exact .inr (.inr (.inr (.inr (.inr (.inr ⟨rfl, rfl, rfl, h⟩)))))
  | _ =>
    refine .inl ⟨by simp, ?_⟩
    rw [he] at h
    simpa [perform] using h.symm

/-- A turn of the sequencer with `rst` released. -/
theorem step_sequencer {s : State} (h : nextEvent s = .sequencer) (hr : s.ports.rst = false) :
    step s = sequencerStep (takeEvent s) := by
  simp [step, h, perform, hr]

/-- A turn of the sequencer while `rst` is asserted (R180). -/
theorem step_held {s : State} (h : nextEvent s = .sequencer) (hr : s.ports.rst = true) : step s = .next (takeEvent s) := by
  simp [step, h, perform, hr]

/-- A step of the receive path or of the environment. -/
theorem step_environment {s : State} {e : Event} (h : nextEvent s = e) (he : e ≠ .sequencer) :
    step s = .next (environmentStep e (takeEvent s)) := by
  simp only [step, h]
  cases e <;> first | rfl | exact absurd rfl he

/-- A run of one step more. -/
theorem core_run_next {n : Nat} {s t : State} (h : step s = .next t) : Host.Core.run core (n + 1) s = Host.Core.run core n t := by
  have h' : core.step s = .next t := h
  simp only [Host.Core.run, h']

end Sys2Proof.Machine
end

