-- ==== Sys2Proof/Tests/Slice0.lean ====
section
/-! SUPPORT. Tests under TESTCFG (D45): every constructor's encoding, one smoke test for each well-formedness check, one step for each
instruction, and a witness for the hypotheses of each statement. Expected values are those of spec/95_test_vectors.md, named V-.. . -/

namespace Sys2Proof.Tests

open Sys2Proof.Machine Sys2Proof.Safety

/-! ## Helpers -/

/-- Every input 0, and the status text "OK" of the vectors. -/
def ports0 : Ports :=
  { rst := false, nowUs := 0, lastNow := 0, dig1 := 0, dig2 := 0, an051 := 0, an101 := 0, an052 := 0, an102 := 0, button := 0
    status := { first := [47, 43], more := [] } }

/-- "From reset" of the vectors. -/
def s0 : State := State.ofReset Config.testcfg ports0 [] 0

/-- "From reset" with a time, and other inputs. -/
def at_ (t : Micros) (p : Ports := ports0) : State := State.ofReset Config.testcfg { p with nowUs := t } [] 0

/-- What a next state shows; none for a fault or a refusal. -/
def see {α : Type} (a : Answer) (f : State → α) : Option α :=
  match a with
  | .next s => some (f s)
  | .fault _ => none
  | .refused _ => none

/-- The framer with a complete command. -/
def complete (op : Byte) (p1 p2 : Digit) : Framer := { state := .complete, op := op, rem := 0, k := paramCount op, p1 := p1, p2 := p2 }

/-- A state whose next event is the sequencer's, in a phase. -/
def turn (p : Phase) (s : State) : State := { s with sched := [.sequencer], seq := { s.seq with phase := p } }

/-- A running analog channel of TESTCFG: period 1000, due at 1000. -/
def running : AnalogChannel := { AnalogChannel.reset Config.testcfg .an051 with state := .run, period := 1000, nextRead := 1000 }

/-- An armed analog channel with threshold 512. -/
def armed (k : TriggerCond) (prev : Raw) (valid : Bool) : AnalogChannel :=
  { AnalogChannel.reset Config.testcfg .an051 with state := .armed, cond := k, thr := 512, tprev := prev, tprevValid := valid, period := 1000 }

/-- A running digital channel D[1]. -/
def watching (m : EdgeMode) (l : Bit) : DigitalChannel := { DigitalChannel.reset Config.testcfg .dig2 l with state := .run, mode := m }

/-! ## Decoding: one word for each constructor, written out as `1 FC[6:2] N[1:0]` and `0 V[6:0]` -/

theorem test_decode_arm : decode Config.testcfg [0b1_00001_01, 0b0_0000101] = .ok (.arm 5) [] := by decide
theorem test_decode_halt : decode Config.testcfg [0b1_00010_00] = .ok .halt [] := by decide
theorem test_decode_blinkled : decode Config.testcfg [0b1_00011_01, 0b0_0000011] = .ok (.blinkled 3) [] := by decide
theorem test_decode_immDig1 : decode Config.testcfg [0b1_00100_00] = .ok .immDig1 [] := by decide
theorem test_decode_immDig2 : decode Config.testcfg [0b1_00101_00] = .ok .immDig2 [] := by decide
theorem test_decode_immAn051 : decode Config.testcfg [0b1_00110_00] = .ok .immAn051 [] := by decide
theorem test_decode_immAn101 : decode Config.testcfg [0b1_00111_00] = .ok .immAn101 [] := by decide
theorem test_decode_immAn052 : decode Config.testcfg [0b1_01000_00] = .ok .immAn052 [] := by decide
theorem test_decode_immAn102 : decode Config.testcfg [0b1_01001_00] = .ok .immAn102 [] := by decide
theorem test_decode_immButstate : decode Config.testcfg [0b1_01010_00] = .ok .immButstate [] := by decide
theorem test_decode_mdeSync : decode Config.testcfg [0b1_01011_00] = .ok .mdeSync [] := by decide
theorem test_decode_mdeAsamptime : decode Config.testcfg [0b1_01100_01, 0b0_0000010] = .ok (.mdeAsamptime 2) [] := by decide
theorem test_decode_mdeAstop : decode Config.testcfg [0b1_01101_10, 0b0_0101100, 0b0_0000010] = .ok (.mdeAstop 300) [] := by decide
theorem test_decode_mdeAtrig : decode Config.testcfg [0b1_01110_10, 0b0_0000001, 0b0_1000000] = .ok (.mdeAtrig 1 64) [] := by decide
theorem test_decode_mdeDtrig : decode Config.testcfg [0b1_01111_01, 0b0_0000010] = .ok (.mdeDtrig 2) [] := by decide
theorem test_decode_stVers : decode Config.testcfg [0b1_10000_01, 0b0_0000000] = .ok .stVers [] := by decide
theorem test_decode_stAnalog : decode Config.testcfg [0b1_10000_01, 0b0_0000100] = .ok (.stAnalog 4) [] := by decide
theorem test_decode_param : decode Config.testcfg [0b0_1111111] = .ok (.param 127) [] := by decide
theorem test_decode_reservedN3 : decode Config.testcfg [0b1_00001_11, 0b0_0000101] = .ok (.reservedN3 1) [0x05] := by decide
theorem test_decode_unknown : decode Config.testcfg [0b1_10001_10, 0x01, 0x02] = .ok (.unknown 17 [1, 2]) [] := by decide

/-- V-C31: the function code of HALT with N = 1 is unknown (D13). -/
theorem test_decode_listedCodeOtherCount : decode Config.testcfg [0x89, 0x00] = .ok (.unknown 2 [0]) [] := by decide

/-- V-E2, V-F13: a short command, and one that a new opcode abandons. -/
theorem test_decode_rejects :
    decode Config.testcfg [] = .rejected .noByte ∧ decode Config.testcfg [0xB6, 0x2C] = .rejected (.truncated 0xB6) ∧
      decode Config.testcfg [0xB6, 0x2C, 0x90] = .rejected (.abandoned 0xB6 0x90) := by decide

/-- V-E9: the fields of a byte. -/
theorem test_byteFields :
    (isOpcodeByte 0xB6, functionCode 0xB6, paramCount 0xB6) = (true, 13, 2) ∧ (isOpcodeByte 0x7F, paramValue 0x7F) = (false, 127) ∧
      (functionCode 0x80, paramCount 0x80) = (0, 0) := by decide

/-- Program P2's bytes. -/
theorem test_encode :
    encode Config.testcfg (.mdeAsamptime 2) ++ encode Config.testcfg (.mdeAstop 3) ++ encode Config.testcfg .mdeSync ++
      encode Config.testcfg (.arm 4) = [0xB1, 0x02, 0xB6, 0x03, 0x00, 0xAC, 0x85, 0x04] := by decide

/-- The host's table words that no OPEN function code bears on. -/
theorem test_decodeTableWord : decodeTableWord 8 0x05 = some (.param 5) ∧ decodeTableWord 8 0xFF = some (.reservedN3 31) := ⟨rfl, rfl⟩

/-- A placed word is the next instruction run: ARM 5, PARAM 5 and a reserved count. -/
theorem test_withFetchWord :
    dispatchInstr (s0.withFetchWord 16 0x0585) = some (.arm 5) ∧ see (step (s0.withFetchWord 16 0x0585)) (·.tx) = some [0x21] ∧
      see (step (s0.withFetchWord 8 0x05)) (fun s => (s.rxq, s.tx)) = some ([], []) ∧
      see (step (s0.withFetchWord 8 0x87)) (·.tx) = some [0x3F] := by decide

/-! ## Well-formedness: an ill-formed term for each check -/

theorem test_wf_selectorNotVers : (Instr.stAnalog 0).wf Config.testcfg = false ∧ (Instr.stAnalog 1).wf Config.testcfg = true := by decide
theorem test_wf_atMostTwo : (Instr.unknown 17 [1, 2, 3]).wf Config.testcfg = false ∧ (Instr.unknown 17 [1, 2]).wf Config.testcfg = true := by
  decide
theorem test_wf_unlisted : (Instr.unknown 2 []).wf Config.testcfg = false ∧ (Instr.unknown 2 [0]).wf Config.testcfg = true := by decide
theorem test_wf_params : Config.testcfg.wf = true := by decide
theorem test_wf_codesDistinct : ({ Config.testcfg with codes := { Config.testcfg.codes with halt := 4 } } : Params).wf = false := by decide
theorem test_wf_ratesFunctional : ({ Config.testcfg with rates := Config.testcfg.rates ++ [(1, 2000)] } : Params).wf = false := by decide
theorem test_wf_oneButtonCode : ({ Config.testcfg with rates := Config.testcfg.rates ++ [(6, 0)] } : Params).wf = false := by decide
theorem test_wf_ratesInRange : ({ Config.testcfg with rates := Config.testcfg.rates ++ [(6, 999)] } : Params).wf = false := by decide
theorem test_wf_ratesSpan : ({ Config.testcfg with rates := [(0, 0), (1, 1000), (4, 1000000)] } : Params).wf = false := by decide
theorem test_wf_resetPeriod : ({ Config.testcfg with resetSamplePeriod := 7777 } : Params).wf = false := by decide
theorem test_wf_depth : ({ Config.testcfg with rxDepth := 0 } : Params).wf = false := by decide

/-! ## One step of each instruction (spec/95_test_vectors.md section 2.6) -/

/-- V-C1. -/
theorem test_arm : see (exec (.arm 5) s0) (fun s => (s.tx, s.dig.dig1.state, s.dig.dig2.state, s.ana.an051.state, s.ana.an101.state)) =
    some ([0x21], .run, .halt, .armed, .halt) := by decide

/-- V-C2: bit 6 is ignored. -/
theorem test_arm_all : see (exec (.arm 127) s0) (fun s => (s.dig.dig2.state, s.ana.an052.state, s.ana.an102.state)) =
    some (.run, .armed, .armed) := by decide

/-- V-C4: counts are kept. -/
theorem test_halt : see (exec .halt { s0 with ana := { s0.ana with an051 := { running with count := 7 } } })
    (fun s => (s.tx, s.ana.an051.state, s.ana.an051.count)) = some ([0x21], .halt, 7) := by decide

/-- V-C5. -/
theorem test_blinkled : see (exec (.blinkled 3) s0) (fun s => (s.tx, s.led.value)) = some ([0x21], 3) := by decide

/-- V-C6. -/
theorem test_immDig1 : see (exec .immDig1 (at_ 100 { ports0 with dig1 := 1 })) (·.tx) =
    some [0xAA, 0x00, 0x00, 0x08, 0x00, 0x00, 0x00, 0x64, 0x21] := by decide

/-- V-C13: the timestamp wraps below the epoch. -/
theorem test_immDig1_wraps : see (exec .immDig1 { at_ 500 with seq := { Sequencer.reset with epoch := 1000 } }) (·.tx) =
    some [0xAA, 0x00, 0x00, 0x00, 0xFF, 0xFF, 0xFE, 0x0C, 0x21] := by decide

/-- V-C7. -/
theorem test_immDig2 : see (exec .immDig2 s0) (·.tx) = some [0xAA, 0x00, 0x00, 0x01, 0x00, 0x00, 0x00, 0x00, 0x21] := by decide

/-- V-C8. -/
theorem test_immAn051 : see (exec .immAn051 (at_ 0 { ports0 with an051 := 0x155 })) (·.tx) =
    some [0xAA, 0x00, 0x0A, 0xAA, 0x00, 0x00, 0x00, 0x00, 0x21] := by decide

/-- V-C9. -/
theorem test_immAn101 : see (exec .immAn101 (at_ 0 { ports0 with an101 := 0x3FF })) (·.tx) =
    some [0xAA, 0x00, 0x1F, 0xFB, 0x00, 0x00, 0x00, 0x00, 0x21] := by decide

/-- V-C10. -/
theorem test_immAn052 : see (exec .immAn052 s0) (·.tx) = some [0xAA, 0x00, 0x00, 0x04, 0x00, 0x00, 0x00, 0x00, 0x21] := by decide

/-- V-C11. -/
theorem test_immAn102 :
    see (exec .immAn102 { at_ 0x01020304 { ports0 with an102 := 0x3FF } with seq := { Sequencer.reset with epoch := 0x01000000 } }) (·.tx) =
      some [0xAA, 0x00, 0x1F, 0xFD, 0x00, 0x02, 0x03, 0x04, 0x21] := by decide

/-- V-C12. -/
theorem test_immButstate :
    see (exec .immButstate { at_ 0x01020304 { ports0 with button := 1 } with seq := { Sequencer.reset with epoch := 0x01000000 } }) (·.tx) =
      some [0xAA, 0x00, 0x00, 0x0E, 0x00, 0x02, 0x03, 0x04, 0x21] := by decide

/-- V-C14. -/
theorem test_mdeSync :
    see (exec .mdeSync { at_ 1000 with ana := { s0.ana with an102 := { running with count := 7 } } })
      (fun s => (s.tx, s.seq.epoch, s.ana.an102.base, s.dig.dig2.prevMatch, s.ana.an102.state, s.ana.an102.count)) =
      some ([0x21], 1000, 1000, 1000, .halt, 0) := by decide

/-- V-C15: a time of 0 aligns no base. -/
theorem test_mdeSync_zero : see (exec .mdeSync { s0 with ana := { s0.ana with an051 := { running with base := 9 } } })
    (fun s => (s.seq.epoch, s.ana.an051.base)) = some (0, 9) := by decide

/-- V-C16. -/
theorem test_mdeAsamptime : see (exec (.mdeAsamptime 2) { s0 with ana := { s0.ana with an102 := { running with count := 7 } } })
    (fun s => (s.tx, s.ana.an051.period, s.ana.an102.period, s.ana.an102.state, s.ana.an102.count)) =
    some ([0x21], 10000, 10000, .halt, 0) := by decide

/-- V-C19, V-X6: the first code with no entry is refused and halts nothing. -/
theorem test_mdeAsamptime_bad : see (exec (.mdeAsamptime 6) { s0 with ana := { s0.ana with an051 := running } })
    (fun s => (s.tx, s.ana.an051)) = some ([0x3F], running) := by decide

/-- V-C20, V-C21: every analog channel. -/
theorem test_mdeAstop : see (exec (.mdeAstop 300) s0) (fun s => (s.tx, s.ana.an051.stop, s.ana.an102.stop)) =
    some ([0x21], 300, 300) := by decide

/-- V-C24. -/
theorem test_mdeAtrig : see (exec (.mdeAtrig 2 127) { s0 with ana := { s0.ana with an101 := running } })
    (fun s => (s.tx, s.ana.an101.cond, s.ana.an101.thr, s.ana.an101.state, s.ana.an102.thr)) =
    some ([0x21], .fallBelow, 1016, .halt, 1016) := by decide

/-- V-C25. -/
theorem test_mdeAtrig_bad : see (exec (.mdeAtrig 3 64) s0) (fun s => (s.tx, s.ana)) = some ([0x3F], s0.ana) := by decide

/-- V-C26. -/
theorem test_mdeDtrig : see (exec (.mdeDtrig 1) (at_ 0 { ports0 with dig2 := 1 }))
    (fun s => (s.tx, s.dig.dig1.mode, s.dig.dig2.mode, s.dig.dig1.level, s.dig.dig2.level)) =
    some ([0x21], .risingOnly, .risingOnly, 0, 1) := by decide

/-- V-C27. -/
theorem test_mdeDtrig_bad : see (exec (.mdeDtrig 3) s0) (fun s => (s.tx, s.dig)) = some ([0x3F], s0.dig) := by decide

/-- V-C28. -/
theorem test_stVers : see (exec .stVers s0) (·.tx) = some [0x4F, 0x4B, 0x0A, 0x21] := by decide

/-- V-C29, V-C30. -/
theorem test_stAnalog : see (exec (.stAnalog 4) s0) (·.tx) = some [0x4F, 0x4B, 0x0A, 0x21] ∧
    see (exec (.stAnalog 5) s0) (·.tx) = some [0x3F] := by decide

/-- V-F1, V-F5. -/
theorem test_param : see (exec (.param 5) s0) (·.framer) = some Framer.reset ∧
    see (exec (.param 3) { s0 with framer := { Framer.reset with state := .collecting, op := 0x8D, rem := 1 } })
      (fun s => (s.framer.state, s.framer.p1, s.framer.k, s.framer.rem)) = some (.complete, 3, 1, 0) := by decide

/-- V-E3. -/
theorem test_reservedN3 : see (exec (.reservedN3 31) s0) (fun s => (s.tx, s.framer.isReadyToReceive, s.framer.op)) =
    some ([0x3F], true, 0xFF) := by decide

/-- V-E8. -/
theorem test_unknown : see (exec (.unknown 17 [1, 2]) s0) (fun s => (s.tx, s.framer.isReadyToReceive)) = some ([0x3F], true) := by decide

/-! ## Framer, blob and channels -/

/-- V-F14. -/
theorem test_framer_abandon : ((feedAll [0xB6, 0x2C, 0x87] Framer.reset).state, (feedAll [0xB6, 0x2C, 0x87] Framer.reset).op) =
    (.invalid, 0x87) := by decide

/-- The causes of V-X2 and V-X3: ABANDONED at the 88; STRAY at the 00. -/
theorem test_framer_causes : (feedAll [0xB6, 0x2C] Framer.reset).feedCauses 0x88 = [.abandoned] ∧ Framer.reset.feedCauses 0x00 = [.stray] ∧
    Framer.reset.feedCauses 0x8B = [.reservedCount] := by decide

/-- V-F9, V-F10, V-F11. -/
theorem test_framer_parameter :
    (feedAll [0xB6, 0x7F, 0x7F] Framer.reset).getParameter = 16383 ∧ (feedAll [0x8D, 0x05] Framer.reset).getParameter = 5 ∧
      (feedAll [0x88] Framer.reset).getParameter = 0 ∧ (feedAll [0x88] Framer.reset).getParameterAt 1 = 0xFF := by decide

/-- V-B3, V-B8. -/
theorem test_blob :
    (encodeBlob 2047 1023 7 0xFFFFFFFF).bytes = [0xAA, 0xFF, 0xFF, 0xFF, 0xFF, 0xFF, 0xFF, 0xFF] ∧
      (encodeBlob 0x12345678 0x2AB 5 0xDEADBEEF).bytes = [0xAA, 0xCF, 0x15, 0x5D, 0xDE, 0xAD, 0xBE, 0xEF] := by decide

/-- V-B10, V-B11, V-B12. -/
theorem test_blob_fields :
    ((encodeBlob 7 0 0 0).b2, (encodeBlob 0 32 0 0).b2, (encodeBlob 0 31 0 0).b3) = (0xE0, 0x01, 0xF8) := by decide

/-- V-A4, V-A5, V-A6. -/
theorem test_trigger_rise :
    ((armed .riseAbove 500 true).poll 600 400 0).chan.nextRead = 1400 ∧ ((armed .riseAbove 512 true).poll 513 0 0).chan.state = .run ∧
      ((armed .riseAbove 513 true).poll 600 0 0).chan = armed .riseAbove 600 true := by decide

/-- V-A3, V-A7, V-A8. -/
theorem test_trigger_fall :
    ((armed .riseAbove 0 false).poll 600 0 0).chan = armed .riseAbove 600 true ∧
      ((armed .fallBelow 512 true).poll 511 0 0).chan.state = .run ∧
      ((armed .fallBelow 511 true).poll 510 0 0).chan = armed .fallBelow 510 true := by decide

/-- V-A9, V-A10. -/
theorem test_periodic :
    (running.poll 0 999 0).result = .nodata ∧ (running.poll 0x155 1000 0).chan.nextRead = 2000 ∧
      (running.poll 0x155 1000 0).chan.blob.bytes = [0xAA, 0x00, 0x2A, 0xAA, 0x00, 0x00, 0x03, 0xE8] := by decide

/-- V-A14, V-A17: the time wraps. -/
theorem test_periodic_wrap :
    ({ running with nextRead := 0xFFFFFF00, base := 0xFFFFFE00 }.poll 7 0x10 0).chan.blob.bytes =
        [0xAA, 0x00, 0x20, 0x3A, 0x00, 0x00, 0x02, 0x10] ∧
      (running.poll 0 (1000 + 0x80000000) 0).result = .nodata := by decide

/-- V-D3, V-D5. -/
theorem test_digital :
    ({ watching .any 0 with base := 100, prevMatch := 100 }.poll 1 600).chan.blob.bytes =
        [0xAA, 0x00, 0x20, 0x09, 0x00, 0x00, 0x01, 0xF4] ∧
      ({ watching .any 0 with base := 100, prevMatch := 100 }.poll 1 600).chan.delta = 500 ∧
      ((watching .risingOnly 1).poll 0 0).chan.level = 0 ∧ ((watching .risingOnly 1).poll 0 0).result = .nodata := by decide

/-- V-A20: a pressed button holds the sequencer, and its release gives the reading. -/
theorem test_button :
    (let s := turn .poll { at_ 400 { ports0 with button := 1 } with
        ana := { s0.ana with an051 := { running with period := 0, nextRead := 0 } }, seq := { Sequencer.reset with ch := 2 } }
     see (step s) (fun t => (t.seq.phase, t.seq.ch, t.tx)) = some (.waitRelease, 2, [])) ∧
    (let s := turn .waitRelease { at_ 5000 { ports0 with an051 := 0x123 } with
        ana := { s0.ana with an051 := { running with period := 0, nextRead := 0 } }, seq := { Sequencer.reset with ch := 2 } }
     see (step s) (fun t => (t.seq.phase, t.seq.ch, t.tx)) =
       some (.poll, 3, [0xAA, 0x00, 0x29, 0x1A, 0x00, 0x00, 0x13, 0x88])) := by decide

/-- V-T1, V-T2: a reserved count is answered in the drain, and a complete command ends the drain. -/
theorem test_drain :
    see (step (turn .drain { s0 with rxq := [0xFF, 0x05], seq := { Sequencer.reset with budget := 2 } })) (fun t => (t.tx, t.rxq, t.seq.phase)) =
        some ([0x3F], [0x05], .drain) ∧
      see (step (turn .drain { s0 with rxq := [0x88], seq := { Sequencer.reset with budget := 1 }, framer := complete 0x88 0 0 }))
        (fun t => (t.rxq, t.seq.phase)) = some ([0x88], .dispatch) := by decide

/-- V-T4: a byte at a full FIFO is lost. -/
theorem test_rx_full :
    see (step { s0 with rxq := List.replicate 64 0x05, sched := [.rx 0x88] }) (·.rxq.length) = some 64 ∧
      see (step { s0 with sched := [.rx 0x88] }) (·.rxq) = some [0x88] := by decide

/-! ## Witnesses: each meets all the hypotheses of the statement it is named after, at boundary values of each clause -/

/-- The framer invariant of a complete command of two parameters. -/
theorem framerOk_complete : FramerOk (complete 0xB6 0x7F 0x7F) := by
  constructor <;> decide

/-- The framer invariant while one parameter of two is collected. -/
theorem framerOk_collecting : FramerOk (feedAll [0xB6, 0x2C] Framer.reset) := by
  constructor <;> decide

theorem witness_DecodeOfEncodeIsIdentity :
    Config.testcfg.wf = true ∧ (Instr.mdeAstop 0x3FFF).wf Config.testcfg = true ∧ (Instr.stAnalog 127).wf Config.testcfg = true ∧
      (Instr.unknown 31 []).wf Config.testcfg = true ∧ (Instr.unknown 17 [127, 0]).wf Config.testcfg = true := by decide

theorem witness_DecodedBytesAreTheEncoding :
    decode Config.testcfg [0xB6, 0x7F, 0x7F, 0x21] = .ok (.mdeAstop 16383) [0x21] ∧
      decode Config.testcfg [0xFF] = .ok (.reservedN3 31) [] ∧ decode Config.testcfg [0x00] = .ok (.param 0) [] := by decide

theorem witness_DispatchKeyIsTheWholeOpcodeByte :
    Config.testcfg.codesDistinct = true ∧ (∀ r : MapRow, Config.testcfg.code r = 2 → r.count ≠ 1) ∧
      (∀ r : MapRow, Config.testcfg.code r = 0 → r.count ≠ 0) := by
  refine ⟨by decide, fun r => ?_, fun r => ?_⟩ <;> cases r <;> decide

theorem witness_OpcodeByteStartsAFreshCommand :
    Framer.reset.state = .awaitingOpcode ∧ (feedAll [0xB6, 0x2C] Framer.reset).state = .collecting ∧
      (∀ b ∈ ([0x80, 0x81, 0x82, 0x83, 0xFC, 0xFD, 0xFE, 0xFF] : List Byte), b.getLsbD 7 = true) ∧
      (0x80#8).toNat % 4 = 0 ∧ (0x81#8).toNat % 4 = 1 ∧ (0xFE#8).toNat % 4 = 2 ∧ (0xFF#8).toNat % 4 = 3 := by decide

theorem witness_FramerCollectsWhatDispatchDecodes :
    Config.testcfg.wf = true ∧ (Instr.unknown 17 [1, 2]).wf Config.testcfg = true ∧ isCommand (.unknown 17 [1, 2]) = true ∧
      isCommand .halt = true ∧ (feedAll [0xB6, 0x2C] Framer.reset).state = .collecting ∧ Framer.reset.state = .awaitingOpcode := by decide

theorem witness_ParameterAccessIsBounded :
    Framer.reset.k.toNat = 0 ∧ (feedAll [0xB6, 0x2C] Framer.reset).k.toNat = 1 ∧ (complete 0xB6 1 2).k.toNat = 2 ∧
      (complete 0xB6 1 2).k.toNat < (3 : Byte).toNat ∧ (complete 0xB6 1 2).k.toNat < (0xFF : Byte).toNat := by decide

theorem witness_ComposedParameterIsTheStopCount :
    FramerOk (complete 0xB6 0x7F 0x7F) ∧ (complete 0xB6 0x7F 0x7F).state = .complete ∧ paramCount (complete 0xB6 0x7F 0x7F).op = 2 :=
  ⟨framerOk_complete, by decide, by decide⟩

/-- Halted; at the stop count; one below it, and with none, in button mode. -/
theorem witness_AnalogPollWithoutReading :
    s0.ana.an051.state = .halt ∧
      ({ running with stop := 3, count := 3 }.state = .run ∧ (3 : BitVec 14) ≠ 0 ∧ (3 : BitVec 14).toNat ≤ (3 : Count).toNat) ∧
      ({ running with period := 0 }.state = .run ∧ { running with period := 0 }.stop = 0 ∧ { running with period := 0 }.period = 0) ∧
      (2 : Count).toNat < (3 : BitVec 14).toNat := by decide

/-- One channel for each condition, at the threshold (V-A2, V-A5, V-A7). -/
theorem witness_ArmedChannelRunsOnItsTrigger :
    (armed .immediate 0 false).state = .armed ∧ (armed .riseAbove 512 true).state = .armed ∧
      ((armed .riseAbove 512 true).poll 513 0 0).chan.state = .run ∧ ((armed .riseAbove 512 true).poll 512 0 0).chan.state ≠ .run ∧
      ((armed .fallBelow 512 true).poll 511 0 0).chan.state = .run ∧ (armed .fallBelow 512 true).cond ≠ .immediate := by decide

/-- Due at once, and not due one microsecond before and half the range after. -/
theorem witness_PeriodicPollReadsWhenDue :
    running.state = .run ∧ running.stop = 0 ∧ running.period ≠ 0 ∧ ((1000 : Micros) - running.nextRead).toNat < 2 ^ 31 ∧
      2 ^ 31 ≤ ((999 : Micros) - running.nextRead).toNat ∧ 2 ^ 31 ≤ ((1000 + 0x80000000 : Micros) - running.nextRead).toNat := by decide

/-- Both signs of the difference, at its ends. -/
theorem witness_TimeComparisonIsExactWithinHalfTheRange :
    ((0x7FFFFFFF : Micros).toNat < (0 : Micros).toNat + 2 ^ 31 ∧ (0 : Micros).toNat < (0x7FFFFFFF : Micros).toNat + 2 ^ 31) ∧
      ((0 : Micros).toNat < (1 : Micros).toNat + 2 ^ 31 ∧ (1 : Micros).toNat < (0 : Micros).toNat + 2 ^ 31) := by decide

/-- A channel of stop count 1 after its one reading: a periodic one, and a button-gated one that reads at the release. -/
theorem witness_StopCountBoundsTheReadings :
    ∀ c ∈ [{ running with stop := 1 }, { running with stop := 1, period := 0 }],
      c.stop ≠ 0 ∧ c.count.toNat ≤ c.stop.toNat ∧ (serveReadings [⟨7, 1000, 1, 9, 2000⟩] c).2.state = .run ∧
        (serveReadings [⟨7, 1000, 1, 9, 2000⟩] c).2.count.toNat = c.stop.toNat := by decide

/-- V-A18: seven late polls, six readings. -/
theorem witness_LateChannelCatchesUpOnePeriodAPoll :
    running.state = .run ∧ running.stop = 0 ∧ running.period ≠ 0 ∧
      dataCount (serveReadings (([5500, 5600, 5700, 5800, 5900, 6000, 6100] : List Micros).map fun t => ⟨0, t, 0, 0, 0⟩) running).1 = 6 := by
  decide

theorem witness_DigitalPollReportsMatchingTransitions :
    s0.dig.dig1.state = .halt ∧ (watching .any 0).state = .run ∧ (1 : Bit) ≠ (watching .any 0).level ∧
      (watching .risingOnly 0).mode = .risingOnly ∧ (watching .fallingOnly 1).mode = .fallingOnly ∧ (0 : Bit) ≠ (watching .fallingOnly 1).level := by
  decide

/-- V-E7: two cycles, one poll in each half cycle, in each mode. -/
theorem witness_SquareWaveIsCountedByMode :
    (watching .any 0).state = .run ∧ ([[1], [2], [3], [4]] : List (List Micros)).length = 2 * 2 ∧
      (∀ ts ∈ ([[1], [2], [3], [4]] : List (List Micros)), ts ≠ []) ∧ (watching .any 0).mode = .any ∧
      (watching .risingOnly 0).mode ≠ .any ∧ (watching .fallingOnly 0).mode ≠ .any ∧
      (pollLevels (squareWave 0 [[1], [2], [3], [4]]) (watching .any 0)).1 = 4 ∧
      (pollLevels (squareWave 0 [[1], [2], [3], [4]]) (watching .fallingOnly 0)).1 = 2 := by decide

/-- An empty FIFO, one byte short of full, full, and `rst` asserted. -/
theorem witness_ArrivingByteIsAppendedOrLost :
    nextEvent { s0 with sched := [.rx 5] } = .rx 5 ∧ s0.ports.rst = false ∧ s0.rxq.length < s0.par.rxDepth ∧
      (List.replicate 63 (5 : Byte)).length < s0.par.rxDepth ∧ s0.par.rxDepth ≤ (List.replicate 64 (5 : Byte)).length ∧
      ({ ports0 with rst := true } : Ports).rst = true := by decide

/-- A drain, an arriving byte and a poll, each a step that is no reset. -/
theorem witness_ReceiveQueueIsFirstInFirstOut :
    (∃ t, step (turn .drain { s0 with rxq := [5], seq := { Sequencer.reset with budget := 1 } }) = .next t) ∧
      isReset (nextEvent (turn .drain s0)) = false ∧ (∃ t, step { s0 with sched := [.rx 5] } = .next t) ∧
      isReset (nextEvent { s0 with sched := [.rx 5] }) = false :=
  ⟨⟨_, rfl⟩, rfl, ⟨_, rfl⟩, rfl⟩

/-- A command step and a reserved count's drain step: both emit. -/
theorem witness_EachStepEmitsOneWholeUnit :
    see (step (turn .dispatch { s0 with framer := complete 0x88 0 0 })) (·.tx) = some [0x21] ∧
      see (step (turn .drain { s0 with rxq := [0xFF], seq := { Sequencer.reset with budget := 1 } })) (·.tx) = some [0x3F] ∧
      isReset (nextEvent (turn .drain s0)) = false ∧ isReset (nextEvent { s0 with sched := [.time 1] }) = false ∧
      nextEvent { s0 with sched := [.time 1] } ≠ .sequencer := by decide

theorem witness_TimeMovesWithinHalfTheRange :
    nextEvent { s0 with sched := [.time 0x7FFFFFFF] } = .time 0x7FFFFFFF ∧ ((0x7FFFFFFF : Micros) - s0.ports.lastNow).toNat < 2 ^ 31 := by
  decide

theorem witness_EnvironmentDrivesItsOwnPortOnly :
    nextEvent { s0 with sched := [.digital .dig2 1] } = .digital .dig2 1 ∧
      nextEvent { s0 with sched := [.analog .an102 0xFFFF] } = .analog .an102 0xFFFF ∧
      nextEvent { s0 with sched := [.button 1] } = .button 1 ∧
      nextEvent { s0 with sched := [.status { first := [], more := [] }] } = .status { first := [], more := [] } ∧
      DigId.dig1 ≠ .dig2 ∧ AnId.an051 ≠ .an102 := by decide

/-- Both events of `rst`, a release with and without `rst` asserted, a turn while it is asserted, and the whole sequence. -/
theorem witness_ResetPinRestoresTheResetRegisters :
    nextEvent { s0 with sched := [.rstAssert] } = .rstAssert ∧ nextEvent { s0 with sched := [.rstRelease] } = .rstRelease ∧
      ({ ports0 with rst := true } : Ports).rst = true ∧ s0.ports.rst = false ∧ nextEvent s0 = .sequencer ∧
      { s0 with sched := [.rstAssert, .digital .dig2 1, .rx 5, .sequencer, .rstRelease] }.sched =
        .rstAssert :: .digital .dig2 1 :: .rx 5 :: .sequencer :: .rstRelease :: [] := by
  decide

/-- With one byte due before it, the turn comes after one step, and it finds the sequencer in Idle and `rst` released. -/
theorem witness_TickStartIsEventuallyTaken :
    s0.seq.phase = .idle ∧ (∀ e ∈ eventsOf 1 { s0 with sched := [.rx 5] }, isReset e = false) ∧
      see (step { s0 with sched := [.rx 5] }) (fun t => (nextEvent t, t.ports.rst)) = some (.sequencer, false) := by decide

theorem witness_TickStartAndEmptyDispatchMoveOn :
    nextEvent s0 = .sequencer ∧ nextEvent (turn .idle s0) = .sequencer ∧ (turn .idle s0).ports.rst = false ∧ (turn .idle s0).seq.phase = .idle ∧
      (turn .dispatch s0).seq.phase = .dispatch ∧ (turn .dispatch s0).framer.state ≠ .complete := by decide

/-- The last byte of a budget; an empty FIFO; a spent budget; a framer that does not accept. -/
theorem witness_DrainFeedsOneByteOrEnds :
    (let s := turn .drain { s0 with rxq := [0xFF], seq := { Sequencer.reset with budget := 1 } }
     nextEvent s = .sequencer ∧ s.ports.rst = false ∧ s.seq.phase = .drain ∧ s.rxq = 0xFF :: [] ∧ 0 < s.seq.budget ∧
       s.framer.accepts = true ∧ (s.framer.feedByte 0xFF).state = .invalid ∧ (s.framer.feedByte 0x88).state ≠ .invalid) ∧
      s0.rxq = [] ∧ s0.seq.budget = 0 ∧ (complete 0x88 0 0).accepts = false := by decide

theorem witness_StepRunsTheDecodedInstruction :
    (let s := turn .dispatch { s0 with framer := complete 0xB6 0x7F 0x7F }
     nextEvent s = .sequencer ∧ s.ports.rst = false ∧ s.seq.phase = .dispatch ∧ s.framer.state = .complete ∧ FramerOk s.framer ∧
       decode s.par (heldBytes s.framer) = .ok (.mdeAstop 16383) []) ∧
    (let s := turn .drain { s0 with rxq := [0x87], seq := { Sequencer.reset with budget := 1 } }
     nextEvent s = .sequencer ∧ s.ports.rst = false ∧ s.seq.phase = .drain ∧ s.rxq = 0x87 :: [] ∧ 0 < s.seq.budget ∧
       s.framer.accepts = true ∧ isCommand (.reservedN3 1) = false ∧ decode s.par [0x87] = .ok (.reservedN3 1) []) :=
  ⟨⟨rfl, rfl, rfl, rfl, framerOk_complete, by decide⟩, by decide⟩

/-- The first and the second index; a poll with data and one without. -/
theorem witness_PollStepServesADigitalChannel :
    (let s := turn .poll { s0 with dig := { s0.dig with dig2 := watching .any 1 }, seq := { Sequencer.reset with ch := 1 } }
     nextEvent s = .sequencer ∧ s.ports.rst = false ∧ s.seq.phase = .poll ∧ s.seq.ch.val = 1 ∧
       ((s.dig.get .dig2).poll (s.ports.digIn .dig2) s.ports.nowUs).result = .data) ∧
    (let s := turn .poll s0
     s.seq.ch.val = 0 ∧ ((s.dig.get .dig1).poll (s.ports.digIn .dig1) s.ports.nowUs).result = .nodata) := by decide

/-- Data at the first analog index, a halted channel at the last, and a blocked channel. -/
theorem witness_PollStepServesAnAnalogChannel :
    (let s := turn .poll { at_ 1000 with ana := { s0.ana with an051 := running }, seq := { Sequencer.reset with ch := 2 } }
     nextEvent s = .sequencer ∧ s.ports.rst = false ∧ s.seq.phase = .poll ∧ s.seq.ch.val = 2 ∧
       ((s.ana.get .an051).poll (s.ports.anIn .an051) s.ports.nowUs s.ports.button).result = .data) ∧
    (let s := turn .poll { s0 with seq := { Sequencer.reset with ch := 5 } }
     s.seq.ch.val = 5 ∧ ((s.ana.get .an102).poll (s.ports.anIn .an102) s.ports.nowUs s.ports.button).result ≠ .wait) ∧
    ({ running with period := 0 }.poll 0 0 1).result = .wait := by decide

theorem witness_ButtonReleaseCompletesTheReading :
    (let s := turn .waitRelease { s0 with seq := { Sequencer.reset with ch := 5 } }
     nextEvent s = .sequencer ∧ s.ports.rst = false ∧ s.seq.phase = .waitRelease ∧ s.seq.ch.val = 5 ∧ s.ports.button = 0) ∧
    (let s := turn .waitRelease { at_ 0 { ports0 with button := 1 } with seq := { Sequencer.reset with ch := 2 } }
     s.seq.ch.val = 2 ∧ s.ports.button = 1) ∧ AnId.an051 ≠ .an102 := by decide

/-- An empty tick: its nine turns, the last of which ends it. -/
theorem witness_TickEndsWithinItsBound :
    let s := { s0 with sched := List.replicate 9 .sequencer }
    nextEvent s = .sequencer ∧ s.ports.rst = false ∧ s.seq.phase = .idle ∧ (∀ t ∈ statesOf 9 s, t.seq.phase ≠ .waitRelease) ∧
      s.rxq.length + 9 ≤ (eventsOf 9 s).count .sequencer := by decide

/-- Nine turns in a row, and a run of the environment that is no byte and no reset. -/
theorem witness_EmptyTickOfAQuiescentCoreIsSilent :
    Quiescent s0 ∧ Quiescent { s0 with sched := List.replicate 9 .sequencer } ∧ s0.ports.rst = false ∧
      (∀ k < 9, nextEvent (takeEvents k { s0 with sched := List.replicate 9 .sequencer }) = .sequencer) ∧
      ∀ e ∈ eventsOf 2 { s0 with sched := [.sequencer, .digital .dig2 1] }, isReset e = false ∧ ∀ b, e ≠ .rx b :=
  ⟨⟨rfl, rfl, rfl, fun a => by cases a <;> rfl, fun d => by cases d <;> rfl⟩,
    ⟨rfl, rfl, rfl, fun a => by cases a <;> rfl, fun d => by cases d <;> rfl⟩, rfl, by decide, fun e h => by
      have h' : e ∈ [Event.sequencer, .digital .dig2 1] := h
      simp at h'; rcases h' with rfl | rfl <;> simp [isReset]⟩

/-- The sentinel's code, the last code and the first code without an entry. -/
theorem witness_SampleTimeSetsTheTableEntry :
    s0.par.wf = true ∧ ((0 : Digit), (0 : Micros)) ∈ s0.par.rates ∧ ((5 : Digit), (30000000 : Micros)) ∈ s0.par.rates ∧
      (∀ r ∈ s0.par.rates, r.1 ≠ 6) ∧ (∀ r ∈ s0.par.rates, r.1 ≠ 127) :=
  ⟨test_wf_params, .head _, .tail _ (.tail _ (.tail _ (.tail _ (.tail _ (.head _))))), by simp [s0, State.ofReset, Config.testcfg], by simp [s0, State.ofReset, Config.testcfg]⟩

/-- The codes on both sides of the last legal one: no code is on both. -/
theorem witness_AnalogTriggerIsSetOrRejected :
    ((0 : Digit) = 0 ∧ TriggerCond.immediate = .immediate) ∧ ((1 : Digit) = 1 ∧ TriggerCond.riseAbove = .riseAbove) ∧
      ((2 : Digit) = 2 ∧ TriggerCond.fallBelow = .fallBelow) ∧ 3 ≤ (3 : Digit).toNat ∧ 3 ≤ (127 : Digit).toNat ∧ ¬3 ≤ (2 : Digit).toNat := by
  decide

theorem witness_DigitalTriggerIsSetOrRejected :
    ((0 : Digit) = 0 ∧ EdgeMode.any = .any) ∧ ((1 : Digit) = 1 ∧ EdgeMode.risingOnly = .risingOnly) ∧
      ((2 : Digit) = 2 ∧ EdgeMode.fallingOnly = .fallingOnly) ∧ 3 ≤ (3 : Digit).toNat ∧ ¬3 ≤ (2 : Digit).toNat := by
  decide

theorem witness_StatusCommandsEmitTheText :
    (1 ≤ (1 : Digit).toNat ∧ (1 : Digit).toNat ≤ 4) ∧ (1 ≤ (4 : Digit).toNat ∧ (4 : Digit).toNat ≤ 4) ∧ 5 ≤ (5 : Digit).toNat ∧
      5 ≤ (127 : Digit).toNat := by decide

/-- The last parameter, the first of two, the second of two, and a stray. -/
theorem witness_ParamFillsTheNextSlotOrIsAStray :
    (feedAll [0x8D] Framer.reset).state = .collecting ∧ (feedAll [0x8D] Framer.reset).k = 0 ∧ (feedAll [0x8D] Framer.reset).rem = 1 ∧
      (feedAll [0xB6] Framer.reset).rem ≠ 1 ∧ (feedAll [0xB6, 0x2C] Framer.reset).state = .collecting ∧
      (feedAll [0xB6, 0x2C] Framer.reset).k ≠ 0 ∧ Framer.reset.state = .awaitingOpcode := by decide

theorem witness_ReservedAndUnknownOpcodesAreRejected :
    Framer.reset.state = .awaitingOpcode ∧ (feedAll [0xB6, 0x2C] Framer.reset).state = .collecting := by decide

theorem witness_NoByteIsTakenOutsideTheAcceptingStates :
    (complete 0x88 0 0).state = .complete ∧ (feedAll [0xFF] Framer.reset).state = .invalid := by decide

theorem witness_EveryCommandIsAnsweredOnce :
    isCommand .halt = true ∧ causeOf Config.testcfg .halt = none ∧ isCommand (.mdeAsamptime 6) = true ∧
      causeOf Config.testcfg (.mdeAsamptime 6) ≠ none ∧ causeOf Config.testcfg (.stAnalog 4) = none ∧
      causeOf Config.testcfg (.stAnalog 5) ≠ none := by decide

theorem witness_NoInstructionTouchesQueueOrTick :
    (∃ t, exec .mdeSync s0 = .next t) ∧ (∃ t, exec (.param 5) s0 = .next t) ∧ ∃ t, exec (.reservedN3 1) s0 = .next t :=
  ⟨⟨_, rfl⟩, ⟨_, rfl⟩, ⟨_, rfl⟩⟩

/-- ARM does change run states of both kinds. -/
theorem witness_RunStateIsKeptByTheOtherCommands :
    see (exec (.arm 5) s0) (fun t => ((t.ana.get .an051).state, (t.dig.get .dig1).state)) = some (.armed, .run) ∧
      (s0.ana.get .an051).state ≠ .armed ∧ (s0.dig.get .dig1).state ≠ .run := by decide

theorem witness_ParametersAreConstant :
    (∃ t, step (turn .dispatch { s0 with framer := complete 0x88 0 0 }) = .next t) ∧ (s0.ana.get .an102).src = s0.par.tags.analog .an102 ∧
      (s0.dig.get .dig2).src = s0.par.tags.digital .dig2 :=
  ⟨⟨_, rfl⟩, rfl, rfl⟩

/-- MDE_SYNC at time 1000 does write the epoch. -/
theorem witness_OnlySyncWritesTheEpoch :
    see (step (turn .dispatch { at_ 1000 with framer := complete 0xAC 0 0 })) (·.seq.epoch) = some 1000 ∧
      (turn .dispatch (at_ 1000)).seq.epoch ≠ 1000 ∧ isReset (nextEvent (turn .dispatch s0)) = false := by decide

/-- BLINKLED 3 does write a configuration register. -/
theorem witness_OnlyCommandsWriteConfiguration :
    see (step (turn .dispatch { s0 with framer := complete 0x8D 3 0 })) (fun t => decide (t.led = s0.led)) = some false ∧
      isReset (nextEvent (turn .dispatch s0)) = false ∧ ¬SameConfiguration s0 { s0 with led := { value := 3, strobes := 1 } } :=
  ⟨by decide, rfl, fun h => absurd h.led (by decide)⟩

theorem witness_CompleteIsLeftOnlyByAReply :
    (turn .dispatch { s0 with framer := complete 0x88 0 0 }).framer.state = .complete ∧
      see (step (turn .dispatch { s0 with framer := complete 0x88 0 0 })) (fun t => decide (t.framer = complete 0x88 0 0)) = some false ∧
      isReset (nextEvent (turn .dispatch s0)) = false := by decide

/-- The invariant holds of a state that is not the reset state: a collecting framer in the middle of a drain. -/
theorem coreInv_draining :
    CoreInv (turn .drain { s0 with
      rxq := [0x02], framer := feedAll [0xB6, 0x2C] Framer.reset, seq := { Sequencer.reset with budget := 1 } }) where
  par := by decide
  framer := framerOk_collecting
  sequencer :=
    { budget := by decide, depth := by decide, channel := fun _ _ => rfl, wait := fun h => (by cases h)
      complete := fun h => (by cases h), notInvalid := by decide }
  channels :=
    { analogTag := fun a => by cases a <;> rfl, digitalTag := fun d => by cases d <;> rfl
      period := fun a => ⟨4, by cases a <;> decide⟩, threshold := fun a => by cases a <;> rfl }
  time := by unfold TimeOk; decide

theorem witness_StepKeepsTheInvariant :
    ∃ s t, CoreInv s ∧ step s = .next t ∧ t.framer.state = .complete :=
  ⟨_, _, coreInv_draining, rfl, by decide⟩

theorem witness_CoreNeverStops : ∃ s, CoreInv s ∧ s.rxq ≠ [] := ⟨_, coreInv_draining, by decide⟩

end Sys2Proof.Tests
end

section
/-! Settles O46: the alphabet and the last byte of every status text (R5, D35). -/
namespace Sys2Proof.Machine

/-- The alphabet of a status text: the newline, or a printable character (R5). -/
def IsTextByte (b : Byte) : Prop := b = 0x0A ∨ (0x20 ≤ b.toNat ∧ b.toNat ≤ 0x7E)

/-- A character's byte does not wrap: `0x20 + 94 = 0x7E` is the largest. -/
theorem isTextByte_character (c : Fin 95) : IsTextByte (BitVec.ofNat 8 (0x20 + c.val)) := by
  have noWrap : (BitVec.ofNat 8 (0x20 + c.val)).toNat = 0x20 + c.val :=
    Nat.mod_eq_of_lt (by omega)
  exact .inr (by omega)

theorem isTextByte_of_mem_lineBytes {l : List (Fin 95)} {b : Byte} (h : b ∈ lineBytes l) : IsTextByte b := by
  rcases List.mem_append.mp h with hChar | hNewline
  · obtain ⟨c, -, rfl⟩ := List.mem_map.mp hChar
    exact isTextByte_character c
  · exact .inl (List.mem_singleton.mp hNewline)

theorem isTextByte_of_mem_statusBytes {t : StatusText} {b : Byte} (h : b ∈ statusBytes t) : IsTextByte b := by
  obtain ⟨_, -, hLine⟩ := List.mem_flatMap.mp h
  exact isTextByte_of_mem_lineBytes hLine

@[simp] theorem getLast?_lineBytes (l : List (Fin 95)) : (lineBytes l).getLast? = some 0x0A :=
  List.getLast?_concat

/-- A text has a line, and whichever line is its last one ends in the newline. -/
theorem getLast?_statusBytes (t : StatusText) : (statusBytes t).getLast? = some 0x0A := by
  have hLines : (t.first :: t.more).reverse ≠ [] := by simp
  obtain ⟨l, ls, hReverse⟩ := List.exists_cons_of_ne_nil hLines
  rw [statusBytes, List.getLast?_flatMap, hReverse, List.findSome?_cons, getLast?_lineBytes]

/-- Settles O46: every line is characters of the alphabet and then the newline. -/
theorem statusTextStaysInItsAlphabet : Obligations.StatusTextStaysInItsAlphabet :=
  fun t => ⟨fun _ => isTextByte_of_mem_statusBytes, getLast?_statusBytes t⟩

end Sys2Proof.Machine
end

section
/-! Settles O54 and O55: but for reset, the epoch and the configuration registers are written only by DISPATCH, and there only by the commands
that set them (R2, R19, R44). -/
namespace Sys2Proof.Machine

open Sys2Proof.Safety

/-! ## States with the same settings -/

/-- The configuration registers of an analog channel (R44). -/
def AnalogChannel.configuration (c : AnalogChannel) : Micros × TriggerCond × BitVec 10 × BitVec 14 := (c.period, c.cond, c.thr, c.stop)

theorem sameConfiguration_iff {s t : State} :
    SameConfiguration s t ↔ (∀ a, (t.ana.get a).configuration = (s.ana.get a).configuration) ∧
      (∀ d, (t.dig.get d).mode = (s.dig.get d).mode) ∧ t.led = s.led := by
  simp only [AnalogChannel.configuration, Prod.mk.injEq]
  exact ⟨fun ⟨hAna, hDig, hLed⟩ => ⟨hAna, hDig, hLed⟩, fun ⟨hAna, hDig, hLed⟩ => ⟨hAna, hDig, hLed⟩⟩

/-- States with equal channels and LED have the same configuration. -/
theorem sameConfiguration_of_registers {s t : State} (hAna : t.ana = s.ana) (hDig : t.dig = s.dig) (hLed : t.led = s.led) :
    SameConfiguration s t :=
  sameConfiguration_iff.2 ⟨fun _ => by rw [hAna], fun _ => by rw [hDig], hLed⟩

theorem sameConfiguration_trans {s u t : State} (h : SameConfiguration s u) (h' : SameConfiguration u t) :
    SameConfiguration s t := by
  rw [sameConfiguration_iff] at h h' ⊢
  obtain ⟨hAna, hDig, hLed⟩ := h
  obtain ⟨hAna', hDig', hLed'⟩ := h'
  exact ⟨fun a => (hAna' a).trans (hAna a), fun d => (hDig' d).trans (hDig d), hLed'.trans hLed⟩

/-- The settings of R44: the shared epoch and the configuration registers are the same in both states. -/
structure SameSettings (s t : State) : Prop where
  epoch : t.seq.epoch = s.seq.epoch
  config : SameConfiguration s t

theorem SameSettings.of_registers {s t : State} (hEpoch : t.seq.epoch = s.seq.epoch) (hAna : t.ana = s.ana)
    (hDig : t.dig = s.dig) (hLed : t.led = s.led) : SameSettings s t :=
  ⟨hEpoch, sameConfiguration_of_registers hAna hDig hLed⟩

theorem SameSettings.trans {s u t : State} (h : SameSettings s u) (h' : SameSettings u t) : SameSettings s t :=
  ⟨h'.epoch.trans h.epoch, sameConfiguration_trans h.config h'.config⟩

/-! ## Writes to a bank that keep the configuration of its channels -/

/-- Writing one analog channel with its configuration kept keeps that of the whole bank. -/
theorem AnalogBank.configuration_set {b : AnalogBank} {a : AnId} {c : AnalogChannel}
    (h : c.configuration = (b.get a).configuration) (a' : AnId) :
    ((b.set a c).get a').configuration = (b.get a').configuration := by
  rw [AnalogBank.get_set]
  split
  case isTrue hSame => exact hSame ▸ h
  case isFalse => rfl

/-- Writing one digital channel with its mode kept keeps the modes of the whole bank. -/
theorem DigitalBank.mode_set {b : DigitalBank} {d : DigId} {c : DigitalChannel} (h : c.mode = (b.get d).mode) (d' : DigId) :
    ((b.set d c).get d').mode = (b.get d').mode := by
  rw [DigitalBank.get_set]
  split
  case isTrue hSame => exact hSame ▸ h
  case isFalse => rfl

/-- Writing every analog channel with its configuration kept keeps that of the whole bank. -/
theorem AnalogBank.configuration_mapAll {b : AnalogBank} {f : AnId → AnalogChannel → AnalogChannel}
    (h : ∀ a, (f a (b.get a)).configuration = (b.get a).configuration) (a : AnId) :
    ((b.mapAll f).get a).configuration = (b.get a).configuration := by
  rw [AnalogBank.get_mapAll, h]

/-- Writing both digital channels with their modes kept keeps the modes of the whole bank. -/
theorem DigitalBank.mode_mapAll {b : DigitalBank} {f : DigId → DigitalChannel → DigitalChannel}
    (h : ∀ d, (f d (b.get d)).mode = (b.get d).mode) (d : DigId) : ((b.mapAll f).get d).mode = (b.get d).mode := by
  rw [DigitalBank.get_mapAll, h]

/-! ## What the agents do outside DISPATCH -/

theorem AnalogChannel.poll_configuration (c : AnalogChannel) (r : Raw) (t : Micros) (b : Bit) :
    (c.poll r t b).chan.configuration = c.configuration := by
  obtain ⟨hPeriod, hCond, hThr, hStop, -⟩ := c.poll_config r t b
  rw [AnalogChannel.configuration, hPeriod, hCond, hThr, hStop]; rfl

theorem pollDigital_sameSettings (d : DigId) (s : State) : SameSettings s (pollDigital d s) := by
  obtain ⟨hMode, -⟩ := (s.dig.get d).poll_config (s.ports.digIn d) s.ports.nowUs
  rw [pollDigital_eq]
  exact ⟨rfl, sameConfiguration_iff.2 ⟨fun _ => rfl, DigitalBank.mode_set hMode, rfl⟩⟩

theorem pollAnalog_sameSettings (a : AnId) (s : State) : SameSettings s (pollAnalog a s) := by
  rw [pollAnalog_eq]
  exact ⟨rfl, sameConfiguration_iff.2 ⟨AnalogBank.configuration_set (AnalogChannel.poll_configuration ..), fun _ => rfl, rfl⟩⟩

theorem completeReading_sameSettings (a : AnId) (s : State) : SameSettings s (completeReading a s) :=
  ⟨rfl, sameConfiguration_iff.2 ⟨AnalogBank.configuration_set rfl, fun _ => rfl, rfl⟩⟩

/-- Moving the place in the tick keeps the settings. -/
theorem SameSettings.moved {s u : State} (h : SameSettings s u) (p : Phase) (c : Fin 6) (n : Nat) :
    SameSettings s { u with seq := { phase := p, ch := c, budget := n, epoch := s.seq.epoch } } :=
  ⟨rfl, sameConfiguration_trans h.config (sameConfiguration_of_registers rfl rfl rfl)⟩

theorem pollStep_sameSettings (s : State) : SameSettings s (pollStep s) := by
  rcases pollStep_cases s with ⟨d, -, -, e⟩ | ⟨a, -, -, e⟩ | ⟨a, -, -, -, e⟩ | ⟨a, -, -, -, e⟩ <;> rw [e]
  · exact (pollDigital_sameSettings d s).moved ..
  · exact .of_registers rfl rfl rfl rfl
  · exact (pollAnalog_sameSettings a s).moved ..
  · exact (pollAnalog_sameSettings a s).moved ..

theorem waitReleaseStep_sameSettings {s t : State} (h : waitReleaseStep s = .next t) : SameSettings s t := by
  cases hChannel : chanAt s.seq.ch with
  | dig d => simp [waitReleaseStep, hChannel] at h
  | an a =>
    rcases waitReleaseStep_cases hChannel with ⟨-, e⟩ | ⟨-, -, e⟩ | ⟨-, -, e⟩ <;> rw [e] at h <;> cases h
    · exact .of_registers rfl rfl rfl rfl
    · exact (completeReading_sameSettings a s).moved ..
    · exact (completeReading_sameSettings a s).moved ..

theorem drainStep_sameSettings {s t : State} (h : drainStep s = .next t) : SameSettings s t := by
  rcases drainStep_cases s with ⟨_, _, -, -, -, ⟨-, e⟩ | ⟨-, e⟩⟩ | e <;> rw [e] at h <;> cases h <;>
    exact .of_registers rfl rfl rfl rfl

theorem environmentStep_sameSettings {e : Event} (s : State) (he : isReset e = false) : SameSettings s (environmentStep e s) := by
  rcases environmentStep_cases e s with h | ⟨_, -, -, -, h⟩ | ⟨_, h, -⟩ | ⟨_, rfl | rfl, -⟩
  case inr.inr.inr.inl | inr.inr.inr.inr => cases he
  all_goals rw [h]; exact .of_registers rfl rfl rfl rfl

/-! ## What the instructions write -/

theorem feedReserved_sameSettings (b : Byte) (s : State) : SameSettings s (feedReserved b s) := by
  cases h : s.framer.accepts with
  | true => rw [feedReserved_accepts h]; exact .of_registers rfl rfl rfl rfl
  | false => rw [feedReserved_not_accepts h]; exact .of_registers rfl rfl rfl rfl

/-- Every instruction but MDE_SYNC keeps the epoch (R19). -/
theorem exec_epoch {i : Instr} {s t : State} (h : exec i s = .next t) (hi : i ≠ .mdeSync) : t.seq.epoch = s.seq.epoch := by
  cases i with
  | mdeSync => exact absurd rfl hi
  | mdeAsamptime c =>
    cases hRate : ratePeriod s.par c with
    | some p => rw [exec_mdeAsamptime_ok hRate] at h; cases h; rfl
    | none => rw [exec_mdeAsamptime_bad hRate] at h; cases h; rfl
  | mdeAtrig k th =>
    cases hCond : conditionOf k with
    | some cond => rw [exec_mdeAtrig_ok th hCond] at h; cases h; rfl
    | none => rw [exec_mdeAtrig_bad th hCond] at h; cases h; rfl
  | mdeDtrig m =>
    cases hMode : edgeModeOf m with
    | some mode => rw [exec_mdeDtrig_ok hMode] at h; cases h; rfl
    | none => rw [exec_mdeDtrig_bad hMode] at h; cases h; rfl
  | stAnalog n =>
    by_cases hBad : n ≠ 0 ∧ selectedAnalog n = none
    · rw [exec_stAnalog_bad hBad.1 hBad.2] at h; cases h; rfl
    · rw [exec_stAnalog_ok hBad] at h; cases h; rfl
  | reservedN3 fc => cases h; exact (feedReserved_sameSettings _ s).epoch
  | _ => cases h; rfl

/-- Every instruction but the configuration commands keeps the configuration registers (R44): ARM, HALT and MDE_SYNC write the other
registers of the channels, the rest leave channels and LED alone. -/
theorem exec_sameConfiguration {i : Instr} {s t : State} (h : exec i s = .next t) (hi : writesConfiguration i = false) :
    SameConfiguration s t := by
  cases i with
  | blinkled | mdeAsamptime | mdeAstop | mdeAtrig | mdeDtrig => cases hi
  | arm m =>
    rw [exec_arm] at h; cases h
    exact sameConfiguration_iff.2 ⟨AnalogBank.configuration_mapAll fun _ => by split <;> rfl,
      DigitalBank.mode_mapAll fun _ => by split <;> rfl, rfl⟩
  | halt =>
    rw [exec_halt] at h; cases h
    exact sameConfiguration_iff.2 ⟨AnalogBank.configuration_mapAll fun _ => rfl, DigitalBank.mode_mapAll fun _ => rfl, rfl⟩
  | mdeSync =>
    rw [exec_mdeSync] at h; cases h
    exact sameConfiguration_iff.2 ⟨AnalogBank.configuration_mapAll fun _ => rfl, DigitalBank.mode_mapAll fun _ => rfl, rfl⟩
  | stAnalog n =>
    by_cases hBad : n ≠ 0 ∧ selectedAnalog n = none
    · rw [exec_stAnalog_bad hBad.1 hBad.2] at h; cases h; exact sameConfiguration_of_registers rfl rfl rfl
    · rw [exec_stAnalog_ok hBad] at h; cases h; exact sameConfiguration_of_registers rfl rfl rfl
  | reservedN3 fc => cases h; exact (feedReserved_sameSettings _ s).config
  | _ => cases h; exact sameConfiguration_of_registers rfl rfl rfl

/-! ## One step -/

/-- A DISPATCH step either runs no command and keeps the settings, or leaves them as its command does. -/
theorem dispatchStep_settings {s t : State} (h : dispatchStep s = .next t) :
    SameSettings s t ∨ ∃ i u, dispatchInstr s = some i ∧ exec i s = .next u ∧ SameSettings u t := by
  cases hInstr : dispatchInstr s with
  | none =>
    simp only [dispatchStep, hInstr] at h
    cases h
    exact .inl (.of_registers rfl rfl rfl rfl)
  | some i =>
    obtain ⟨u, hExec⟩ := exec_next i s
    rw [dispatchStep_runs hInstr hExec] at h
    cases h
    exact .inr ⟨i, u, rfl, hExec, .of_registers rfl rfl rfl rfl⟩

@[simp] theorem dispatchInstr_takeEvent (s : State) : dispatchInstr (takeEvent s) = dispatchInstr s := by
  simp [dispatchInstr]

theorem takeEvent_sameSettings (s : State) : SameSettings s (takeEvent s) :=
  .of_registers (by simp) (by simp) (by simp) (by simp)

/-- But for reset, a step keeps the settings, or it is the sequencer's in DISPATCH and leaves them as the command does that it runs. -/
theorem step_settings {s t : State} (h : step s = .next t) (hReset : isReset (nextEvent s) = false) :
    SameSettings s t ∨
    (nextEvent s = .sequencer ∧ s.seq.phase = .dispatch ∧
      ∃ i u, dispatchInstr s = some i ∧ exec i (takeEvent s) = .next u ∧ SameSettings u t) := by
  have hTake := takeEvent_sameSettings s
  rcases step_cases h with ⟨-, rfl⟩ | ⟨-, -, rfl⟩ | ⟨-, -, -, rfl⟩ | ⟨-, -, -, hDrain⟩ | ⟨hTurn, -, hPhase, hDispatch⟩ | ⟨-, -, -, rfl⟩ |
    ⟨-, -, -, hWait⟩
  · exact .inl (hTake.trans (environmentStep_sameSettings _ hReset))
  · exact .inl hTake
  · exact .inl (hTake.trans (.of_registers rfl rfl rfl rfl))
  · exact .inl (hTake.trans (drainStep_sameSettings hDrain))
  · rcases dispatchStep_settings hDispatch with hSame | hRuns
    · exact .inl (hTake.trans hSame)
    · rw [dispatchInstr_takeEvent] at hRuns
      exact .inr ⟨hTurn, hPhase, hRuns⟩
  · exact .inl (hTake.trans (pollStep_sameSettings _))
  · exact .inl (hTake.trans (waitReleaseStep_sameSettings hWait))

/-- Settles O54: of the instructions that DISPATCH runs, only MDE_SYNC writes the epoch. -/
theorem onlySyncWritesTheEpoch : Obligations.OnlySyncWritesTheEpoch := by
  intro s t h hReset hWritten
  rcases step_settings h hReset with hSame | ⟨hTurn, hPhase, i, u, hInstr, hExec, hSame⟩
  · exact absurd hSame.epoch hWritten
  · have hSync : i = .mdeSync := by
      by_contra hi
      exact hWritten (by rw [hSame.epoch, exec_epoch hExec hi, takeEvent_seq])
    exact ⟨hTurn, hPhase, hSync ▸ hInstr⟩

/-- Settles O55: of the instructions that DISPATCH runs, only the configuration commands write configuration. -/
theorem onlyCommandsWriteConfiguration : Obligations.OnlyCommandsWriteConfiguration := by
  intro s t h hReset hWritten
  rcases step_settings h hReset with hSame | ⟨hTurn, hPhase, i, u, hInstr, hExec, hSame⟩
  · exact absurd hSame.config hWritten
  · refine ⟨hTurn, hPhase, i, hInstr, ?_⟩
    by_contra hi
    rw [Bool.not_eq_true] at hi
    exact hWritten (sameConfiguration_trans (takeEvent_sameSettings s).config
      (sameConfiguration_trans (exec_sameConfiguration hExec hi) hSame.config))

end Sys2Proof.Machine
end

section
/-! Settles O21, O22, O23 and O51: what a step does to RXQ and to TX, and what no instruction touches (R53 to R59, R65, R99, R132, R133). -/
namespace Sys2Proof.Machine

open Sys2Proof.Safety

/-! ## The frame of an instruction -/

/-- An instruction writes the framer, the LED, the channels, TX, the epoch and the note of the last time read, and nothing else (R65, R133). -/
theorem exec_frame {i : Instr} {s t : State} (h : exec i s = .next t) :
    ∃ framer led ana dig tx epoch last,
      t = { s with
        framer := framer, led := led, ana := ana, dig := dig, tx := tx
        seq := { s.seq with epoch := epoch }, ports := { s.ports with lastNow := last } } := by
  cases hCommand : isCommand i with
  | true =>
    rcases exec_command s hCommand with ⟨-, led, ana, dig, epoch, last, body, -, -, e⟩ | ⟨-, e⟩ <;> rw [e] at h <;> cases h
    · exact ⟨_, led, ana, dig, _, epoch, last, rfl⟩
    · exact ⟨_, _, _, _, _, _, _, rfl⟩
  | false =>
    cases i with
    | param v => rw [exec_param] at h; cases h; exact ⟨_, _, _, _, _, _, _, rfl⟩
    | reservedN3 fc =>
      rw [exec_reservedN3] at h; cases h
      cases hAccepts : s.framer.accepts with
      | true => rw [feedReserved_accepts hAccepts]; exact ⟨_, _, _, _, _, _, _, rfl⟩
      | false => rw [feedReserved_not_accepts hAccepts]; exact ⟨_, _, _, _, _, _, _, rfl⟩
    | _ => cases hCommand

/-- Settles O51: each register named is outside the frame of an instruction. -/
theorem noInstructionTouchesQueueOrTick : Obligations.NoInstructionTouchesQueueOrTick := by
  intro i s t h
  obtain ⟨_, _, _, _, _, _, _, rfl⟩ := exec_frame h
  exact ⟨rfl, rfl, rfl, rfl, rfl, rfl⟩

/-! ## The arrival of a byte -/

theorem rxAppend_room {s : State} (b : Byte) (hRst : s.ports.rst = false) (hRoom : s.rxq.length < s.par.rxDepth) :
    rxAppend b s = { s with rxq := s.rxq ++ [b] } := by
  simp [rxAppend, hRst, hRoom, State.withRxq]

theorem rxAppend_full {s : State} (b : Byte) (hFull : s.par.rxDepth ≤ s.rxq.length) : rxAppend b s = s := by
  simp [rxAppend, Nat.not_lt.mpr hFull]

theorem rxAppend_held {s : State} (b : Byte) (hRst : s.ports.rst = true) : rxAppend b s = s := by
  simp [rxAppend, hRst]

/-- Settles O21: the three cases of RX_APPEND, on the state with the event taken. -/
theorem arrivingByteIsAppendedOrLost : Obligations.ArrivingByteIsAppendedOrLost := by
  intro s b hEvent
  have hStep : step s = .next (rxAppend b (takeEvent s)) := step_environment hEvent (by simp)
  refine ⟨fun hRst hRoom => ?_, fun _ hFull => ?_, fun hRst => ?_⟩
  · rw [hStep, rxAppend_room b (by simpa using hRst) (by simpa using hRoom), takeEvent_rxq]
  · rw [hStep, rxAppend_full b (by simpa using hFull)]
  · rw [hStep, rxAppend_held b (by simpa using hRst)]

/-! ## What the sequencer's steps lead to -/

/-- A DISPATCH step goes on to polling, after the command that it runs if there is one. -/
theorem dispatchStep_next {s t : State} (h : dispatchStep s = .next t) :
    t = { s with seq := { s.seq with ch := 0, phase := .poll } } ∨
    ∃ i u, isCommand i = true ∧ exec i s = .next u ∧ t = { u with seq := { u.seq with ch := 0, phase := .poll } } := by
  cases hInstr : dispatchInstr s with
  | none => simp only [dispatchStep, hInstr] at h; cases h; exact .inl rfl
  | some i =>
    obtain ⟨u, hExec⟩ := exec_next i s
    rw [dispatchStep_runs hInstr hExec] at h
    cases h
    exact .inr ⟨i, u, dispatchInstr_isCommand hInstr, hExec, rfl⟩

/-- A POLL step polls one channel or, blocked, none, and moves the place in the tick. -/
theorem pollStep_next (s : State) :
    ∃ seq, pollStep s = { s with seq := seq } ∨ (∃ d, pollStep s = { pollDigital d s with seq := seq }) ∨
      ∃ a, pollStep s = { pollAnalog a s with seq := seq } := by
  rcases pollStep_cases s with ⟨d, -, -, e⟩ | ⟨_, -, -, e⟩ | ⟨a, -, -, -, e⟩ | ⟨a, -, -, -, e⟩
  · exact ⟨_, .inr (.inl ⟨d, e⟩)⟩
  · exact ⟨_, .inl e⟩
  · exact ⟨_, .inr (.inr ⟨a, e⟩)⟩
  · exact ⟨_, .inr (.inr ⟨a, e⟩)⟩

/-- A WAIT_RELEASE step holds, or completes a reading and moves the place in the tick. -/
theorem waitReleaseStep_next {s t : State} (h : waitReleaseStep s = .next t) :
    t = s ∨ ∃ a seq, t = { completeReading a s with seq := seq } := by
  cases hChannel : chanAt s.seq.ch with
  | dig d => simp [waitReleaseStep, hChannel] at h
  | an a =>
    rcases waitReleaseStep_cases hChannel with ⟨-, e⟩ | ⟨-, -, e⟩ | ⟨-, -, e⟩ <;> rw [e] at h <;> cases h
    · exact .inl rfl
    · exact .inr ⟨a, _, rfl⟩
    · exact .inr ⟨a, _, rfl⟩

/-! ## RXQ -/

@[simp] theorem pollDigital_rxq (d : DigId) (s : State) : (pollDigital d s).rxq = s.rxq := by rw [pollDigital_eq]

@[simp] theorem pollAnalog_rxq (a : AnId) (s : State) : (pollAnalog a s).rxq = s.rxq := by rw [pollAnalog_eq]

theorem pollStep_rxq (s : State) : (pollStep s).rxq = s.rxq := by
  obtain ⟨_, e | ⟨d, e⟩ | ⟨a, e⟩⟩ := pollStep_next s <;> rw [e]
  · exact pollDigital_rxq d s
  · exact pollAnalog_rxq a s

theorem waitReleaseStep_rxq {s t : State} (h : waitReleaseStep s = .next t) : t.rxq = s.rxq := by
  rcases waitReleaseStep_next h with rfl | ⟨_, _, rfl⟩ <;> rfl

theorem dispatchStep_rxq {s t : State} (h : dispatchStep s = .next t) : t.rxq = s.rxq := by
  rcases dispatchStep_next h with rfl | ⟨_, _, -, hExec, rfl⟩
  · rfl
  · obtain ⟨_, _, _, _, _, _, _, rfl⟩ := exec_frame hExec
    rfl

/-- A DRAIN step takes the oldest byte and counts the budget down, or leaves RXQ as it is (R54, R132). -/
theorem drainStep_rxq {s t : State} (h : drainStep s = .next t) :
    t.rxq = s.rxq ∨ ∃ b, 0 < s.seq.budget ∧ t.seq.budget + 1 = s.seq.budget ∧ s.rxq = b :: t.rxq := by
  rcases drainStep_cases s with ⟨b, _, hQueue, hBudget, -, ⟨-, e⟩ | ⟨-, e⟩⟩ | e <;> rw [e] at h <;> cases h
  · exact .inr ⟨b, hBudget, Nat.sub_add_cancel hBudget, hQueue⟩
  · exact .inr ⟨b, hBudget, Nat.sub_add_cancel hBudget, hQueue⟩
  · exact .inl rfl

theorem environmentStep_rxq {e : Event} (s : State) (he : isReset e = false) :
    (environmentStep e s).rxq = s.rxq ∨ ∃ b, e = .rx b ∧ (environmentStep e s).rxq = s.rxq ++ [b] := by
  rcases environmentStep_cases e s with h | ⟨b, hByte, -, -, h⟩ | ⟨_, h, -⟩ | ⟨_, rfl | rfl, -⟩
  · exact .inl (by rw [h])
  · exact .inr ⟨b, hByte, by rw [h]⟩
  · exact .inl (by rw [h])
  · cases he
  · cases he

/-- Settles O22: bytes enter by RX_APPEND alone and leave by DRAIN alone. -/
theorem receiveQueueIsFirstInFirstOut : Obligations.ReceiveQueueIsFirstInFirstOut := by
  intro s t h hReset
  rcases step_cases h with ⟨-, rfl⟩ | ⟨-, -, rfl⟩ | ⟨-, -, -, rfl⟩ | ⟨hTurn, -, hPhase, hDrain⟩ | ⟨-, -, -, hDispatch⟩ |
    ⟨-, -, -, rfl⟩ | ⟨-, -, -, hWait⟩
  · rcases environmentStep_rxq (takeEvent s) hReset with hSame | ⟨b, hByte, hAppend⟩
    · exact .inl (hSame.trans (takeEvent_rxq s))
    · exact .inr (.inl ⟨b, hByte, by rw [hAppend, takeEvent_rxq]⟩)
  · exact .inl (takeEvent_rxq s)
  · exact .inl (takeEvent_rxq s)
  · rcases drainStep_rxq hDrain with hSame | ⟨b, hBudget, hCount, hTaken⟩
    · exact .inl (hSame.trans (takeEvent_rxq s))
    · rw [takeEvent_seq] at hBudget hCount
      rw [takeEvent_rxq] at hTaken
      exact .inr (.inr ⟨b, hTurn, hPhase, hBudget, hCount, hTaken⟩)
  · exact .inl ((dispatchStep_rxq hDispatch).trans (takeEvent_rxq s))
  · exact .inl ((pollStep_rxq _).trans (takeEvent_rxq s))
  · exact .inl ((waitReleaseStep_rxq hWait).trans (takeEvent_rxq s))

/-! ## TX -/

/-- From `s` to `t` TX grew by what a step of phase `p` may append. -/
def Emits (p : Phase) (s t : State) : Prop := ∃ out, t.tx = s.tx ++ out ∧ MayEmit p out

theorem Emits.silent {p : Phase} {s t : State} (h : t.tx = s.tx) : Emits p s t := ⟨[], by simp [h], .inl rfl⟩

/-- A poll that gives data may emit one blob, and one that gives none emits nothing (R99). -/
theorem mayEmit_poll (r : PollResult) {b : Blob} (h : b.b0 = 0xAA) : MayEmit .poll (if r = .data then b.bytes else []) := by
  split
  · exact .inr ⟨b, h, rfl⟩
  · exact .inl rfl

theorem pollDigital_emits (d : DigId) (s : State) : Emits .poll s (pollDigital d s) := by
  rw [pollDigital_eq]
  exact ⟨_, rfl, mayEmit_poll _ rfl⟩

theorem pollAnalog_emits (a : AnId) (s : State) : Emits .poll s (pollAnalog a s) := by
  rw [pollAnalog_eq]
  exact ⟨_, rfl, mayEmit_poll _ rfl⟩

theorem pollStep_emits (s : State) : Emits .poll s (pollStep s) := by
  obtain ⟨_, e | ⟨d, e⟩ | ⟨a, e⟩⟩ := pollStep_next s <;> rw [e]
  · exact .silent rfl
  · exact pollDigital_emits d s
  · exact pollAnalog_emits a s

theorem waitReleaseStep_emits {s t : State} (h : waitReleaseStep s = .next t) : Emits .waitRelease s t := by
  rcases waitReleaseStep_next h with rfl | ⟨_, _, rfl⟩
  · exact .silent rfl
  · exact ⟨_, rfl, .inr ⟨_, rfl, rfl⟩⟩

theorem drainStep_emits {s t : State} (h : drainStep s = .next t) : Emits .drain s t := by
  rcases drainStep_cases s with ⟨_, _, -, -, -, ⟨-, e⟩ | ⟨-, e⟩⟩ | e <;> rw [e] at h <;> cases h
  · exact .silent rfl
  · exact ⟨_, rfl, .inr rfl⟩
  · exact .silent rfl

/-- A command emits its body and then its ACK or NAK; a rejected one has an empty body (R59, R133). -/
theorem exec_command_emits {i : Instr} {s t : State} (hCommand : isCommand i = true) (h : exec i s = .next t) :
    Emits .dispatch s t := by
  rcases exec_command s hCommand with ⟨-, _, _, _, _, _, body, hBody, -, e⟩ | ⟨-, e⟩ <;> rw [e] at h <;> cases h
  · exact ⟨body ++ [0x21], List.append_assoc .., .inr ⟨body, _, hBody, .inl rfl, rfl⟩⟩
  · exact ⟨[0x3F], rfl, .inr ⟨[], _, .inl rfl, .inr rfl, rfl⟩⟩

theorem dispatchStep_emits {s t : State} (h : dispatchStep s = .next t) : Emits .dispatch s t := by
  rcases dispatchStep_next h with rfl | ⟨_, _, hCommand, hExec, rfl⟩
  · exact .silent rfl
  · obtain ⟨out, hTx, hOut⟩ := exec_command_emits hCommand hExec
    exact ⟨out, hTx, hOut⟩

theorem environmentStep_tx {e : Event} (s : State) (he : isReset e = false) : (environmentStep e s).tx = s.tx := by
  rcases environmentStep_cases e s with h | ⟨_, -, -, -, h⟩ | ⟨_, h, -⟩ | ⟨_, rfl | rfl, -⟩
  case inr.inr.inr.inl | inr.inr.inr.inr => cases he
  all_goals rw [h]

/-- A turn of the sequencer emits what its phase may (R137). -/
theorem step_emits {s t : State} (h : step s = .next t) (hTurn : nextEvent s = .sequencer) : Emits s.seq.phase (takeEvent s) t := by
  rcases step_cases h with ⟨hOther, -⟩ | ⟨-, -, rfl⟩ | ⟨-, -, -, rfl⟩ | ⟨-, -, hPhase, hDrain⟩ | ⟨-, -, hPhase, hDispatch⟩ |
    ⟨-, -, hPhase, rfl⟩ | ⟨-, -, hPhase, hWait⟩
  · exact absurd hTurn hOther
  · exact .silent rfl
  · exact .silent rfl
  · exact hPhase ▸ drainStep_emits hDrain
  · exact hPhase ▸ dispatchStep_emits hDispatch
  · exact hPhase ▸ pollStep_emits _
  · exact hPhase ▸ waitReleaseStep_emits hWait

/-- Settles O23: only a turn of the sequencer emits, and it emits what its phase may. -/
theorem eachStepEmitsOneWholeUnit : Obligations.EachStepEmitsOneWholeUnit := by
  intro s t h hReset
  by_cases hTurn : nextEvent s = .sequencer
  · obtain ⟨out, hTx, hOut⟩ := step_emits h hTurn
    exact ⟨out, by rw [hTx, takeEvent_tx], absurd hTurn, hOut⟩
  · rw [step_environment rfl hTurn] at h
    cases h
    exact ⟨[], by rw [environmentStep_tx _ hReset, takeEvent_tx, List.append_nil], fun _ => rfl, .inl rfl⟩

end Sys2Proof.Machine
end

section
/-! Settles O48: how the framer answers a reserved-count opcode and an unknown opcode (R76, R77). -/
namespace Sys2Proof.Machine

/-- R82, R85: an accepting framer latches an opcode byte of reserved count, and the recovery keeps only that of it. -/
theorem Framer.feedByte_reserved_ready {f : Framer} (h : f.accepts = true) (fc : BitVec 5) :
    (f.feedByte (opcodeByte fc 3)).ready = { f with op := opcodeByte fc 3, state := .awaitingOpcode, rem := 0, k := 0 } := by
  rw [feedByte_opcode h (isOpcodeByte_opcodeByte fc 3), feedOpcode, if_pos (paramCount_opcodeByte fc 3)]
  rfl

/-- R76: where the framer accepts, RESERVED_N3 latches its byte and answers NAK with a ready framer. -/
theorem exec_reservedN3_accepts {s : State} (h : s.framer.accepts = true) (fc : BitVec 5) :
    exec (.reservedN3 fc) s =
      .next { s with
        tx := s.tx ++ [0x3F]
        framer := { s.framer with op := opcodeByte fc 3, state := .awaitingOpcode, rem := 0, k := 0 } } := by
  rw [exec_reservedN3, feedReserved_accepts h, Framer.feedByte_reserved_ready h]

/-- The byte of a reserved-count opcode: bit 7 and both count bits set (R69). -/
theorem opcodeByte_reserved_toNat (fc : BitVec 5) : (opcodeByte fc 3).toNat = 131 + 4 * fc.toNat := by
  have hCount : (3 : BitVec 2).toNat = 3 := rfl
  rw [opcodeByte_toNat, hCount]
  omega

/-- Settles O48: the latched byte is the opcode byte of `fc` with count 3. -/
theorem reservedAndUnknownOpcodesAreRejected : Obligations.ReservedAndUnknownOpcodesAreRejected :=
  fun fc ps s =>
    ⟨fun hAccepting =>
      ⟨opcodeByte fc 3, opcodeByte_reserved_toNat fc, exec_reservedN3_accepts ((Framer.accepts_iff _).2 hAccepting) fc⟩,
    exec_unknown fc ps s⟩

end Sys2Proof.Machine
end

section
/-! Settles O5, O47 and O49: what one byte does to the framer in each of its states (R81 to R84). -/
namespace Sys2Proof.Machine

/-! ## The flags (R16) -/

@[simp] theorem Framer.isBuilding_iff (f : Framer) : f.isBuilding = true ↔ f.state = .collecting := beq_iff_eq

@[simp] theorem Framer.isComplete_iff (f : Framer) : f.isComplete = true ↔ f.state = .complete := beq_iff_eq

@[simp] theorem Framer.isReadyToReceive_eq_false_iff (f : Framer) : f.isReadyToReceive = false ↔ f.state ≠ .awaitingOpcode :=
  beq_eq_false_iff_ne

theorem Framer.accepts_eq_false_iff (f : Framer) : f.accepts = false ↔ f.state = .complete ∨ f.state = .invalid := by
  rw [accepts]
  cases f.state <;> decide

/-! ## An opcode byte (R82) -/

theorem paramCount_cases (b : Byte) : paramCount b = 0 ∨ paramCount b = 1 ∨ paramCount b = 2 ∨ paramCount b = 3 := by
  generalize paramCount b = n
  revert n
  decide

theorem Framer.feedOpcode_complete {b : Byte} (f : Framer) (h : paramCount b = 0) :
    f.feedOpcode b = { f with op := b, k := 0, rem := 0, state := .complete } := by
  simp [feedOpcode, h]

theorem Framer.feedOpcode_reserved {b : Byte} (f : Framer) (h : paramCount b = 3) :
    f.feedOpcode b = { f with op := b, k := 0, rem := 0, state := .invalid } := by
  simp [feedOpcode, h]

theorem Framer.feedOpcode_collecting {b : Byte} (f : Framer) (h : paramCount b = 1 ∨ paramCount b = 2) :
    f.feedOpcode b = { f with op := b, k := 0, rem := paramCount b, state := .collecting } := by
  rcases h with h | h <;> simp [feedOpcode, h]

/-- Settles O5: one equation of `feedOpcode` for each count that the two low bits of the byte can hold. -/
theorem opcodeByteStartsAFreshCommand : Obligations.OpcodeByteStartsAFreshCommand := by
  intro f b hAccepting hOpcode
  rw [Framer.feedByte_opcode ((Framer.accepts_iff f).2 hAccepting) hOpcode, ← paramCount_toNat]
  rcases paramCount_cases b with h | h | h | h
  · simp [f.feedOpcode_complete h, h]
  · simp [f.feedOpcode_collecting (.inl h), h]
  · simp [f.feedOpcode_collecting (.inr h), h]
  · simp [f.feedOpcode_reserved h, h]

/-! ## A parameter byte (R83) -/

/-- The command is complete with the last parameter expected. -/
theorem Framer.feedParam_state {f : Framer} (h : f.state = .collecting) (b : Byte) :
    (f.feedParam b).state = if f.rem = 1 then .complete else .collecting := by
  simp only [feedParam, sub_eq_zero, h]

/-- R83: while no parameter is collected, the byte fills slot 1. -/
theorem Framer.feedParam_first {f : Framer} (h : f.state = .collecting) (hk : f.k = 0) (b : Byte) :
    f.feedParam b =
      { f with p1 := paramValue b, k := 1, rem := f.rem - 1, state := if f.rem = 1 then .complete else .collecting } := by
  rw [← feedParam_state h b]
  simp only [feedParam, hk, if_true, zero_add]

/-- R83: after the first parameter, the byte fills slot 2. -/
theorem Framer.feedParam_second {f : Framer} (h : f.state = .collecting) (hk : f.k ≠ 0) (b : Byte) :
    f.feedParam b =
      { f with p2 := paramValue b, k := f.k + 1, rem := f.rem - 1, state := if f.rem = 1 then .complete else .collecting } := by
  rw [← feedParam_state h b]
  simp only [feedParam, if_neg hk]

/-- Settles O47: a collecting framer takes the value into its next slot; where an opcode is awaited the byte is a stray. -/
theorem paramFillsTheNextSlotOrIsAStray : Obligations.ParamFillsTheNextSlotOrIsAStray := by
  intro v s
  have hByte := isOpcodeByte_paramByte v
  refine ⟨fun hState hk => ?_, fun hState hk => ?_, fun hState => ?_⟩
  · rw [exec_param, Framer.feedByte_param hState hByte, Framer.feedParam_first hState hk, paramValue_paramByte]
  · rw [exec_param, Framer.feedByte_param hState hByte, Framer.feedParam_second hState hk, paramValue_paramByte]
  · rw [exec_param, Framer.feedByte_stray (by simp [hState]) hByte]

/-! ## A framer that does not accept (R81) -/

/-- Settles O49: neither byte class reaches a framer that does not accept. -/
theorem noByteIsTakenOutsideTheAcceptingStates : Obligations.NoByteIsTakenOutsideTheAcceptingStates := by
  intro v fc s hState
  have hClosed := (Framer.accepts_eq_false_iff _).2 hState
  exact ⟨by rw [exec_param, Framer.feedByte_of_not_accepts hClosed], by rw [exec_reservedN3, feedReserved_not_accepts hClosed]⟩

end Sys2Proof.Machine
end

section
/-! Settles O56: what each agent does to the framer, and that only a reply leaves a complete command (R89). -/
namespace Sys2Proof.Machine

open Sys2Proof.Safety

/-! ## Polling, the receive path and the environment leave the framer alone -/

@[simp] theorem pollDigital_framer (d : DigId) (s : State) : (pollDigital d s).framer = s.framer := by rw [pollDigital_eq]

@[simp] theorem pollAnalog_framer (a : AnId) (s : State) : (pollAnalog a s).framer = s.framer := by rw [pollAnalog_eq]

theorem pollStep_framer (s : State) : (pollStep s).framer = s.framer := by
  obtain ⟨_, e | ⟨d, e⟩ | ⟨a, e⟩⟩ := pollStep_next s <;> rw [e]
  · exact pollDigital_framer d s
  · exact pollAnalog_framer a s

theorem waitReleaseStep_framer {s t : State} (h : waitReleaseStep s = .next t) : t.framer = s.framer := by
  rcases waitReleaseStep_next h with rfl | ⟨_, _, rfl⟩ <;> rfl

theorem environmentStep_framer {e : Event} (s : State) (he : isReset e = false) : (environmentStep e s).framer = s.framer := by
  rcases environmentStep_cases e s with h | ⟨_, -, -, -, h⟩ | ⟨_, h, -⟩ | ⟨_, rfl | rfl, -⟩
  case inr.inr.inr.inl | inr.inr.inr.inr => cases he
  all_goals rw [h]

/-- A DRAIN step feeds nothing to a complete command: it ends the drain (R132). -/
theorem drainStep_of_complete {s : State} (h : s.framer.state = .complete) :
    drainStep s = .next { s with seq := { s.seq with phase := .dispatch } } :=
  drainStep_ends (.inr (.inr ((Framer.accepts_eq_false_iff _).2 (.inl h))))

/-! ## DISPATCH answers -/

/-- Every command leaves the framer ready, behind an ACK or a NAK (R87, R88). -/
theorem exec_command_reply {i : Instr} {s t : State} (hCommand : isCommand i = true) (h : exec i s = .next t) :
    t.framer = s.framer.ready ∧ (t.tx.getLast? = some 0x21 ∨ t.tx.getLast? = some 0x3F) := by
  rcases exec_command s hCommand with ⟨-, _, _, _, _, _, _, -, -, e⟩ | ⟨-, e⟩ <;> rw [e] at h <;> cases h
  · exact ⟨rfl, .inl List.getLast?_concat⟩
  · exact ⟨rfl, .inr List.getLast?_concat⟩

/-- A DISPATCH step with a complete command runs a command and goes on to polling (R133). -/
theorem dispatchStep_of_complete {s t : State} (hComplete : s.framer.state = .complete) (h : dispatchStep s = .next t) :
    ∃ i u, isCommand i = true ∧ exec i s = .next u ∧ t = { u with seq := { u.seq with ch := 0, phase := .poll } } := by
  obtain ⟨i, hInstr⟩ : ∃ i, dispatchInstr s = some i := ⟨_, if_pos hComplete⟩
  obtain ⟨u, hExec⟩ := exec_next i s
  rw [dispatchStep_runs hInstr hExec] at h
  cases h
  exact ⟨i, u, dispatchInstr_isCommand hInstr, hExec, rfl⟩

/-- Settles O56: of all the steps but those of reset, only DISPATCH changes a framer that holds a complete command. -/
theorem completeIsLeftOnlyByAReply : Obligations.CompleteIsLeftOnlyByAReply := by
  intro s t h hReset hComplete hChanged
  rw [← takeEvent_framer s] at hComplete hChanged
  rcases step_cases h with ⟨-, rfl⟩ | ⟨-, -, rfl⟩ | ⟨-, -, -, rfl⟩ | ⟨-, -, -, hDrain⟩ | ⟨hTurn, -, hPhase, hDispatch⟩ |
    ⟨-, -, -, rfl⟩ | ⟨-, -, -, hWait⟩
  · exact absurd (environmentStep_framer _ hReset) hChanged
  · exact absurd rfl hChanged
  · exact absurd rfl hChanged
  · rw [drainStep_of_complete hComplete] at hDrain
    cases hDrain
    exact absurd rfl hChanged
  · obtain ⟨i, u, hCommand, hExec, rfl⟩ := dispatchStep_of_complete hComplete hDispatch
    obtain ⟨hReady, hReply⟩ := exec_command_reply hCommand hExec
    exact ⟨hTurn, hPhase, congrArg Framer.state hReady, hReply⟩
  · exact absurd (pollStep_framer _) hChanged
  · exact absurd (waitReleaseStep_framer hWait) hChanged

end Sys2Proof.Machine
end

section
/-! Settles O57 and O58: the invariant of the core holds at reset and every step keeps it (R4, R17, R20, R33, R43, R85, R93, R132 to R136,
R156, R172). The invariant is taken apart into what holds of the registers wherever the tick is, and what each phase adds. -/
namespace Sys2Proof.Machine

open Sys2Proof.Safety

/-! ## The channels -/

/-- One analog channel under the parameters: its tag (R33), its period (R4, R23), its threshold (R156). -/
structure AnalogOk (p : Params) (a : AnId) (c : AnalogChannel) : Prop where
  tag : c.src = p.tags.analog a
  period : ∃ k, (k, c.period) ∈ p.rates
  threshold : c.thr.toNat % 8 = 0

/-- `ChannelsOk`, said of the registers that it reads. -/
structure BanksOk (p : Params) (ana : AnalogBank) (dig : DigitalBank) : Prop where
  analog : ∀ a, AnalogOk p a (ana.get a)
  digital : ∀ d, (dig.get d).src = p.tags.digital d

theorem channelsOk_iff {s : State} : ChannelsOk s ↔ BanksOk s.par s.ana s.dig :=
  ⟨fun h => ⟨fun a => ⟨h.analogTag a, h.period a, h.threshold a⟩, h.digitalTag⟩,
    fun h => ⟨fun a => (h.analog a).tag, h.digital, fun a => (h.analog a).period, fun a => (h.analog a).threshold⟩⟩

section Banks

variable {p : Params} {ana : AnalogBank} {dig : DigitalBank}

theorem BanksOk.setAnalog (h : BanksOk p ana dig) {a : AnId} {c : AnalogChannel} (hc : AnalogOk p a c) :
    BanksOk p (ana.set a c) dig where
  analog a' := by
    rw [AnalogBank.get_set]
    split
    case isTrue hSame => exact hSame ▸ hc
    case isFalse => exact h.analog a'
  digital := h.digital

theorem BanksOk.setDigital (h : BanksOk p ana dig) {d : DigId} {c : DigitalChannel} (hc : c.src = (dig.get d).src) :
    BanksOk p ana (dig.set d c) where
  analog := h.analog
  digital d' := by
    rw [DigitalBank.get_set]
    split
    case isTrue hSame => rw [hc, hSame, h.digital]
    case isFalse => exact h.digital d'

theorem BanksOk.mapAnalog (h : BanksOk p ana dig) {f : AnId → AnalogChannel → AnalogChannel}
    (hf : ∀ a c, AnalogOk p a c → AnalogOk p a (f a c)) : BanksOk p (ana.mapAll f) dig where
  analog a := by rw [AnalogBank.get_mapAll]; exact hf a _ (h.analog a)
  digital := h.digital

theorem BanksOk.mapDigital (h : BanksOk p ana dig) {f : DigId → DigitalChannel → DigitalChannel}
    (hf : ∀ d c, (f d c).src = c.src) : BanksOk p ana (dig.mapAll f) where
  analog := h.analog
  digital d := by rw [DigitalBank.get_mapAll, hf, h.digital]

theorem BanksOk.mapBoth (h : BanksOk p ana dig) {f : AnId → AnalogChannel → AnalogChannel}
    {g : DigId → DigitalChannel → DigitalChannel} (hg : ∀ d c, (g d c).src = c.src)
    (hf : ∀ a c, AnalogOk p a c → AnalogOk p a (f a c)) : BanksOk p (ana.mapAll f) (dig.mapAll g) :=
  (h.mapDigital hg).mapAnalog hf

end Banks

/-- A poll writes none of the registers that `AnalogOk` reads (R2, R33, R44). -/
theorem AnalogOk.poll {p : Params} {a : AnId} {c : AnalogChannel} (h : AnalogOk p a c) (r : Raw) (t : Micros) (b : Bit) :
    AnalogOk p a (c.poll r t b).chan := by
  obtain ⟨hPeriod, -, hThr, -, -, hSrc⟩ := c.poll_config r t b
  exact ⟨hSrc ▸ h.tag, hPeriod ▸ h.period, hThr ▸ h.threshold⟩

/-- Every instruction keeps the channels: ARM, HALT, MDE_SYNC and MDE_ASTOP write other registers of them, MDE_ASAMPTIME writes a period of the
table (R154) and MDE_ATRIG a threshold that is shifted by 3 (R156). -/
theorem exec_channelsOk {i : Instr} {s t : State} (h : exec i s = .next t) (hOk : ChannelsOk s) : ChannelsOk t := by
  rw [channelsOk_iff] at hOk ⊢
  cases i with
  | arm m =>
    rw [exec_arm] at h; cases h; dsimp only
    exact hOk.mapBoth (fun _ _ => by split <;> rfl) fun _ _ hc => by split <;> exact { hc with }
  | halt =>
    rw [exec_halt] at h; cases h; dsimp only
    exact hOk.mapBoth (fun _ _ => rfl) fun _ _ hc => { hc with }
  | mdeSync =>
    rw [exec_mdeSync] at h; cases h; dsimp only
    exact hOk.mapBoth (fun _ _ => rfl) fun _ _ hc => { hc with }
  | mdeAstop n =>
    rw [exec_mdeAstop] at h; cases h; dsimp only
    exact hOk.mapAnalog fun _ _ hc => { hc with }
  | mdeAsamptime c =>
    cases hRate : ratePeriod s.par c with
    | some p =>
      rw [exec_mdeAsamptime_ok hRate] at h; cases h; dsimp only
      exact hOk.mapAnalog fun _ _ hc => { hc with period := ⟨c, ratePeriod_mem hRate⟩ }
    | none => rw [exec_mdeAsamptime_bad hRate] at h; cases h; exact hOk
  | mdeAtrig k th =>
    cases hCond : conditionOf k with
    | some cond =>
      have hThreshold : (thresholdOf th).toNat % 8 = 0 := by rw [thresholdOf_toNat, Nat.mul_mod_right]
      rw [exec_mdeAtrig_ok th hCond] at h; cases h; dsimp only
      exact hOk.mapAnalog fun _ _ hc => { hc with threshold := hThreshold }
    | none => rw [exec_mdeAtrig_bad th hCond] at h; cases h; exact hOk
  | mdeDtrig e =>
    cases hMode : edgeModeOf e with
    | some m =>
      rw [exec_mdeDtrig_ok hMode] at h; cases h; dsimp only
      exact hOk.mapDigital fun _ _ => rfl
    | none => rw [exec_mdeDtrig_bad hMode] at h; cases h; exact hOk
  | stAnalog n =>
    by_cases hBad : n ≠ 0 ∧ selectedAnalog n = none
    · rw [exec_stAnalog_bad hBad.1 hBad.2] at h; cases h; exact hOk
    · rw [exec_stAnalog_ok hBad] at h; cases h; exact hOk
  | reservedN3 fc =>
    rw [exec_reservedN3] at h; cases h
    cases hAccepts : s.framer.accepts with
    | true => rw [feedReserved_accepts hAccepts]; exact hOk
    | false => rw [feedReserved_not_accepts hAccepts]; exact hOk
  | _ => cases h; exact hOk

/-! ## The time source -/

/-- A step that reads the time, or does not, leaves it within its duty (R172). -/
theorem timeOk_of_noted {s t : State} (h : TimeOk s) (hNow : t.ports.nowUs = s.ports.nowUs)
    (hLast : t.ports.lastNow = s.ports.lastNow ∨ t.ports.lastNow = s.ports.nowUs) : TimeOk t := by
  rcases hLast with hLast | hLast <;> rw [TimeOk, hNow, hLast]
  · exact h
  · rw [sub_self]; decide

/-! ## The invariant, by phase -/

/-- What the invariant says wherever the tick is. -/
structure RegistersOk (s : State) : Prop where
  par : s.par.wf = true
  framer : FramerOk s.framer
  notInvalid : s.framer.state ≠ .invalid
  budget : s.seq.budget ≤ s.rxq.length
  depth : s.rxq.length ≤ s.par.rxDepth
  channels : ChannelsOk s
  time : TimeOk s

/-- What the invariant adds in each phase: channel 0 outside polling (R133, R134), no complete command but in DRAIN and DISPATCH (R136), and
the channel that WAIT_RELEASE waits for (R17). -/
def PlaceOk (s : State) : Prop :=
  match s.seq.phase with
  | .idle => s.seq.ch = 0 ∧ s.framer.state ≠ .complete
  | .drain | .dispatch => s.seq.ch = 0
  | .poll => s.framer.state ≠ .complete
  | .waitRelease => HeldByButtonChannel s ∧ s.framer.state ≠ .complete

theorem placeOk_iff {s : State} :
    PlaceOk s ↔ (s.seq.phase ≠ .poll → s.seq.phase ≠ .waitRelease → s.seq.ch = 0) ∧
      (s.seq.phase = .waitRelease → HeldByButtonChannel s) ∧
      (s.framer.state = .complete → s.seq.phase = .drain ∨ s.seq.phase = .dispatch) := by
  unfold PlaceOk
  cases s.seq.phase <;> simp

theorem coreInv_iff {s : State} : CoreInv s ↔ RegistersOk s ∧ PlaceOk s := by
  rw [placeOk_iff]
  exact ⟨fun ⟨hPar, hFramer, hSeq, hChannels, hTime⟩ =>
      ⟨⟨hPar, hFramer, hSeq.notInvalid, hSeq.budget, hSeq.depth, hChannels, hTime⟩, hSeq.channel, hSeq.wait, hSeq.complete⟩,
    fun ⟨h, hChannel, hWait, hComplete⟩ =>
      ⟨h.par, h.framer, ⟨h.budget, h.depth, hChannel, hWait, hComplete, h.notInvalid⟩, h.channels, h.time⟩⟩

/-- Moving the place in the tick keeps the registers, as long as the FIFO covers the budget. -/
theorem RegistersOk.moved {s : State} (h : RegistersOk s) {seq : Sequencer} (hBudget : seq.budget ≤ s.rxq.length) :
    RegistersOk { s with seq := seq } :=
  { h with budget := hBudget, channels := { h.channels with } }

/-! ## Reset -/

theorem framerOk_reset : FramerOk Framer.reset := by
  constructor <;> simp [Framer.reset]

/-- The reset period is an entry of the table (R4). -/
theorem Params.resetSamplePeriod_mem {p : Params} (h : p.wf = true) : ∃ k, (k, p.resetSamplePeriod) ∈ p.rates := by
  obtain ⟨⟨k, t⟩, hMem, hEq⟩ := List.any_eq_true.1 (Params.wf_resetPeriodInTable h)
  exact ⟨k, beq_iff_eq.1 hEq ▸ hMem⟩

/-- The registers of R180 meet the invariant, under parameters of R3 and R4 and a time source within its duty. -/
theorem coreInv_ofReset {p : Params} {ports : Ports} (sched : List Event) (drawn : Nat) (hPar : p.wf = true)
    (hTime : (ports.nowUs - ports.lastNow).toNat < 2 ^ 31) : CoreInv (State.ofReset p ports sched drawn) := by
  have hChannels : ChannelsOk (State.ofReset p ports sched drawn) :=
    { analogTag := fun a => by cases a <;> rfl
      digitalTag := fun d => by cases d <;> rfl
      period := fun a => by cases a <;> exact Params.resetSamplePeriod_mem hPar
      threshold := fun a => by cases a <;> rfl }
  exact coreInv_iff.2
    ⟨⟨hPar, framerOk_reset, FramerState.noConfusion, Nat.le_refl 0, Nat.zero_le _, hChannels, hTime⟩, rfl, FramerState.noConfusion⟩

/-- Settles O57: the parameters of the core are well formed, and at reset no time has passed since the last read. -/
theorem resetMeetsTheInvariant : Obligations.ResetMeetsTheInvariant :=
  coreInv_ofReset _ _ Config.params_wf (by rw [Ports.reset, sub_self]; decide)

/-! ## The receive path and the environment -/

/-- The record of events is outside the invariant. -/
theorem takeEvent_coreInv {s : State} (h : CoreInv s) : CoreInv (takeEvent s) := by
  rw [takeEvent_eq]
  exact { h with sequencer := { h.sequencer with }, channels := { h.channels with } }

theorem environmentStep_coreInv {s : State} (h : CoreInv s) (e : Event) : CoreInv (environmentStep e s) := by
  rcases environmentStep_cases e s with hNew | ⟨b, -, -, hRoom, hNew⟩ | ⟨ports, hNew, -, hLast, hNow⟩ | ⟨rst, -, hNew⟩ <;> rw [hNew]
  · exact h
  · have hLength : (s.rxq ++ [b]).length = s.rxq.length + 1 := List.length_append
    exact { h with
      sequencer := { h.sequencer with budget := hLength ▸ Nat.le_succ_of_le h.sequencer.budget, depth := hLength ▸ hRoom }
      channels := { h.channels with } }
  · have hTime : TimeOk { s with ports := ports } := by
      rcases hNow with hSame | hWithin
      · exact timeOk_of_noted h.time hSame (.inl hLast)
      · exact hWithin
    exact { h with sequencer := { h.sequencer with }, channels := { h.channels with }, time := hTime }
  · exact coreInv_ofReset _ _ h.par h.time

/-! ## The sequencer -/

theorem tickStart_coreInv {s : State} (h : CoreInv s) (hPhase : s.seq.phase = .idle) : CoreInv (tickStart s) := by
  obtain ⟨hRegs, hPlace⟩ := coreInv_iff.1 h
  rw [PlaceOk, hPhase] at hPlace
  exact coreInv_iff.2 ⟨hRegs.moved (Nat.le_refl _), hPlace.1⟩

/-- A DRAIN step that takes the byte at the head of RXQ, whatever framer and TX it leaves. -/
theorem RegistersOk.fed {s : State} (h : RegistersOk s) {b : Byte} {rest : List Byte} (hQueue : s.rxq = b :: rest) {f : Framer}
    (hFramer : FramerOk f) (hValid : f.state ≠ .invalid) (tx : List Byte) :
    RegistersOk { s with rxq := rest, seq := { s.seq with budget := s.seq.budget - 1 }, tx := tx, framer := f } := by
  have hBudget := h.budget
  have hDepth := h.depth
  rw [hQueue, List.length_cons] at hBudget hDepth
  exact { h with
    framer := hFramer, notInvalid := hValid, channels := { h.channels with }
    budget := Nat.sub_le_of_le_add hBudget, depth := Nat.le_of_succ_le hDepth }

theorem drainStep_coreInv {s t : State} (h : CoreInv s) (hPhase : s.seq.phase = .drain) (hStep : drainStep s = .next t) :
    CoreInv t := by
  obtain ⟨hRegs, hPlace⟩ := coreInv_iff.1 h
  rw [PlaceOk, hPhase] at hPlace
  rcases drainStep_cases s with ⟨b, rest, hQueue, -, -, ⟨hValid, e⟩ | ⟨-, e⟩⟩ | e <;> rw [e] at hStep <;> cases hStep <;>
    refine coreInv_iff.2 ⟨?_, ?_⟩
  · exact hRegs.fed hQueue (Framer.feedByte_framerOk hRegs.framer b) hValid _
  · rw [PlaceOk, hPhase]; exact hPlace
  · exact hRegs.fed hQueue (Framer.ready_framerOk _) FramerState.noConfusion _
  · rw [PlaceOk, hPhase]; exact hPlace
  · exact hRegs.moved hRegs.budget
  · exact hPlace

/-- A command leaves the registers as the invariant wants them, and the framer ready. -/
theorem exec_command_registersOk {i : Instr} {s t : State} (h : RegistersOk s) (hCommand : isCommand i = true)
    (hExec : exec i s = .next t) : RegistersOk t := by
  have hChannels := exec_channelsOk hExec h.channels
  have hFramer := Framer.ready_framerOk s.framer
  rcases exec_command s hCommand with ⟨-, _, _, _, _, last, _, -, hLast, e⟩ | ⟨-, e⟩ <;> rw [e] at hExec <;> cases hExec
  · exact { h with
      framer := hFramer, notInvalid := FramerState.noConfusion, channels := hChannels
      time := timeOk_of_noted h.time rfl hLast }
  · exact { h with framer := hFramer, notInvalid := FramerState.noConfusion, channels := hChannels }

theorem dispatchStep_coreInv {s t : State} (h : CoreInv s) (hStep : dispatchStep s = .next t) : CoreInv t := by
  obtain ⟨hRegs, -⟩ := coreInv_iff.1 h
  by_cases hComplete : s.framer.state = .complete
  · obtain ⟨i, u, hCommand, hExec, rfl⟩ := dispatchStep_of_complete hComplete hStep
    have hReady : u.framer.state = .awaitingOpcode := congrArg Framer.state (exec_command_reply hCommand hExec).1
    have hRegs' := exec_command_registersOk hRegs hCommand hExec
    exact coreInv_iff.2 ⟨hRegs'.moved hRegs'.budget, by simp [PlaceOk, hReady]⟩
  · rw [dispatchStep_empty hComplete] at hStep
    cases hStep
    exact coreInv_iff.2 ⟨hRegs.moved hRegs.budget, hComplete⟩

theorem pollDigital_registersOk {s : State} (h : RegistersOk s) (d : DigId) : RegistersOk (pollDigital d s) := by
  obtain ⟨-, -, hSrc, -⟩ := (s.dig.get d).poll_config (s.ports.digIn d) s.ports.nowUs
  rw [pollDigital_eq]
  exact { h with
    channels := channelsOk_iff.2 ((channelsOk_iff.1 h.channels).setDigital hSrc)
    time := timeOk_of_noted h.time rfl (ite_eq_or_eq ..).symm }

theorem pollAnalog_registersOk {s : State} (h : RegistersOk s) (a : AnId) : RegistersOk (pollAnalog a s) := by
  have hBanks := channelsOk_iff.1 h.channels
  rw [pollAnalog_eq]
  exact { h with
    channels := channelsOk_iff.2 (hBanks.setAnalog ((hBanks.analog a).poll ..))
    time := timeOk_of_noted h.time rfl (ite_eq_or_eq ..).symm }

theorem completeReading_registersOk {s : State} (h : RegistersOk s) (a : AnId) : RegistersOk (completeReading a s) := by
  have hBanks := channelsOk_iff.1 h.channels
  exact { h with
    channels := channelsOk_iff.2 (hBanks.setAnalog { hBanks.analog a with })
    time := timeOk_of_noted h.time rfl (.inr rfl) }

/-- A blocked poll is one of a channel that may hold the sequencer in WAIT_RELEASE (R17, R107). -/
theorem analogOutcome_wait {s : State} {a : AnId} (hChannel : chanAt s.seq.ch = .an a) (h : (analogOutcome a s).result = .wait) :
    HeldByButtonChannel s := by
  obtain ⟨hRun, hPeriod, hBelow, -⟩ := AnalogChannel.poll_wait h
  exact ⟨a, hChannel, hRun, hPeriod, hBelow⟩

theorem pollStep_coreInv {s : State} (h : CoreInv s) (hPhase : s.seq.phase = .poll) : CoreInv (pollStep s) := by
  obtain ⟨hRegs, hPlace⟩ := coreInv_iff.1 h
  rw [PlaceOk, hPhase] at hPlace
  rcases pollStep_cases s with ⟨d, -, -, e⟩ | ⟨a, hChannel, hWait, e⟩ | ⟨a, -, -, -, e⟩ | ⟨a, -, -, -, e⟩ <;> rw [e] <;>
    refine coreInv_iff.2 ⟨?_, ?_⟩
  · exact (pollDigital_registersOk hRegs d).moved (by simpa using hRegs.budget)
  · simpa [PlaceOk, hPhase] using hPlace
  · exact hRegs.moved hRegs.budget
  · exact ⟨analogOutcome_wait hChannel hWait, hPlace⟩
  · exact (pollAnalog_registersOk hRegs a).moved (by simpa using hRegs.budget)
  · simpa [PlaceOk] using hPlace
  · exact (pollAnalog_registersOk hRegs a).moved (by simpa using hRegs.budget)
  · simpa [PlaceOk, hPhase] using hPlace

theorem waitReleaseStep_coreInv {s t : State} (h : CoreInv s) (hPhase : s.seq.phase = .waitRelease)
    (hStep : waitReleaseStep s = .next t) : CoreInv t := by
  obtain ⟨hRegs, hPlace⟩ := coreInv_iff.1 h
  rw [PlaceOk, hPhase] at hPlace
  obtain ⟨⟨a, hChannel, -⟩, hResting⟩ := hPlace
  have hRead := completeReading_registersOk hRegs a
  rcases waitReleaseStep_cases hChannel with ⟨-, e⟩ | ⟨-, -, e⟩ | ⟨-, -, e⟩ <;> rw [e] at hStep <;> cases hStep
  · exact h
  · exact coreInv_iff.2 ⟨hRead.moved hRegs.budget, rfl, hResting⟩
  · exact coreInv_iff.2 ⟨hRead.moved hRegs.budget, hResting⟩

/-- Settles O58: each agent's step keeps the invariant, on the state with the event taken. -/
theorem stepKeepsTheInvariant : Obligations.StepKeepsTheInvariant := by
  intro s t h hStep
  have hTaken := takeEvent_coreInv h
  rcases step_cases hStep with ⟨-, rfl⟩ | ⟨-, -, rfl⟩ | ⟨-, -, hPhase, rfl⟩ | ⟨-, -, hPhase, hDrain⟩ | ⟨-, -, -, hDispatch⟩ |
    ⟨-, -, hPhase, rfl⟩ | ⟨-, -, hPhase, hWait⟩
  · exact environmentStep_coreInv hTaken _
  · exact hTaken
  · exact tickStart_coreInv hTaken (by rwa [takeEvent_seq])
  · exact drainStep_coreInv hTaken (by rwa [takeEvent_seq]) hDrain
  · exact dispatchStep_coreInv hTaken hDispatch
  · exact pollStep_coreInv hTaken (by rwa [takeEvent_seq])
  · exact waitReleaseStep_coreInv hTaken (by rwa [takeEvent_seq]) hWait

end Sys2Proof.Machine
end

section
/-! Settles O10 to O12: what stands in each byte of a blob, and that a host reads the four fields back (R95, R97, R98). -/
namespace Sys2Proof.Machine

/-! ## The layout -/

/-- Concatenation places the left part above the right one. -/
theorem toNat_append_eq_add {m n : Nat} (x : BitVec m) (y : BitVec n) : (x ++ y).toNat = 2 ^ n * x.toNat + y.toNat := by
  rw [BitVec.toNat_append, ← Nat.shiftLeft_add_eq_or_of_lt y.isLt, Nat.shiftLeft_eq, Nat.mul_comm]

/-- A cut of `n` bits at bit `k` divides by `2 ^ k` and keeps the remainder modulo `2 ^ n`. -/
theorem toNat_extractLsb'_eq_div_mod {w : Nat} (x : BitVec w) (k n : Nat) : (x.extractLsb' k n).toNat = x.toNat / 2 ^ k % 2 ^ n := by
  rw [BitVec.extractLsb'_toNat, Nat.shiftRight_eq_div_pow]

/-- Settles O10: each byte is a cut of one field, or two cuts put together. -/
theorem blobBytesFollowTheLayout : Obligations.BlobBytesFollowTheLayout := by
  intro seq raw src ts b
  have hTs := ts.isLt
  refine ⟨rfl, ?_, ?_, ?_, ?_, ?_, ?_, ?_, rfl⟩ <;>
    simp only [b, encodeBlob, toNat_append_eq_add, toNat_extractLsb'_eq_div_mod, BitVec.toNat_setWidth] <;> omega

/-! ## The host's side -/

/-- The host's shifts put all of byte 1 above the top three bits of byte 2. -/
theorem seqField_eq_append (b : Blob) : b.seqField = b.b1 ++ b.b2.extractLsb' 5 3 := by
  have hLow : ∀ c : Byte, (c >>> 5).setWidth 11 = (c.extractLsb' 5 3).setWidth 11 := by decide
  rw [← BitVec.setWidth_eq (b.b1 ++ _), BitVec.setWidth_append_eq_shiftLeft_setWidth_or, ← hLow, Blob.seqField]

/-- The host's mask and shifts put the low five bits of byte 2 above the top five of byte 3. -/
theorem rawField_eq_append (b : Blob) : b.rawField = b.b2.extractLsb' 0 5 ++ b.b3.extractLsb' 3 5 := by
  have hHigh : ∀ c : Byte, (c &&& 0x1F).setWidth 10 = (c.extractLsb' 0 5).setWidth 10 := by decide
  have hLow : ∀ c : Byte, (c >>> 3).setWidth 10 = (c.extractLsb' 3 5).setWidth 10 := by decide
  rw [← BitVec.setWidth_eq (_ ++ _), BitVec.setWidth_append_eq_shiftLeft_setWidth_or, ← hHigh, ← hLow, Blob.rawField]

theorem srcField_eq_setWidth (b : Blob) : b.srcField = b.b3.setWidth 3 := by
  have hMask : ∀ c : Byte, (c &&& 0x07).setWidth 3 = c.setWidth 3 := by decide
  exact hMask b.b3

theorem tsField_eq_append (b : Blob) : b.tsField = b.b4 ++ b.b5 ++ b.b6 ++ b.b7 := by
  rw [← BitVec.setWidth_eq (_ ++ b.b7), BitVec.setWidth_append_append_append_eq_shiftLeft_setWidth_or, Blob.tsField]

section Recovery
variable (seq : Count) (raw : Raw) (src : Byte) (ts : Micros)

@[simp] theorem encodeBlob_seqField : (encodeBlob seq raw src ts).seqField = seq.setWidth 11 := by
  rw [seqField_eq_append, encodeBlob, BitVec.extractLsb'_append_eq_left, BitVec.extractLsb'_append_extractLsb' (w := 8) (len := 3)]

@[simp] theorem encodeBlob_rawField : (encodeBlob seq raw src ts).rawField = raw.setWidth 10 := by
  rw [rawField_eq_append, encodeBlob, BitVec.extractLsb'_append_eq_left, BitVec.extractLsb'_append_eq_right,
    BitVec.extractLsb'_append_extractLsb' (w := 5) (len := 5)]

@[simp] theorem encodeBlob_srcField : (encodeBlob seq raw src ts).srcField = src.setWidth 3 := by
  rw [srcField_eq_setWidth, encodeBlob, BitVec.setWidth_append_eq_right]

@[simp] theorem encodeBlob_tsField : (encodeBlob seq raw src ts).tsField = ts := by
  rw [tsField_eq_append]
  simp only [encodeBlob, BitVec.extractLsb'_append_extractLsb'_eq_extractLsb', BitVec.extractLsb'_eq_self]

end Recovery

/-- Settles O11: the four fields, as numbers. -/
theorem hostRecoversTheBlobFields : Obligations.HostRecoversTheBlobFields := by
  intro seq raw src ts
  rw [encodeBlob_seqField, encodeBlob_rawField, encodeBlob_srcField, encodeBlob_tsField]
  exact ⟨BitVec.toNat_setWidth .., BitVec.toNat_setWidth .., BitVec.toNat_setWidth .., rfl⟩

/-- Cut to `n` bits, two words agree exactly when their values agree modulo `2 ^ n`. -/
theorem setWidth_eq_setWidth_iff_mod {w n : Nat} {x y : BitVec w} :
    x.setWidth n = y.setWidth n ↔ x.toNat % 2 ^ n = y.toNat % 2 ^ n := by
  rw [← BitVec.toNat_inj, BitVec.toNat_setWidth, BitVec.toNat_setWidth]

/-- A blob carries the four fields and nothing else (R98). -/
theorem encodeBlob_eq_iff {seq seq' : Count} {raw raw' : Raw} {src src' : Byte} {ts ts' : Micros} :
    encodeBlob seq raw src ts = encodeBlob seq' raw' src' ts' ↔
      seq.setWidth 11 = seq'.setWidth 11 ∧ raw.setWidth 10 = raw'.setWidth 10 ∧ src.setWidth 3 = src'.setWidth 3 ∧ ts = ts' := by
  constructor
  · intro h
    exact ⟨by simpa using congrArg Blob.seqField h, by simpa using congrArg Blob.rawField h,
      by simpa using congrArg Blob.srcField h, by simpa using congrArg Blob.tsField h⟩
  · rintro ⟨hSeq, hRaw, hSrc, rfl⟩
    rw [encodeBlob, hSeq, hRaw, hSrc, encodeBlob]

/-- Settles O12: equal blobs give equal fields to the host, and the encoder reads nothing of its operands but these fields. -/
theorem blobsAgreeExactlyModuloTheFields : Obligations.BlobsAgreeExactlyModuloTheFields := by
  intro seq seq' raw raw' src src' ts ts'
  exact encodeBlob_eq_iff.trans (and_congr setWidth_eq_setWidth_iff_mod
    (and_congr setWidth_eq_setWidth_iff_mod (and_congr_left' setWidth_eq_setWidth_iff_mod)))

end Sys2Proof.Machine
end

section
/-! Settles O13 to O17: what a poll of an analog channel does in each of its states, and how many readings a stop count lets through (R102 to
R110, R118, R135). -/
namespace Sys2Proof.Machine

open Sys2Proof.Safety

/-! ## Time -/

/-- Settles O16: within half the range the difference modulo `2 ^ 32` is the plain one, or `2 ^ 32` less what the plain one lacks. -/
theorem timeComparisonIsExactWithinHalfTheRange : Obligations.TimeComparisonIsExactWithinHalfTheRange := by
  intro t x hAhead hBehind
  have hT := t.isLt
  have hX := x.isLt
  rw [timeReached_iff, BitVec.toNat_sub]
  omega

/-! ## A poll in each state -/

section Poll
variable {c : AnalogChannel} {r : Raw} {t : Micros} {b : Bit}

theorem AnalogChannel.stopReached_eq_false_iff : c.stopReached = false ↔ c.stop = 0 ∨ c.count.toNat < c.stop.toNat := by
  rw [← Bool.not_eq_true, stopReached_iff, not_and_or, not_not, Nat.not_le]

theorem AnalogChannel.poll_of_halt (hState : c.state = .halt) :
    c.poll r t b = { result := .nodata, chan := c, readsTime := false } := by
  simpa [hState] using c.poll_cases r t b

theorem AnalogChannel.poll_of_stopReached (hState : c.state = .run) (hStop : c.stopReached = true) :
    c.poll r t b = { result := .nodata, chan := { c with state := .halt }, readsTime := false } := by
  simpa [hState, hStop] using c.poll_cases r t b

theorem AnalogChannel.poll_of_period_eq_zero (hState : c.state = .run) (hStop : c.stopReached = false) (hPeriod : c.period = 0) :
    c.poll r t b = c.buttonStep b := by
  simp only [poll, hState, hStop, if_pos hPeriod]; rfl

theorem AnalogChannel.poll_of_period_ne_zero (hState : c.state = .run) (hStop : c.stopReached = false) (hPeriod : c.period ≠ 0) :
    c.poll r t b = c.periodicStep r t := by
  simp only [poll, hState, hStop, if_neg hPeriod]; rfl

/-! ## The trigger -/

/-- A condition other than Immediate records the read (R105). -/
theorem AnalogChannel.evalTrigger_snd :
    (c.evalTrigger r).2 = if c.cond = .immediate then c else { c with tprev := r, tprevValid := true } := by
  cases h : c.cond <;> simp [evalTrigger, h]

/-- When the condition fires (R105): the two crossings compare two reads with the threshold (D25). -/
theorem AnalogChannel.evalTrigger_fst_iff :
    (c.evalTrigger r).1 = true ↔
      c.cond = .immediate ∨
      (c.cond = .riseAbove ∧ c.tprevValid = true ∧ c.tprev.toNat ≤ c.thr.toNat ∧ c.thr.toNat < r.toNat) ∨
      (c.cond = .fallBelow ∧ c.tprevValid = true ∧ c.thr.toNat ≤ c.tprev.toNat ∧ r.toNat < c.thr.toNat) := by
  have hThreshold : (c.thr.setWidth 16).toNat = c.thr.toNat := BitVec.toNat_setWidth_of_le (by decide)
  cases h : c.cond <;> simp [evalTrigger, h, BitVec.ule, BitVec.ult, hThreshold, and_assoc, -BitVec.toNat_setWidth]

end Poll

/-! ## The poll in every case -/

/-- Settles O13: a poll in Halt, at the stop count, and in button-gated mode. -/
theorem analogPollWithoutReading : Obligations.AnalogPollWithoutReading := by
  intro c r t b
  refine ⟨AnalogChannel.poll_of_halt, ?_, ?_⟩
  · intro hState hStop hCount
    exact AnalogChannel.poll_of_stopReached hState (c.stopReached_iff.2 ⟨hStop, hCount⟩)
  · intro hState hBelow hPeriod
    rw [AnalogChannel.poll_of_period_eq_zero hState (AnalogChannel.stopReached_eq_false_iff.2 hBelow) hPeriod]
    exact ⟨fun hReleased => by rw [hReleased]; rfl, fun hPressed => by rw [hPressed]; rfl⟩

/-- Settles O14: the two outcomes of trigger evaluation. -/
theorem armedChannelRunsOnItsTrigger : Obligations.ArmedChannelRunsOnItsTrigger := by
  intro c r t b hState fires seen
  have hFires : (c.evalTrigger r).1 = true ↔ fires := AnalogChannel.evalTrigger_fst_iff
  have hSeen : (c.evalTrigger r).2 = seen := AnalogChannel.evalTrigger_snd
  have hPoll := c.poll_cases r t b
  rw [hSeen] at hPoll
  constructor
  · intro h
    simpa [hState, hFires.2 h] using hPoll
  · intro h
    simpa [hState, Bool.eq_false_iff.2 (hFires.not.2 h)] using hPoll

/-- Settles O15: a periodic poll below the stop count is decided by the time comparison alone. -/
theorem periodicPollReadsWhenDue : Obligations.PeriodicPollReadsWhenDue := by
  intro c r t b hState hBelow hPeriod
  rw [AnalogChannel.poll_of_period_ne_zero hState (AnalogChannel.stopReached_eq_false_iff.2 hBelow) hPeriod]
  exact ⟨fun hDue => if_pos ((timeReached_iff ..).2 hDue), fun hEarly => if_neg ((timeReached_iff ..).not.2 hEarly.not_gt)⟩

/-! ## Readings and the stop count -/

/-- One service reports one reading, of a channel below its stop count, or it reports none and keeps count and stop count. -/
theorem serveAnalog_cases (i : AnalogInput) (c : AnalogChannel) :
    (c.stopReached = false ∧ ∃ r t, serveAnalog i c = (.data, c.takeReading r t)) ∨
    (∃ c', serveAnalog i c = (.nodata, c') ∧ c'.count = c.count ∧ c'.stop = c.stop) := by
  have hTrigger := c.evalTrigger_chan i.raw
  rcases c.poll_cases i.raw i.time i.button with ⟨-, e⟩ | ⟨-, -, e⟩ | ⟨-, -, e⟩ | ⟨-, -, e⟩ | ⟨-, hBelow, -, -, e⟩ |
    ⟨-, -, -, -, e⟩ | ⟨-, hBelow, -, -, e⟩ | ⟨-, -, -, -, e⟩ <;> rw [serveAnalog, e]
  case inr.inr.inr.inr.inl => exact .inl ⟨hBelow, i.releaseRaw, i.releaseTime, rfl⟩
  case inr.inr.inr.inr.inr.inr.inl => exact .inl ⟨hBelow, i.raw, i.time, rfl⟩
  case inr.inl | inr.inr.inl => exact .inr ⟨_, rfl, by rw [hTrigger], by rw [hTrigger]⟩
  all_goals exact .inr ⟨_, rfl, rfl, rfl⟩

theorem serveReadings_cons {i : AnalogInput} {c c' : AnalogChannel} {p : PollResult} (h : serveAnalog i c = (p, c'))
    (is : List AnalogInput) : serveReadings (i :: is) c = (p :: (serveReadings is c').1, (serveReadings is c').2) := by
  rw [serveReadings, h]

@[simp] theorem dataCount_cons_data (rs : List PollResult) : dataCount (.data :: rs) = dataCount rs + 1 := List.count_cons_self

@[simp] theorem dataCount_cons_nodata (rs : List PollResult) : dataCount (.nodata :: rs) = dataCount rs :=
  List.count_cons_of_ne (by decide)

/-- No service writes the stop count. -/
theorem serveReadings_stop (is : List AnalogInput) (c : AnalogChannel) : (serveReadings is c).2.stop = c.stop := by
  induction is generalizing c with
  | nil => rfl
  | cons i is ih =>
    rcases serveAnalog_cases i c with ⟨-, r, t, e⟩ | ⟨c', e, -, hStop⟩ <;> rw [serveReadings_cons e]
    · exact ih _
    · exact (ih c').trans hStop

/-- Below a stop count, which has 14 bits, a reading adds one to the count without wrapping. -/
theorem AnalogChannel.takeReading_count_toNat {c : AnalogChannel} (h : c.count.toNat < c.stop.toNat) (r : Raw) (t : Micros) :
    (c.takeReading r t).count.toNat = c.count.toNat + 1 := by
  have hStop := c.stop.isLt
  exact BitVec.toNat_add_of_lt (show c.count.toNat + 1 < 2 ^ 32 by omega)

/-- The readings reported are what the count advances by, and it advances to the stop count at most. -/
theorem serveReadings_count (is : List AnalogInput) (c : AnalogChannel) (hStop : c.stop ≠ 0) (hCount : c.count.toNat ≤ c.stop.toNat) :
    dataCount (serveReadings is c).1 + c.count.toNat = (serveReadings is c).2.count.toNat ∧
      (serveReadings is c).2.count.toNat ≤ c.stop.toNat := by
  induction is generalizing c with
  | nil => exact ⟨Nat.zero_add _, hCount⟩
  | cons i is ih =>
    rcases serveAnalog_cases i c with ⟨hBelow, r, t, e⟩ | ⟨c', e, hSameCount, hSameStop⟩ <;> rw [serveReadings_cons e]
    · have hLess := (AnalogChannel.stopReached_eq_false_iff.1 hBelow).resolve_left hStop
      have hNext := AnalogChannel.takeReading_count_toNat hLess r t
      obtain ⟨hSum, hBound⟩ := ih (c.takeReading r t) hStop (hNext.trans_le hLess)
      refine ⟨?_, hBound⟩
      rw [dataCount_cons_data, Nat.add_right_comm, Nat.add_assoc, ← hNext, hSum]
    · rw [dataCount_cons_nodata, ← hSameCount, ← hSameStop]
      exact ih c' (hSameStop ▸ hStop) (by rwa [hSameCount, hSameStop])

/-- Settles O17: the count records the readings, and at the stop count the next poll halts the channel. -/
theorem stopCountBoundsTheReadings : Obligations.StopCountBoundsTheReadings := by
  intro is c hStop hCount
  obtain ⟨hSum, hBound⟩ := serveReadings_count is c hStop hCount
  refine ⟨hSum, hBound, fun hState hLast r t b => ?_⟩
  have hReached : (serveReadings is c).2.stopReached = true := by
    rw [AnalogChannel.stopReached_iff, serveReadings_stop]
    exact ⟨hStop, hLast.ge⟩
  rw [AnalogChannel.poll_of_stopReached hState hReached]
  exact ⟨rfl, rfl⟩

end Sys2Proof.Machine
end

section
/-! Settles O19 and O20: what a poll of a digital channel does in each case (R122), and how many reports a square wave gives (R127). -/
namespace Sys2Proof.Machine

open Sys2Proof.Safety

/-! ## The edge modes -/

/-- The transitions that a mode reports (R122). -/
theorem EdgeMode.matchesEdge_iff {m : EdgeMode} {l : Bit} :
    m.matchesEdge l = true ↔ m = .any ∨ (m = .risingOnly ∧ l = 1) ∨ (m = .fallingOnly ∧ l = 0) := by
  revert l; cases m <;> decide

/-- The transitions that a mode passes over (R122). -/
theorem EdgeMode.matchesEdge_eq_false_iff {m : EdgeMode} {l : Bit} :
    m.matchesEdge l = false ↔ (m = .risingOnly ∧ l = 0) ∨ (m = .fallingOnly ∧ l = 1) := by
  revert l; cases m <;> decide

/-- How many of the two transitions of a full cycle a mode reports (R127). -/
def EdgeMode.reportsPerCycle : EdgeMode → Nat
  | .any => 2
  | .risingOnly => 1
  | .fallingOnly => 1

theorem EdgeMode.matchesEdge_cycle (m : EdgeMode) (l : Bit) :
    (m.matchesEdge (l ^^^ 1)).toNat + (m.matchesEdge l).toNat = m.reportsPerCycle := by
  revert l; cases m <;> decide

theorem EdgeMode.reportsPerCycle_of_ne_any {m : EdgeMode} (h : m ≠ .any) : m.reportsPerCycle = 1 := by
  cases m with
  | any => exact absurd rfl h
  | risingOnly => rfl
  | fallingOnly => rfl

theorem flipLevel_ne (l : Bit) : l ^^^ 1 ≠ l := by
  revert l; decide

theorem flipLevel_flipLevel (l : Bit) : l ^^^ 1 ^^^ 1 = l := by
  revert l; decide

/-! ## A poll in each case -/

section Poll
variable {c : DigitalChannel} {l : Bit} {t : Micros}

theorem DigitalChannel.poll_of_halt (hState : c.state = .halt) :
    c.poll l t = { result := .nodata, chan := c, readsTime := false } := by
  simpa [hState] using c.poll_cases l t

/-- An unchanged level is no transition, whether the channel runs or not. -/
theorem DigitalChannel.poll_of_sameLevel (hLevel : l = c.level) :
    c.poll l t = { result := .nodata, chan := c, readsTime := false } := by
  cases hState : c.state with
  | halt => exact poll_of_halt hState
  | run => simpa [hState, hLevel] using c.poll_cases l t

theorem DigitalChannel.poll_of_match (hState : c.state = .run) (hLevel : l ≠ c.level) (hMatch : c.mode.matchesEdge l = true) :
    c.poll l t = { result := .data, chan := { c with level := l }.recordMatch l t, readsTime := true } := by
  simpa [hState, hLevel, hMatch, recordMatch] using c.poll_cases l t

theorem DigitalChannel.poll_of_mismatch (hState : c.state = .run) (hLevel : l ≠ c.level)
    (hMatch : c.mode.matchesEdge l = false) :
    c.poll l t = { result := .nodata, chan := { c with level := l }, readsTime := false } := by
  simpa [hState, hLevel, hMatch] using c.poll_cases l t

end Poll

/-- Settles O19: a poll in every case. -/
theorem digitalPollReportsMatchingTransitions : Obligations.DigitalPollReportsMatchingTransitions := by
  intro c l t
  refine ⟨DigitalChannel.poll_of_halt, fun _ hLevel => DigitalChannel.poll_of_sameLevel hLevel, ?_, ?_⟩
  · intro hState hLevel hMatch
    exact DigitalChannel.poll_of_match hState hLevel (EdgeMode.matchesEdge_iff.2 hMatch)
  · intro hState hLevel hMismatch
    exact DigitalChannel.poll_of_mismatch hState hLevel (EdgeMode.matchesEdge_eq_false_iff.2 hMismatch)

/-! ## A sequence of polls -/

/-- How many reports one poll makes: one if it gives data. -/
def DigitalPoll.reports (o : DigitalPoll) : Nat := if o.result = .data then 1 else 0

theorem pollLevels_cons (l : Bit) (t : Micros) (ps : List (Bit × Micros)) (c : DigitalChannel) :
    pollLevels ((l, t) :: ps) c =
      ((c.poll l t).reports + (pollLevels ps (c.poll l t).chan).1, (pollLevels ps (c.poll l t).chan).2) := rfl

/-- A poll adds to the count what it reports. -/
theorem DigitalChannel.poll_count (c : DigitalChannel) (l : Bit) (t : Micros) :
    (c.poll l t).chan.count = c.count + BitVec.ofNat 32 (c.poll l t).reports := by
  rcases c.poll_cases l t with ⟨-, e⟩ | ⟨-, -, e⟩ | ⟨-, -, -, e⟩ | ⟨-, -, -, e⟩ <;> rw [e] <;> simp [DigitalPoll.reports]

/-- Whatever the levels, the count records the reports. -/
theorem pollLevels_count (ps : List (Bit × Micros)) (c : DigitalChannel) :
    (pollLevels ps c).2.count = c.count + BitVec.ofNat 32 (pollLevels ps c).1 := by
  induction ps generalizing c with
  | nil => exact (BitVec.add_zero _).symm
  | cons p ps ih =>
    obtain ⟨l, t⟩ := p
    rw [pollLevels_cons, ih, DigitalChannel.poll_count, BitVec.ofNat_add, BitVec.add_assoc]

/-- Polls that see the recorded level do nothing. -/
theorem pollLevels_steady (ts : List Micros) (ps : List (Bit × Micros)) (c : DigitalChannel) :
    pollLevels (ts.map (fun t => (c.level, t)) ++ ps) c = pollLevels ps c := by
  induction ts with
  | nil => rfl
  | cons t ts ih =>
    rw [List.map_cons, List.cons_append, pollLevels_cons, DigitalChannel.poll_of_sameLevel rfl, ih]
    exact Prod.ext (Nat.zero_add _) rfl

/-! ## A square wave -/

/-- A poll that sees a transition records its level, and reports it if the mode matches. -/
theorem DigitalChannel.poll_of_transition {c : DigitalChannel} {l : Bit} (hState : c.state = .run) (hLevel : l ≠ c.level)
    (t : Micros) : (c.poll l t).chan.level = l ∧ (c.poll l t).reports = (c.mode.matchesEdge l).toNat := by
  cases hMatch : c.mode.matchesEdge l with
  | true => rw [poll_of_match hState hLevel hMatch]; exact ⟨rfl, rfl⟩
  | false => rw [poll_of_mismatch hState hLevel hMatch]; exact ⟨rfl, rfl⟩

/-- One half cycle, however often it is polled, makes the one transition that its first poll sees; the rest of the wave starts from the
channel which that poll leaves. -/
theorem pollLevels_halfCycle {c : DigitalChannel} {ts : List Micros} (hState : c.state = .run) (hPolled : ts ≠ []) :
    ∃ c', c'.state = .run ∧ c'.mode = c.mode ∧ c'.level = c.level ^^^ 1 ∧ ∀ wave,
      (pollLevels (squareWave c.level (ts :: wave)) c).1 =
        (c.mode.matchesEdge c'.level).toNat + (pollLevels (squareWave c'.level wave) c').1 := by
  obtain ⟨t, ts, rfl⟩ := List.exists_cons_of_ne_nil hPolled
  obtain ⟨hMode, -, -, hKeep⟩ := c.poll_config (c.level ^^^ 1) t
  obtain ⟨hLevel, hReports⟩ := DigitalChannel.poll_of_transition hState (flipLevel_ne c.level) t
  refine ⟨(c.poll (c.level ^^^ 1) t).chan, hKeep.trans hState, hMode, hLevel, fun wave => ?_⟩
  have hSteady := pollLevels_steady ts (squareWave (c.level ^^^ 1) wave) (c.poll (c.level ^^^ 1) t).chan
  rw [hLevel] at hSteady
  rw [squareWave, List.map_cons, List.cons_append, pollLevels_cons, hSteady, hReports, hLevel]

/-- A full cycle brings the level back, so a square wave gives the same number of reports in each of its cycles. -/
theorem pollLevels_squareWave (k : Nat) (c : DigitalChannel) (wave : List (List Micros)) (hState : c.state = .run)
    (hLength : wave.length = 2 * k) (hPolled : ∀ ts ∈ wave, ts ≠ []) :
    (pollLevels (squareWave c.level wave) c).1 = c.mode.reportsPerCycle * k := by
  induction k generalizing c wave with
  | zero => rw [List.length_eq_zero_iff.1 hLength]; rfl
  | succ k ih =>
    match wave, hLength with
    | ts₁ :: ts₂ :: rest, hLength =>
      obtain ⟨hPolled₁, hPolled₂, hRest⟩ : ts₁ ≠ [] ∧ ts₂ ≠ [] ∧ ∀ ts ∈ rest, ts ≠ [] := by simpa using hPolled
      obtain ⟨c₁, hState₁, hMode₁, hLevel₁, hFirst⟩ := pollLevels_halfCycle hState hPolled₁
      obtain ⟨c₂, hState₂, hMode₂, hLevel₂, hSecond⟩ := pollLevels_halfCycle hState₁ hPolled₂
      have hBack : c₂.level = c.level := by rw [hLevel₂, hLevel₁, flipLevel_flipLevel]
      have hCycles := ih c₂ rest hState₂ (by simpa [Nat.mul_succ] using hLength) hRest
      calc (pollLevels (squareWave c.level (ts₁ :: ts₂ :: rest)) c).1
          = (c.mode.matchesEdge (c.level ^^^ 1)).toNat + ((c.mode.matchesEdge c.level).toNat + c.mode.reportsPerCycle * k) := by
            rw [hFirst, hSecond, hCycles, hMode₂, hMode₁, hBack, hLevel₁]
        _ = c.mode.reportsPerCycle * (k + 1) := by
            rw [← Nat.add_assoc, EdgeMode.matchesEdge_cycle, Nat.mul_succ, Nat.add_comm]

/-- Settles O20: the mode says how many reports each cycle gives, and the count records them. -/
theorem squareWaveIsCountedByMode : Obligations.SquareWaveIsCountedByMode := by
  intro k c wave hState hLength hPolled
  have hReports := pollLevels_squareWave k c wave hState hLength hPolled
  refine ⟨fun hAny => ?_, fun hOneEdge => ?_⟩
  · rw [pollLevels_count, hReports, hAny]
    exact ⟨rfl, rfl⟩
  · rw [pollLevels_count, hReports, EdgeMode.reportsPerCycle_of_ne_any hOneEdge, Nat.one_mul]
    exact ⟨rfl, rfl⟩

end Sys2Proof.Machine
end

section
/-! Settles O28, O29 and O31 to O33: what one turn of the sequencer does in each phase (R131 to R135). -/
namespace Sys2Proof.Machine

open Sys2Proof.Safety

/-! ## The place in the tick -/

/-- The place after a channel is served: the next index, or the end of the tick (R134). -/
def Sequencer.nextPlace (q : Sequencer) : Sequencer :=
  if q.ch = 5 then { q with ch := 0, phase := .idle } else { q with ch := q.ch + 1 }

/-- The place after the poll of an analog channel with result `r`: a blocked poll holds the index (R134). -/
def Sequencer.placeAfter (r : PollResult) (q : Sequencer) : Sequencer :=
  if r = .wait then { q with phase := .waitRelease } else q.nextPlace

theorem advancePoll_eq (s : State) : advancePoll s = { s with seq := s.seq.nextPlace } := by
  by_cases hLast : s.seq.ch = 5
  · rw [advancePoll_last hLast, Sequencer.nextPlace, if_pos hLast]
  · rw [advancePoll_more hLast, Sequencer.nextPlace, if_neg hLast]

section Place
variable {q : Sequencer} {a : AnId} {d : DigId}

theorem chanAt_analog_last_iff {c : Fin 6} (h : chanAt c = .an a) : c = 5 ↔ a = .an102 := by
  revert c; cases a <;> decide

theorem chanAt_digital_ne_last {c : Fin 6} (h : chanAt c = .dig d) : c ≠ 5 := by
  rintro rfl; cases h

theorem Sequencer.nextPlace_of_digital (h : chanAt q.ch = .dig d) : q.nextPlace = { q with ch := q.ch + 1 } :=
  if_neg (chanAt_digital_ne_last h)

theorem Sequencer.nextPlace_of_last (h : chanAt q.ch = .an .an102) : q.nextPlace = { q with ch := 0, phase := .idle } :=
  if_pos ((chanAt_analog_last_iff h).2 rfl)

theorem Sequencer.nextPlace_of_more (h : chanAt q.ch = .an a) (hMore : a ≠ .an102) :
    q.nextPlace.ch.val = q.ch.val + 1 ∧ q.nextPlace.phase = q.phase := by
  have hNotLast : q.ch ≠ 5 := fun hLast => hMore ((chanAt_analog_last_iff h).1 hLast)
  rw [nextPlace, if_neg hNotLast]
  exact ⟨Fin.val_add_one_of_lt (Fin.lt_last_iff_ne_last.2 hNotLast), rfl⟩

/-- Serving a channel keeps the budget and the epoch. -/
theorem Sequencer.nextPlace_keeps (q : Sequencer) : q.nextPlace.budget = q.budget ∧ q.nextPlace.epoch = q.epoch := by
  unfold nextPlace
  split <;> exact ⟨rfl, rfl⟩

/-- A poll keeps the budget and the epoch. -/
theorem Sequencer.placeAfter_keeps (r : PollResult) (q : Sequencer) :
    (q.placeAfter r).budget = q.budget ∧ (q.placeAfter r).epoch = q.epoch := by
  unfold placeAfter
  split
  · exact ⟨rfl, rfl⟩
  · exact q.nextPlace_keeps

end Place

/-! ## The step of each phase -/

/-- The state with the next event taken, for proofs that read its registers off. -/
theorem exists_takeEvent (s : State) : ∃ sched drawn, takeEvent s = { s with sched := sched, drawn := drawn } :=
  ⟨_, _, takeEvent_eq s⟩

section Turn
variable {s : State} (hTurn : nextEvent s = .sequencer) (hRst : s.ports.rst = false)
include hTurn hRst

theorem step_of_idle (hPhase : s.seq.phase = .idle) : step s = .next (tickStart (takeEvent s)) := by
  rw [step_sequencer hTurn hRst, sequencerStep, takeEvent_seq, hPhase]

theorem step_of_drain (hPhase : s.seq.phase = .drain) : step s = drainStep (takeEvent s) := by
  rw [step_sequencer hTurn hRst, sequencerStep, takeEvent_seq, hPhase]

theorem step_of_dispatch (hPhase : s.seq.phase = .dispatch) : step s = dispatchStep (takeEvent s) := by
  rw [step_sequencer hTurn hRst, sequencerStep, takeEvent_seq, hPhase]

theorem step_of_poll (hPhase : s.seq.phase = .poll) : step s = .next (pollStep (takeEvent s)) := by
  rw [step_sequencer hTurn hRst, sequencerStep, takeEvent_seq, hPhase]

theorem step_of_waitRelease (hPhase : s.seq.phase = .waitRelease) : step s = waitReleaseStep (takeEvent s) := by
  rw [step_sequencer hTurn hRst, sequencerStep, takeEvent_seq, hPhase]

end Turn

@[simp] theorem pollDigital_seq (d : DigId) (s : State) : (pollDigital d s).seq = s.seq := by rw [pollDigital_eq]

@[simp] theorem pollAnalog_seq (a : AnId) (s : State) : (pollAnalog a s).seq = s.seq := by rw [pollAnalog_eq]

/-- POLL at a digital index polls that channel and passes the turn on (R134). -/
theorem pollStep_of_digital {s : State} {d : DigId} (h : chanAt s.seq.ch = .dig d) :
    pollStep s = { pollDigital d s with seq := s.seq.nextPlace } := by
  simp only [pollStep, h]
  rw [advancePoll_eq, pollDigital_seq]

/-- POLL at an analog index polls that channel and moves on as the result says (R134). -/
theorem pollStep_of_analog {s : State} {a : AnId} (h : chanAt s.seq.ch = .an a) :
    pollStep s = { pollAnalog a s with seq := s.seq.placeAfter (analogOutcome a s).result } := by
  simp only [pollStep, h]
  split
  case isTrue hWait =>
    rw [hWait, setPhase, pollAnalog_seq]
    rfl
  case isFalse hPassed => rw [advancePoll_eq, pollAnalog_seq, Sequencer.placeAfter, if_neg hPassed]

/-- WAIT_RELEASE with the button pressed holds (assumption 5). -/
theorem waitReleaseStep_of_pressed {s : State} {a : AnId} (h : chanAt s.seq.ch = .an a) (hButton : s.ports.button = 1) :
    waitReleaseStep s = .next s := by
  simp only [waitReleaseStep, h, if_pos hButton]

/-- WAIT_RELEASE with the button released completes the reading and passes the turn on (R135). -/
theorem waitReleaseStep_of_released {s : State} {a : AnId} (h : chanAt s.seq.ch = .an a) (hButton : s.ports.button ≠ 1) :
    waitReleaseStep s =
      .next { completeReading a s with seq := Sequencer.nextPlace { s.seq with phase := .poll } } := by
  simp only [waitReleaseStep, h, if_neg hButton, advancePoll_eq]
  rfl

/-! ## TICK_START and DRAIN -/

/-- Settles O28: TICK_START, and DISPATCH where there is nothing to run. -/
theorem tickStartAndEmptyDispatchMoveOn : Obligations.TickStartAndEmptyDispatchMoveOn := by
  intro s hTurn hRst
  constructor
  · intro hPhase
    rw [step_of_idle hTurn hRst hPhase, tickStart, takeEvent_seq, takeEvent_rxq]
    rfl
  · intro hPhase hEmpty
    rw [step_of_dispatch hTurn hRst hPhase, dispatchStep_empty (by rwa [takeEvent_framer]), takeEvent_seq]

/-- Settles O29: the byte fed decides between the two cases of a drain that goes on. -/
theorem drainFeedsOneByteOrEnds : Obligations.DrainFeedsOneByteOrEnds := by
  intro s hTurn hRst hPhase
  rw [step_of_drain hTurn hRst hPhase]
  constructor
  · intro b rest hQueue hBudget hAccepts
    have hFeeds := drainStep_feeds (s := takeEvent s) (b := b) (rest := rest) (by simpa) (by simpa) (by simpa)
    simp only [takeEvent_framer, takeEvent_seq, takeEvent_tx] at hFeeds
    constructor
    · intro hValid
      simpa [hValid] using hFeeds
    · intro hInvalid
      simpa [hInvalid, Framer.ready] using hFeeds
  · intro hNone
    rw [drainStep_ends (by simpa using hNone), takeEvent_seq]

/-! ## POLL and WAIT_RELEASE -/

/-- Settles O31: the equation of the step, read off register by register. -/
theorem pollStepServesADigitalChannel : Obligations.PollStepServesADigitalChannel := by
  intro s d hTurn hRst hPhase hIndex
  have hChannel : chanAt s.seq.ch = .dig d := chanAt_of_digital hIndex
  obtain ⟨sched, drawn, hTaken⟩ := exists_takeEvent s
  rw [step_of_poll hTurn hRst hPhase, pollStep_of_digital (by rwa [takeEvent_seq]), pollDigital_eq, hTaken]
  refine ⟨_, rfl, rfl, fun hData => ?_, fun hNone => ?_, Sequencer.nextPlace_of_digital hChannel, rfl, rfl, rfl, rfl, rfl,
    rfl, rfl, rfl⟩
  · simp only [DigitalBank.get_set_same, if_pos hData]
    rfl
  · simp [hNone]

/-- Settles O32: the equation of the step, read off register by register; the place is `Sequencer.placeAfter`. -/
theorem pollStepServesAnAnalogChannel : Obligations.PollStepServesAnAnalogChannel := by
  intro s a hTurn hRst hPhase hIndex o
  have hChannel : chanAt s.seq.ch = .an a := chanAt_of_analog hIndex
  obtain ⟨hBudget, hEpoch⟩ := s.seq.placeAfter_keeps o.result
  obtain ⟨sched, drawn, hTaken⟩ := exists_takeEvent s
  rw [step_of_poll hTurn hRst hPhase, pollStep_of_analog (by rwa [takeEvent_seq]), pollAnalog_eq, hTaken]
  refine ⟨_, rfl, rfl, fun hData => ?_, fun hNone => ?_, fun hWait => if_pos hWait, fun hPassed hMore => ?_, fun hPassed hLast => ?_,
    hBudget, hEpoch, rfl, rfl, rfl, rfl, rfl, rfl, rfl, rfl⟩
  · simp only [AnalogBank.get_set_same]
    exact congrArg (s.tx ++ ·) (if_pos hData)
  · exact (congrArg (s.tx ++ ·) (if_neg hNone)).trans (List.append_nil _)
  · have hPlace : s.seq.placeAfter o.result = s.seq.nextPlace := if_neg hPassed
    exact hPhase ▸ hPlace ▸ Sequencer.nextPlace_of_more hChannel hMore
  · have hPlace : s.seq.placeAfter o.result = { s.seq with ch := 0, phase := .idle } :=
      (if_neg hPassed).trans (Sequencer.nextPlace_of_last (hLast ▸ hChannel))
    exact ⟨congrArg Sequencer.ch hPlace, congrArg Sequencer.phase hPlace⟩

/-- Settles O33: the hold, and the equation of the completed reading read off register by register. -/
theorem buttonReleaseCompletesTheReading : Obligations.ButtonReleaseCompletesTheReading := by
  intro s a hTurn hRst hPhase hIndex
  have hChannel : chanAt s.seq.ch = .an a := chanAt_of_analog hIndex
  obtain ⟨hBudget, hEpoch⟩ := Sequencer.nextPlace_keeps { s.seq with phase := .poll }
  obtain ⟨sched, drawn, hTaken⟩ := exists_takeEvent s
  have hTakenChannel : chanAt (takeEvent s).seq.ch = .an a := by rwa [takeEvent_seq]
  rw [step_of_waitRelease hTurn hRst hPhase]
  refine ⟨fun hPressed => waitReleaseStep_of_pressed hTakenChannel (by rwa [takeEvent_ports]), fun hReleased => ?_⟩
  rw [waitReleaseStep_of_released hTakenChannel (by simp [hReleased]), completeReading_eq, hTaken]
  refine ⟨_, rfl, AnalogBank.get_set_same .., fun a' hOther => ?_, ?_, fun hMore => ?_, fun hLast => ?_, hBudget, hEpoch, rfl, rfl, rfl,
    rfl, rfl, rfl, rfl, rfl⟩
  · simp only [AnalogBank.get_set, if_neg hOther]
  · simp only [AnalogBank.get_set_same]
    rfl
  · exact Sequencer.nextPlace_of_more (q := { s.seq with phase := .poll }) hChannel hMore
  · rw [Sequencer.nextPlace_of_last (q := { s.seq with phase := .poll }) (hLast ▸ hChannel)]
    exact ⟨rfl, rfl⟩

end Sys2Proof.Machine
end

section
/-! Settles O30: the bytes held by a complete framer, or the oldest byte of RXQ, decode to the instruction that the step runs (R75, R132,
R133). -/
namespace Sys2Proof.Machine

open Sys2Proof.Safety

/-! ## The slots that a command reads -/

/-- A row without parameters reads neither slot (R69, R73). -/
theorem instr_of_count_zero {r : MapRow} (h : r.count = 0) (p1 p2 : Digit) : r.instr p1 p2 = r.instr 0 0 := by
  revert h; cases r <;> simp [MapRow.count, MapRow.instr]

/-- A row with one parameter does not read the second slot (R69, R73). -/
theorem instr_of_count_one {r : MapRow} (h : r.count = 1) (p1 p2 : Digit) : r.instr p1 p2 = r.instr p1 0 := by
  revert h; cases r <;> simp [MapRow.count, MapRow.instr]

theorem decodeCommand_count_zero (p : Params) (fc : BitVec 5) (p1 p2 : Digit) :
    decodeCommand p fc 0 p1 p2 = decodeCommand p fc 0 0 0 := by
  cases hRow : handlerFor p fc 0 with
  | none => simp only [decodeCommand, hRow]; rfl
  | some r => simp only [decodeCommand, hRow]; exact instr_of_count_zero (handlerFor_some hRow).2 p1 p2

theorem decodeCommand_count_one (p : Params) (fc : BitVec 5) (p1 p2 : Digit) :
    decodeCommand p fc 1 p1 p2 = decodeCommand p fc 1 p1 0 := by
  cases hRow : handlerFor p fc 1 with
  | none => simp only [decodeCommand, hRow]; rfl
  | some r => simp only [decodeCommand, hRow]; exact instr_of_count_one (handlerFor_some hRow).2 p1 p2

/-! ## What the bytes decode to -/

/-- A complete command decodes to a command, never to a byte class (R75, R77). -/
theorem isCommand_decodeCommand (p : Params) (fc : BitVec 5) (n : BitVec 2) (p1 p2 : Digit) :
    isCommand (decodeCommand p fc n p1 p2) = true := by
  cases hRow : handlerFor p fc n with
  | none => simp only [decodeCommand, hRow]; rfl
  | some r =>
    simp only [decodeCommand, hRow]
    cases r with
    | st => rw [MapRow.instr]; split <;> rfl
    | _ => rfl

/-- The bytes that a complete framer holds decode to what DISPATCH runs (R75, R133). -/
theorem decode_heldBytes {s : State} (hComplete : s.framer.state = .complete) (hOk : FramerOk s.framer) :
    ∃ i, dispatchInstr s = some i ∧ decode s.par (heldBytes s.framer) = .ok i [] := by
  obtain ⟨hOpcode, hCount, -, -⟩ := hOk.complete hComplete
  refine ⟨_, if_pos hComplete, ?_⟩
  have hCases : paramCount s.framer.op = 0 ∨ paramCount s.framer.op = 1 ∨ paramCount s.framer.op = 2 := by
    generalize paramCount s.framer.op = n at hCount ⊢
    revert n; decide
  rcases hCases with hn | hn | hn
  · rw [hn, decodeCommand_count_zero]
    simp [heldBytes, decode, decodeParams, collected, hOpcode, hn]
  · rw [hn, decodeCommand_count_one]
    simp [heldBytes, decode, decodeParams, collected, hOpcode, hn]
  · simp [heldBytes, decode, decodeParams, collected, hOpcode, hn]

/-- A byte that decodes by itself, and not to a command, is the instruction that DRAIN runs (assumption 15). -/
theorem byteInstr_of_decode {p : Params} {b : Byte} {i : Instr} (hByte : isCommand i = false) (h : decode p [b] = .ok i []) :
    byteInstr b = some i := by
  rcases byteInstr_cases b with ⟨hOpcode, e⟩ | ⟨hOpcode, hCount, e⟩ | ⟨hOpcode, hCount, e⟩
  · simpa [decode, hOpcode, e] using h
  · simpa [decode, hOpcode, hCount, e] using h
  · rw [decode, if_pos hOpcode, if_neg hCount] at h
    by_cases hZero : paramCount b = 0
    · rw [decodeParams, if_pos hZero] at h
      cases h
      exact absurd (isCommand_decodeCommand ..) (Bool.eq_false_iff.1 hByte)
    · rw [decodeParams, if_neg hZero] at h
      cases h

/-- Settles O30: in DISPATCH through the bytes that the framer holds, in DRAIN through the oldest byte. -/
theorem stepRunsTheDecodedInstruction : Obligations.StepRunsTheDecodedInstruction := by
  intro s i hTurn hRst
  constructor
  · intro hPhase hComplete hOk hDecode
    obtain ⟨j, hInstr, hHeld⟩ := decode_heldBytes hComplete hOk
    have hSame : j = i := by simpa [hHeld] using hDecode
    obtain ⟨u, hExec⟩ := exec_next i (takeEvent s)
    rw [step_of_dispatch hTurn hRst hPhase, dispatchStep_runs ((dispatchInstr_takeEvent s).trans (hSame ▸ hInstr)) hExec, hExec]
  · intro b rest hPhase hQueue hBudget hAccepts hByte hDecode
    have hFed : drainByte (takeEvent s) = some b := drainByte_cons (rest := rest) (by simpa) (by simpa) (by simpa)
    rw [step_of_drain hTurn hRst hPhase]
    simp only [drainStep, hFed, byteInstr_of_decode hByte hDecode]
    rw [popByte_eq (b := b) (rest := rest) (by simpa), takeEvent_seq]

end Sys2Proof.Machine
end

section
/-! Settles O34, O59 and O60: the core never stops, the sequencer's turn comes, and its turns bring a tick to its end (R138 to R140). -/
namespace Sys2Proof.Machine

open Sys2Proof.Safety

/-! ## A step is always taken -/

/-- The sequencer can always move, but in WaitRelease at a digital index (assumption 6). -/
theorem sequencerStep_next {s : State} (h : s.seq.phase = .waitRelease → ∃ a, chanAt s.seq.ch = .an a) :
    ∃ t, sequencerStep s = .next t := by
  cases hPhase : s.seq.phase <;> simp only [sequencerStep, hPhase]
  case idle => exact ⟨_, rfl⟩
  case drain =>
    rcases drainStep_cases s with ⟨_, _, -, -, -, ⟨-, e⟩ | ⟨-, e⟩⟩ | e <;> exact ⟨_, e⟩
  case dispatch =>
    cases hInstr : dispatchInstr s with
    | none => exact ⟨_, by rw [dispatchStep, hInstr]⟩
    | some i => exact (exec_next i s).elim fun u hExec => ⟨_, dispatchStep_runs hInstr hExec⟩
  case poll => exact ⟨_, rfl⟩
  case waitRelease =>
    obtain ⟨a, hChannel⟩ := h hPhase
    by_cases hButton : s.ports.button = 1
    · exact ⟨_, waitReleaseStep_of_pressed hChannel hButton⟩
    · exact ⟨_, waitReleaseStep_of_released hChannel hButton⟩

theorem step_next {s : State} (h : s.seq.phase = .waitRelease → ∃ a, chanAt s.seq.ch = .an a) : ∃ t, step s = .next t := by
  by_cases hTurn : nextEvent s = .sequencer
  · cases hRst : s.ports.rst with
    | true => exact ⟨_, step_held hTurn hRst⟩
    | false =>
      rw [step_sequencer hTurn hRst]
      exact sequencerStep_next (by rwa [takeEvent_seq])
  · exact ⟨_, step_environment rfl hTurn⟩

/-- Settles O59: the invariant gives WaitRelease an analog channel (R17). -/
theorem coreNeverStops : Obligations.CoreNeverStops := by
  intro s h
  refine step_next fun hPhase => ?_
  obtain ⟨a, hChannel, -⟩ := h.sequencer.wait hPhase
  exact ⟨a, hChannel⟩

/-! ## Runs, one step at a time -/

theorem eventsOf_next {s t : State} (h : step s = .next t) (n : Nat) : eventsOf (n + 1) s = nextEvent s :: eventsOf n t := by
  simp only [eventsOf, h]

theorem statesOf_next {s t : State} (h : step s = .next t) (n : Nat) : statesOf (n + 1) s = t :: statesOf n t := by
  simp only [statesOf, h]

/-! ## The sequencer's turn comes -/

/-- An event of the receive path or of the environment leaves the sequencer and `rst` alone, or it is one of reset and leads to Idle. -/
theorem environmentStep_place (e : Event) (s : State) :
    ((environmentStep e s).seq = s.seq ∧ (environmentStep e s).ports.rst = s.ports.rst) ∨
      (isReset e = true ∧ (environmentStep e s).seq.phase = .idle) := by
  rcases environmentStep_cases e s with h | ⟨_, -, -, -, h⟩ | ⟨_, h, hRst, -⟩ | ⟨_, rfl | rfl, h⟩ <;> rw [h]
  · exact .inl ⟨rfl, rfl⟩
  · exact .inl ⟨rfl, rfl⟩
  · exact .inl ⟨rfl, hRst⟩
  · exact .inr ⟨rfl, rfl⟩
  · exact .inr ⟨rfl, rfl⟩

/-- The events before the sequencer's turn are taken one by one; the list is finite, so the turn comes (R139). -/
theorem exists_run_to_turn (s : State) :
    ∃ (n : Nat) (t : State), n ≤ s.sched.length ∧ Host.Core.run core n s = .next t ∧ nextEvent t = .sequencer ∧
      ((∀ e ∈ eventsOf n s, isReset e = false) → t.seq = s.seq ∧ t.ports.rst = s.ports.rst) ∧
      (s.seq.phase = .idle → t.seq.phase = .idle) := by
  induction hSched : s.sched generalizing s with
  | nil => exact ⟨0, s, Nat.le_refl 0, rfl, nextEvent_nil hSched, fun _ => ⟨rfl, rfl⟩, id⟩
  | cons e es ih =>
    by_cases hTurn : nextEvent s = .sequencer
    · exact ⟨0, s, Nat.zero_le _, rfl, hTurn, fun _ => ⟨rfl, rfl⟩, id⟩
    · have hStep := step_environment rfl hTurn
      have hRest : (environmentStep (nextEvent s) (takeEvent s)).sched = es := by rw [environmentStep_sched, takeEvent_cons hSched]
      have hPlace := environmentStep_place (nextEvent s) (takeEvent s)
      obtain ⟨n, t, hLength, hRun, hNext, hKept, hIdle⟩ := ih _ hRest
      rw [takeEvent_seq, takeEvent_ports] at hPlace
      refine ⟨n + 1, t, Nat.succ_le_succ hLength, (core_run_next hStep).trans hRun, hNext, fun hEvents => ?_, fun hPhase => ?_⟩
      · rw [eventsOf_next hStep, List.forall_mem_cons] at hEvents
        obtain ⟨hNoReset, hEvents⟩ := hEvents
        obtain ⟨hSeq, hRst⟩ := hPlace.resolve_right (by simp [hNoReset])
        exact ⟨(hKept hEvents).1.trans hSeq, (hKept hEvents).2.trans hRst⟩
      · rcases hPlace with ⟨hSeq, -⟩ | ⟨-, hReset⟩
        · exact hIdle (hSeq ▸ hPhase)
        · exact hIdle hReset

/-- Settles O60: the turn that comes is TICK_START where the sequencer stood in Idle. -/
theorem tickStartIsEventuallyTaken : Obligations.TickStartIsEventuallyTaken := by
  intro s
  obtain ⟨n, t, hLength, hRun, hTurn, hKept, hIdle⟩ := exists_run_to_turn s
  refine ⟨n, t, hLength, hRun, hTurn, hKept, fun hPhase => ⟨hIdle hPhase, fun hRst => ?_⟩⟩
  refine ⟨_, step_of_idle hTurn hRst (hIdle hPhase), ?_⟩
  rw [tickStart, takeEvent_seq, takeEvent_rxq]
  rfl

/-! ## The turns that a tick takes -/

/-- How many turns the tick still takes at most, from a place in it that is not WaitRelease (R138). -/
def Sequencer.turnsLeft (q : Sequencer) : Nat :=
  match q.phase with
  | .idle => 0
  | .drain => q.budget + 8
  | .dispatch => 7
  | .poll | .waitRelease => 6 - q.ch.val

theorem Sequencer.turnsLeft_pos {q : Sequencer} (h : q.phase ≠ .idle) : 0 < q.turnsLeft := by
  cases hPhase : q.phase with
  | idle => exact absurd hPhase h
  | _ => simp [turnsLeft, hPhase]

/-- From `s` to `t` the tick comes nearer its end, with `rst` as it was. -/
def Nearer (s t : State) : Prop := t.seq.turnsLeft < s.seq.turnsLeft ∧ t.ports.rst = s.ports.rst

theorem Sequencer.turnsLeft_nextPlace {q : Sequencer} (h : q.phase = .poll) : q.nextPlace.turnsLeft < q.turnsLeft := by
  have hChannel := q.ch.isLt
  by_cases hLast : q.ch = 5
  · simp [nextPlace, turnsLeft, h, hLast]
  · have hNext : (q.ch + 1).val = q.ch.val + 1 := Fin.val_add_one_of_lt (Fin.lt_last_iff_ne_last.2 hLast)
    simp only [nextPlace, if_neg hLast, turnsLeft, h, hNext]
    omega

theorem drainStep_nearer {s t : State} (hPhase : s.seq.phase = .drain) (h : drainStep s = .next t) : Nearer s t := by
  rcases drainStep_cases s with ⟨_, _, -, hBudget, -, hFed⟩ | hEnds
  · have hFewer : Sequencer.turnsLeft { s.seq with budget := s.seq.budget - 1 } < s.seq.turnsLeft := by
      simp only [Sequencer.turnsLeft, hPhase]
      omega
    rcases hFed with ⟨-, e⟩ | ⟨-, e⟩ <;> rw [e] at h <;> cases h <;> exact ⟨hFewer, rfl⟩
  · have hFewer : Sequencer.turnsLeft { s.seq with phase := .dispatch } < s.seq.turnsLeft := by
      simp only [Sequencer.turnsLeft, hPhase]
      omega
    rw [hEnds] at h
    cases h
    exact ⟨hFewer, rfl⟩

theorem dispatchStep_nearer {s t : State} (hPhase : s.seq.phase = .dispatch) (h : dispatchStep s = .next t) : Nearer s t := by
  have hTurns : s.seq.turnsLeft = 7 := by rw [Sequencer.turnsLeft, hPhase]
  rcases dispatchStep_next h with rfl | ⟨_, _, -, hExec, rfl⟩
  · exact ⟨hTurns ▸ Nat.lt_succ_self 6, rfl⟩
  · obtain ⟨_, _, _, _, _, _, _, rfl⟩ := exec_frame hExec
    exact ⟨hTurns ▸ Nat.lt_succ_self 6, rfl⟩

theorem pollStep_nearer {s : State} (hPhase : s.seq.phase = .poll) (hPassed : (pollStep s).seq.phase ≠ .waitRelease) :
    Nearer s (pollStep s) := by
  have hNext := Sequencer.turnsLeft_nextPlace hPhase
  cases hChannel : chanAt s.seq.ch with
  | dig d =>
    rw [pollStep_of_digital hChannel, pollDigital_eq]
    exact ⟨hNext, rfl⟩
  | an a =>
    rw [pollStep_of_analog hChannel] at hPassed ⊢
    have hPlace : s.seq.placeAfter (analogOutcome a s).result = s.seq.nextPlace := if_neg fun hWait => hPassed (by rw [hWait]; rfl)
    rw [hPlace, pollAnalog_eq]
    exact ⟨hNext, rfl⟩

/-- Each turn of a tick that does not wait for the button brings it nearer its end. -/
theorem sequencerStep_nearer {s t : State} (h : sequencerStep s = .next t) (hIdle : s.seq.phase ≠ .idle)
    (hFrom : s.seq.phase ≠ .waitRelease) (hTo : t.seq.phase ≠ .waitRelease) : Nearer s t := by
  cases hPhase : s.seq.phase <;> simp only [sequencerStep, hPhase] at h
  case idle => exact absurd hPhase hIdle
  case drain => exact drainStep_nearer hPhase h
  case dispatch => exact dispatchStep_nearer hPhase h
  case poll => cases h; exact pollStep_nearer hPhase hTo
  case waitRelease => exact absurd hPhase hFrom

/-- A tick in progress ends within the turns that it has left, whatever events fall between them. -/
theorem exists_idle_of_turnsLeft (n : Nat) (s : State) (hRst : s.ports.rst = false) (hFrom : s.seq.phase ≠ .waitRelease)
    (hIdle : s.seq.phase ≠ .idle) (hStates : ∀ t ∈ statesOf n s, t.seq.phase ≠ .waitRelease)
    (hTurns : s.seq.turnsLeft ≤ (eventsOf n s).count .sequencer) : ∃ t ∈ statesOf n s, t.seq.phase = .idle := by
  induction n generalizing s with
  | zero => exact absurd (Sequencer.turnsLeft_pos hIdle) (Nat.not_lt.2 hTurns)
  | succ n ih =>
    obtain ⟨t, hStep⟩ := step_next fun hWait => absurd hWait hFrom
    rw [eventsOf_next hStep] at hTurns
    rw [statesOf_next hStep] at hStates ⊢
    obtain ⟨hTo, hLater⟩ := List.forall_mem_cons.1 hStates
    rw [List.exists_mem_cons_iff]
    by_cases hEnded : t.seq.phase = .idle
    · exact .inl hEnded
    right
    by_cases hTurn : nextEvent s = .sequencer
    · rw [step_sequencer hTurn hRst] at hStep
      obtain ⟨hFewer, hSameRst⟩ := sequencerStep_nearer hStep (by rwa [takeEvent_seq]) (by rwa [takeEvent_seq]) hTo
      rw [takeEvent_seq] at hFewer
      rw [takeEvent_ports] at hSameRst
      rw [hTurn, List.count_cons_self] at hTurns
      exact ih t (hSameRst.trans hRst) hTo hEnded hLater (by omega)
    · rw [step_environment rfl hTurn] at hStep
      cases hStep
      obtain ⟨hSeq, hSameRst⟩ := (environmentStep_place (nextEvent s) (takeEvent s)).resolve_right fun h => hEnded h.2
      rw [takeEvent_seq] at hSeq
      rw [takeEvent_ports] at hSameRst
      rw [List.count_cons_of_ne hTurn] at hTurns
      exact ih _ (hSameRst.trans hRst) hTo hEnded hLater (hSeq ▸ hTurns)

/-- Settles O34: TICK_START leaves `B + 8` turns. -/
theorem tickEndsWithinItsBound : Obligations.TickEndsWithinItsBound := by
  intro s n hTurn hRst hIdle hStates hTurns
  cases n with
  | zero => simp [eventsOf] at hTurns
  | succ n =>
    have hStep := step_of_idle hTurn hRst hIdle
    rw [eventsOf_next hStep, hTurn, List.count_cons_self] at hTurns
    rw [statesOf_next hStep] at hStates ⊢
    obtain ⟨hTo, hLater⟩ := List.forall_mem_cons.1 hStates
    have hLeft : (tickStart (takeEvent s)).seq.turnsLeft = s.rxq.length + 8 := by
      rw [tickStart, takeEvent_rxq]; rfl
    obtain ⟨t, hMem, hEnded⟩ := exists_idle_of_turnsLeft n (tickStart (takeEvent s)) (by simpa [tickStart] using hRst) hTo
      Phase.noConfusion hLater (by omega)
    exact ⟨t, List.mem_cons_of_mem _ hMem, hEnded⟩

end Sys2Proof.Machine
end

section
/-! Settles O35: from a quiescent state the core only turns round its empty ticks (R140). -/
namespace Sys2Proof.Machine

open Sys2Proof.Safety

/-! ## An empty tick -/

/-- A core with nothing to do, wherever in its tick: what R140 asks for, but for the phase. -/
structure AtRest (s : State) : Prop where
  empty : s.rxq = []
  ready : s.framer.state = .awaitingOpcode
  analog : ∀ a, (s.ana.get a).state = .halt
  digital : ∀ d, (s.dig.get d).state = .halt
  phase : s.seq.phase ≠ .waitRelease

theorem atRest_of_quiescent {s : State} (h : Quiescent s) : AtRest s :=
  ⟨h.empty, h.ready, h.analog, h.digital, by simp [h.idle]⟩

/-- The place after one turn of an empty tick. -/
def Sequencer.emptyTurn (q : Sequencer) : Sequencer :=
  match q.phase with
  | .idle => { q with phase := .drain, budget := 0 }
  | .drain => { q with phase := .dispatch }
  | .dispatch => { q with ch := 0, phase := .poll }
  | .poll => q.nextPlace
  | .waitRelease => q

/-- Nine turns are one empty tick: TICK_START, DRAIN, DISPATCH and six POLL. -/
theorem Sequencer.emptyTurn_nine {q : Sequencer} (h : q.phase = .idle) :
    emptyTurn^[9] q = { phase := .idle, ch := 0, budget := 0, epoch := q.epoch } := by
  obtain ⟨phase, ch, budget, epoch⟩ := q
  cases h
  rfl

theorem Sequencer.emptyTurn_epoch (q : Sequencer) : q.emptyTurn.epoch = q.epoch := by
  cases hPhase : q.phase <;> simp only [emptyTurn, hPhase]
  case poll => exact q.nextPlace_keeps.2

theorem Sequencer.emptyTurn_phase {q : Sequencer} (h : q.phase ≠ .waitRelease) : q.emptyTurn.phase ≠ .waitRelease := by
  cases hPhase : q.phase with
  | poll =>
    simp only [emptyTurn, hPhase, nextPlace]
    split <;> simp
  | waitRelease => exact absurd hPhase h
  | _ => simp [emptyTurn, hPhase]

/-- Polling a halted channel does nothing (R103). -/
theorem pollAnalog_of_halt {s : State} {a : AnId} (h : (s.ana.get a).state = .halt) : pollAnalog a s = s := by
  rw [pollAnalog_eq, analogOutcome, AnalogChannel.poll_of_halt h]
  simp

/-- Polling a halted channel does nothing (R122). -/
theorem pollDigital_of_halt {s : State} {d : DigId} (h : (s.dig.get d).state = .halt) : pollDigital d s = s := by
  rw [pollDigital_eq, DigitalChannel.poll_of_halt h]
  simp

/-- A POLL step of a core at rest only passes the turn on. -/
theorem AtRest.pollStep_eq {s : State} (h : AtRest s) : pollStep s = { s with seq := s.seq.nextPlace } := by
  cases hChannel : chanAt s.seq.ch with
  | dig d => rw [pollStep_of_digital hChannel, pollDigital_of_halt (h.digital d)]
  | an a =>
    rw [pollStep_of_analog hChannel, pollAnalog_of_halt (h.analog a), analogOutcome, AnalogChannel.poll_of_halt (h.analog a)]
    rfl

/-- A turn of a core at rest moves its place in the tick alone. -/
theorem AtRest.sequencerStep_eq {s : State} (h : AtRest s) : sequencerStep s = .next { s with seq := s.seq.emptyTurn } := by
  cases hPhase : s.seq.phase <;> simp only [sequencerStep, Sequencer.emptyTurn, hPhase]
  case idle =>
    have hBudget : s.rxq.length = 0 := by rw [h.empty]; rfl
    rw [tickStart, hBudget]
    rfl
  case drain => rw [drainStep_ends (.inl h.empty)]
  case dispatch => rw [dispatchStep_empty (by simp [h.ready])]
  case poll => rw [h.pollStep_eq]
  case waitRelease => exact absurd hPhase h.phase

/-! ## A run that nothing disturbs -/

/-- From `s` to `t` only the place in the tick, the input ports and the record of events changed. -/
def OnlyPlaceMoved (s t : State) : Prop :=
  ∃ seq ports sched drawn, t = { s with seq := seq, ports := ports, sched := sched, drawn := drawn } ∧ seq.epoch = s.seq.epoch

theorem OnlyPlaceMoved.trans {s u t : State} (h : OnlyPlaceMoved s u) (h' : OnlyPlaceMoved u t) : OnlyPlaceMoved s t := by
  obtain ⟨_, _, _, _, rfl, hEpoch⟩ := h
  obtain ⟨seq, ports, sched, drawn, rfl, hEpoch'⟩ := h'
  exact ⟨seq, ports, sched, drawn, rfl, hEpoch'.trans hEpoch⟩

theorem takeEvent_onlyPlaceMoved (s : State) : OnlyPlaceMoved s (takeEvent s) := ⟨_, _, _, _, takeEvent_eq s, rfl⟩

theorem AtRest.moved {s t : State} (h : AtRest s) (hMoved : OnlyPlaceMoved s t) (hPhase : t.seq.phase ≠ .waitRelease) :
    AtRest t := by
  obtain ⟨_, _, _, _, rfl, -⟩ := hMoved
  exact { h with phase := hPhase }

theorem takeEvent_atRest {s : State} (h : AtRest s) : AtRest (takeEvent s) :=
  h.moved (takeEvent_onlyPlaceMoved s) (by rw [takeEvent_seq]; exact h.phase)

/-- But for a byte or an event of reset, the receive path and the environment write input ports alone. -/
theorem environmentStep_ports {e : Event} (s : State) (hReset : isReset e = false) (hByte : ∀ b, e ≠ .rx b) :
    ∃ ports, environmentStep e s = { s with ports := ports } := by
  rcases environmentStep_cases e s with h | ⟨b, hArrived, -⟩ | ⟨ports, h, -⟩ | ⟨_, rfl | rfl, -⟩
  · exact ⟨s.ports, h⟩
  · exact absurd hArrived (hByte b)
  · exact ⟨ports, h⟩
  · cases hReset
  · cases hReset

/-- No step disturbs a core at rest but the arrival of a byte and the events of reset. -/
theorem AtRest.of_step {s t : State} (h : AtRest s) (hStep : step s = .next t) (hReset : isReset (nextEvent s) = false)
    (hByte : ∀ b, nextEvent s ≠ .rx b) : OnlyPlaceMoved s t ∧ AtRest t := by
  have hTaken := takeEvent_atRest h
  suffices hMoved : OnlyPlaceMoved (takeEvent s) t ∧ t.seq.phase ≠ .waitRelease from
    ⟨(takeEvent_onlyPlaceMoved s).trans hMoved.1, hTaken.moved hMoved.1 hMoved.2⟩
  by_cases hTurn : nextEvent s = .sequencer
  · cases hRst : s.ports.rst with
    | true =>
      rw [step_held hTurn hRst] at hStep
      cases hStep
      exact ⟨⟨_, _, _, _, rfl, rfl⟩, hTaken.phase⟩
    | false =>
      rw [step_sequencer hTurn hRst, hTaken.sequencerStep_eq] at hStep
      cases hStep
      exact ⟨⟨_, _, _, _, rfl, Sequencer.emptyTurn_epoch _⟩, Sequencer.emptyTurn_phase hTaken.phase⟩
  · rw [step_environment rfl hTurn] at hStep
    cases hStep
    obtain ⟨ports, hNew⟩ := environmentStep_ports (takeEvent s) hReset hByte
    rw [hNew]
    exact ⟨⟨_, _, _, _, rfl, rfl⟩, hTaken.phase⟩

theorem core_run_succ {n : Nat} {s t : State} (h : Host.Core.run core (n + 1) s = .next t) :
    ∃ u, step s = .next u ∧ Host.Core.run core n u = .next t := by
  cases hStep : step s with
  | next u => exact ⟨u, rfl, (core_run_next hStep).symm.trans h⟩
  | fault r =>
    have hStop : core.step s = .fault r := hStep
    simp [Host.Core.run, hStop] at h
  | refused r =>
    have hStop : core.step s = .refused r := hStep
    simp [Host.Core.run, hStop] at h

/-- However many steps are taken. -/
theorem AtRest.run {s : State} (h : AtRest s) (n : Nat) {t : State} (hRun : Host.Core.run core n s = .next t)
    (hEvents : ∀ e ∈ eventsOf n s, isReset e = false ∧ ∀ b, e ≠ .rx b) : OnlyPlaceMoved s t := by
  induction n generalizing s with
  | zero => cases hRun; exact ⟨_, _, _, _, rfl, rfl⟩
  | succ n ih =>
    obtain ⟨u, hStep, hRest⟩ := core_run_succ hRun
    rw [eventsOf_next hStep, List.forall_mem_cons] at hEvents
    obtain ⟨⟨hReset, hByte⟩, hLater⟩ := hEvents
    obtain ⟨hMoved, hAtRest⟩ := h.of_step hStep hReset hByte
    exact hMoved.trans (ih hAtRest hRest hLater)

/-! ## A run of the sequencer's turns -/

/-- The record of events does not read the place in the tick. -/
theorem takeEvents_moved (n : Nat) (s : State) (q : Sequencer) :
    takeEvents n { s with seq := q } = { takeEvents n s with seq := q } := by
  induction n generalizing s with
  | zero => rfl
  | succ n ih =>
    have hTake : takeEvent { s with seq := q } = { takeEvent s with seq := q } := by
      simp only [takeEvent]
      split <;> rfl
    rw [takeEvents, takeEvents, hTake, ih]

/-- Turn after turn, a core at rest moves its place in the tick alone. -/
theorem AtRest.run_turns {s : State} (h : AtRest s) (hRst : s.ports.rst = false) (n : Nat)
    (hTurns : ∀ k < n, nextEvent (takeEvents k s) = .sequencer) :
    Host.Core.run core n s = .next { takeEvents n s with seq := Sequencer.emptyTurn^[n] s.seq } := by
  induction n generalizing s with
  | zero => rfl
  | succ n ih =>
    have hTaken := takeEvent_atRest h
    have hStep : step s = .next { takeEvent s with seq := s.seq.emptyTurn } := by
      have hTurn : nextEvent s = .sequencer := hTurns 0 n.succ_pos
      rw [step_sequencer hTurn hRst, hTaken.sequencerStep_eq, takeEvent_seq]
    have hNext : AtRest { takeEvent s with seq := s.seq.emptyTurn } :=
      hTaken.moved ⟨_, _, _, _, rfl, by simp [Sequencer.emptyTurn_epoch]⟩ (Sequencer.emptyTurn_phase h.phase)
    rw [core_run_next hStep, ih hNext (by simpa using hRst) fun k hk => ?_, takeEvents_moved]
    · rfl
    · rw [takeEvents_moved]
      exact hTurns (k + 1) (Nat.succ_lt_succ hk)

/-- Settles O35: one whole empty tick, and any run that nothing disturbs. -/
theorem emptyTickOfAQuiescentCoreIsSilent : Obligations.EmptyTickOfAQuiescentCoreIsSilent := by
  intro s h
  have hAtRest := atRest_of_quiescent h
  constructor
  · intro hRst hTurns
    rw [hAtRest.run_turns hRst 9 hTurns, Sequencer.emptyTurn_nine h.idle]
  · intro n t hRun hEvents
    obtain ⟨_, _, _, _, rfl, hEpoch⟩ := hAtRest.run n hRun hEvents
    exact ⟨rfl, hEpoch⟩

end Sys2Proof.Machine
end

section
/-! Settles O36 to O45: what each command answers, what it does to each register, and what it keeps (R142 to R158). -/
namespace Sys2Proof.Machine

open Sys2Proof.Safety

/-! ## The reply (R65, R87, R133) -/

/-- A handler that emits `body`, and otherwise only sets the LED, the channels, the epoch and the ports, is answered by ACK. -/
theorem answered_ack (s : State) (led : Led) (ana : AnalogBank) (dig : DigitalBank) (epoch : Micros) (ports : Ports) (body : List Byte) :
    Answered s
      { s with
        led := led, ana := ana, dig := dig, seq := { s.seq with epoch := epoch }, ports := ports
        tx := s.tx ++ body ++ [0x21], framer := s.framer.ready } body 0x21 where
  tx := rfl
  framer := rfl
  par := rfl
  rxq := rfl
  phase := ⟨rfl, rfl, rfl⟩
  events := ⟨rfl, rfl⟩

/-- The same for a handler that emits nothing. -/
theorem answered_ack_silent (s : State) (led : Led) (ana : AnalogBank) (dig : DigitalBank) (epoch : Micros) (ports : Ports) :
    Answered s
      { s with
        led := led, ana := ana, dig := dig, seq := { s.seq with epoch := epoch }, ports := ports
        tx := s.tx ++ [0x21], framer := s.framer.ready } [] 0x21 := by
  simpa only [List.append_nil] using answered_ack s led ana dig epoch ports []

/-! ## Run control (R142 to R144) -/

/-- Settles O36: each channel is armed or kept as its own bit says. -/
theorem armStartsTheSelectedChannels : Obligations.ArmStartsTheSelectedChannels := fun m s =>
  ⟨_, exec_arm m s, answered_ack_silent .., rfl, rfl, rfl, rfl, rfl, rfl, rfl, rfl, rfl⟩

/-- Settles O37: `haltPort` of every channel. -/
theorem haltStopsEveryChannel : Obligations.HaltStopsEveryChannel := fun s =>
  ⟨_, exec_halt s, answered_ack_silent .., s.dig.get_mapAll _, s.ana.get_mapAll _, rfl, rfl, rfl⟩

/-- Settles O38: only the LED register is written. -/
theorem blinkledLatchesItsValue : Obligations.BlinkledLatchesItsValue := fun v s =>
  ⟨_, exec_blinkled v s, answered_ack_silent .., rfl, rfl, rfl, rfl, rfl⟩

/-! ## Immediate reads (R145 to R152) -/

/-- R145: an immediate read replies with the blob of its value and tag. -/
theorem immediateReply_afterImmediate (raw : Raw) (src : BitVec 3) (s : State) :
    ImmediateReply s (afterImmediate raw src s) raw src where
  answered := answered_ack ..
  epoch := rfl
  led := rfl
  analog := rfl
  digital := rfl
  time := rfl

/-- Settles O39: one reply for each input and tag. -/
theorem immediateReadsReportTheirInput : Obligations.ImmediateReadsReportTheirInput := fun s =>
  ⟨⟨_, exec_immDig1 s, immediateReply_afterImmediate ..⟩,
    ⟨_, exec_immDig2 s, immediateReply_afterImmediate ..⟩,
    ⟨_, exec_immAn051 s, immediateReply_afterImmediate ..⟩,
    ⟨_, exec_immAn101 s, immediateReply_afterImmediate ..⟩,
    ⟨_, exec_immAn052 s, immediateReply_afterImmediate ..⟩,
    ⟨_, exec_immAn102 s, immediateReply_afterImmediate ..⟩,
    ⟨_, exec_immButstate s, immediateReply_afterImmediate ..⟩⟩

/-! ## Operand codes (R156 to R158) -/

theorem conditionOf_of_legal {k : Digit} {cond : TriggerCond}
    (h : (k = 0 ∧ cond = .immediate) ∨ (k = 1 ∧ cond = .riseAbove) ∨ (k = 2 ∧ cond = .fallBelow)) : conditionOf k = some cond := by
  rcases h with ⟨rfl, rfl⟩ | ⟨rfl, rfl⟩ | ⟨rfl, rfl⟩ <;> rfl

theorem conditionOf_of_illegal {k : Digit} (h : 3 ≤ k.toNat) : conditionOf k = none := by
  rw [conditionOf, if_neg (by bv_omega), if_neg (by bv_omega), if_neg (by bv_omega)]

theorem edgeModeOf_of_legal {e : Digit} {mode : EdgeMode}
    (h : (e = 0 ∧ mode = .any) ∨ (e = 1 ∧ mode = .risingOnly) ∨ (e = 2 ∧ mode = .fallingOnly)) : edgeModeOf e = some mode := by
  rcases h with ⟨rfl, rfl⟩ | ⟨rfl, rfl⟩ | ⟨rfl, rfl⟩ <;> rfl

theorem edgeModeOf_of_illegal {e : Digit} (h : 3 ≤ e.toNat) : edgeModeOf e = none := by
  rw [edgeModeOf, if_neg (by bv_omega), if_neg (by bv_omega), if_neg (by bv_omega)]

/-- Selectors 1 to 4 name an analog channel (D35). -/
theorem selectedAnalog_ne_none {n : Digit} (hLow : 1 ≤ n.toNat) (hHigh : n.toNat ≤ 4) : selectedAnalog n ≠ none := by
  have hSelector : n = 1 ∨ n = 2 ∨ n = 3 ∨ n = 4 := by bv_omega
  rcases hSelector with rfl | rfl | rfl | rfl <;> exact Option.some_ne_none _

theorem selectedAnalog_of_illegal {n : Digit} (h : 5 ≤ n.toNat) : selectedAnalog n = none := by
  rw [selectedAnalog, if_neg (by bv_omega), if_neg (by bv_omega), if_neg (by bv_omega), if_neg (by bv_omega)]

/-! ## Modes (R153 to R157) -/

/-- Settles O40: `sync` of every channel to the time, which is also the new epoch. -/
theorem syncAlignsEveryChannelAtOnce : Obligations.SyncAlignsEveryChannelAtOnce := fun s =>
  ⟨_, exec_mdeSync s, answered_ack_silent .., rfl, s.ana.get_mapAll _, s.dig.get_mapAll _, rfl, rfl⟩

/-- Settles O41: R4 makes the table a map, so an entry is what the code is looked up to. -/
theorem sampleTimeSetsTheTableEntry : Obligations.SampleTimeSetsTheTableEntry := by
  intro c s hWf
  constructor
  · intro period hEntry
    have hPeriod : ratePeriod s.par c = some period := ratePeriod_of_mem (Params.wf_ratesFunctional hWf) hEntry
    exact ⟨_, exec_mdeAsamptime_ok hPeriod, answered_ack_silent .., s.ana.get_mapAll _, rfl, rfl, rfl, rfl⟩
  · intro hNoEntry
    exact exec_mdeAsamptime_bad (ratePeriod_none.2 hNoEntry)

/-- Settles O42: `setStopCondition` of every analog channel, with the count that the two digits compose. -/
theorem stopCountIsSetOnEveryAnalogChannel : Obligations.StopCountIsSetOnEveryAnalogChannel := by
  intro p1 p2 s
  refine ⟨_, exec_mdeAstop (composeDigits p1 p2) s, answered_ack_silent .., fun a => ?_, rfl, rfl, rfl, rfl⟩
  rw [AnalogBank.get_mapAll]
  exact ⟨composeDigits_toNat p1 p2, rfl⟩

/-- Settles O43: the code decides between `setTrigger` of every analog channel and the rejection. -/
theorem analogTriggerIsSetOrRejected : Obligations.AnalogTriggerIsSetOrRejected := by
  intro k p s
  constructor
  · intro cond hCode
    refine ⟨_, exec_mdeAtrig_ok p (conditionOf_of_legal hCode), answered_ack_silent .., fun a => ?_, rfl, rfl, rfl, rfl⟩
    rw [AnalogBank.get_mapAll]
    exact ⟨thresholdOf_toNat p, rfl⟩
  · intro hCode
    exact exec_mdeAtrig_bad p (conditionOf_of_illegal hCode)

/-- Settles O44: the code decides between `setTrigger` of both digital channels and the rejection. -/
theorem digitalTriggerIsSetOrRejected : Obligations.DigitalTriggerIsSetOrRejected := by
  intro e s
  constructor
  · intro mode hCode
    exact ⟨_, exec_mdeDtrig_ok (edgeModeOf_of_legal hCode), answered_ack_silent .., s.dig.get_mapAll _, rfl, rfl, rfl, rfl⟩
  · intro hCode
    exact exec_mdeDtrig_bad (edgeModeOf_of_illegal hCode)

/-! ## Status (R158) -/

/-- Settles O45: the selector decides between the text and the rejection. -/
theorem statusCommandsEmitTheText : Obligations.StatusCommandsEmitTheText := by
  intro n s
  refine ⟨⟨_, exec_stVers s, rfl, answered_ack ..⟩, fun hLow hHigh => ?_, fun hIllegal => ?_⟩
  · have hLegal : ¬(n ≠ 0 ∧ selectedAnalog n = none) := fun ⟨_, hNone⟩ => selectedAnalog_ne_none hLow hHigh hNone
    exact ⟨_, exec_stAnalog_ok hLegal, rfl, answered_ack ..⟩
  · exact exec_stAnalog_bad (by bv_omega) (selectedAnalog_of_illegal hIllegal)

end Sys2Proof.Machine
end

section
/-! Settles O24 and O25: what the environment's events do to the input ports (R172, R175, R176). Settles O50: the one reply of every command
(R133, R159, R163, R165). -/
namespace Sys2Proof.Machine

/-! ## Input ports (R172, R175, R176) -/

/-- An event that only drives the input ports does so to the ports as they stand. -/
theorem step_of_drive {s : State} {e : Event} (drive : Ports → Ports) (hEvent : nextEvent s = e) (hTurn : e ≠ .sequencer)
    (hDrive : ∀ u, environmentStep e u = { u with ports := drive u.ports }) :
    step s = .next { takeEvent s with ports := drive s.ports } := by
  rw [step_environment hEvent hTurn, hDrive, takeEvent_ports]

/-- Every time less than 2^31 microseconds past the last value read is that value and an advance (R172). -/
theorem Ports.exists_driveTime {p : Ports} {u : Micros} (h : (u - p.lastNow).toNat < 2 ^ 31) :
    ∃ adv, (p.driveTime adv).nowUs = u := by
  have hAdvance : ((u - p.lastNow).setWidth 31).setWidth 32 = u - p.lastNow :=
    BitVec.setWidth_setWidth_eq_self (BitVec.lt_def.2 h)
  exact ⟨(u - p.lastNow).setWidth 31, by rw [Ports.driveTime, hAdvance, add_sub_cancel]⟩

/-- Settles O24: the new time is an advance past the last value read, and every such time has its advance. -/
theorem timeMovesWithinHalfTheRange : Obligations.TimeMovesWithinHalfTheRange := by
  constructor
  · intro s adv hEvent
    exact ⟨_, step_of_drive (·.driveTime adv) hEvent nofun fun _ => rfl, rfl, s.ports.driveTime_sub adv⟩
  · intro s u hNear
    obtain ⟨adv, hTime⟩ := Ports.exists_driveTime hNear
    exact ⟨adv, _, step_of_drive (·.driveTime adv) rfl nofun fun _ => rfl, hTime⟩

/-- Settles O25: each event drives its own port. -/
theorem environmentDrivesItsOwnPortOnly : Obligations.EnvironmentDrivesItsOwnPortOnly := by
  intro s
  refine ⟨fun d l hEvent => ?_, fun a r hEvent => ?_, fun l hEvent => ?_, fun x hEvent => ?_⟩
  · refine ⟨_, step_of_drive (·.driveDigital d l) hEvent nofun fun _ => rfl, rfl, ?_, fun d' hOther => ?_, s.ports.driveDigital_eq d l⟩
    · rw [Ports.driveDigital_digIn, if_pos rfl]
    · rw [Ports.driveDigital_digIn, if_neg hOther]
  · refine ⟨_, step_of_drive (·.driveAnalog a r) hEvent nofun fun _ => rfl, rfl, ?_, fun a' hOther => ?_, s.ports.driveAnalog_eq a r⟩
    · rw [Ports.driveAnalog_anIn, if_pos rfl]
    · rw [Ports.driveAnalog_anIn, if_neg hOther]
  · exact step_of_drive ({ · with button := l }) hEvent nofun fun _ => rfl
  · exact step_of_drive ({ · with status := x }) hEvent nofun fun _ => rfl

/-! ## The one reply of a command (R133, R163) -/

/-- Settles O50: a command is answered or rejected, as its cause says. -/
theorem everyCommandIsAnsweredOnce : Obligations.EveryCommandIsAnsweredOnce := by
  intro i s hCommand
  rcases exec_command s hCommand with ⟨hNone, _, _, _, _, _, body, hBody, -, hExec⟩ | ⟨hCause, hExec⟩
  · exact ⟨fun _ => ⟨_, body, hExec, answered_ack .., hBody⟩, fun hCause => absurd hNone hCause⟩
  · exact ⟨fun hNone => absurd hNone hCause, fun _ => hExec⟩

end Sys2Proof.Machine
end

section
/-! Settles O1 to O4 and O6: the encoder, the decoder of byte lists, and the framer with DISPATCH agree (R66 to R77, R82, R83, R141). Every command
has one wire form, its opcode byte and the parameters that its count collects; `decodeCommand` and `encode` are inverse on it. -/
namespace Sys2Proof.Machine

open Sys2Proof.Safety

/-! ## The wire form of a command (R69) -/

/-- The bytes of the opcode of function code `fc` and count `n` with the parameters that the count collects (R69). -/
def commandBytes (fc : BitVec 5) (n : BitVec 2) (p1 p2 : Digit) : List Byte :=
  opcodeByte fc n :: (collected n p1 p2).map paramByte

@[simp] theorem collected_zero (p1 p2 : Digit) : collected 0 p1 p2 = [] := rfl

@[simp] theorem collected_one (p1 p2 : Digit) : collected 1 p1 p2 = [p1] := rfl

theorem collected_more {n : BitVec 2} (hZero : n ≠ 0) (hOne : n ≠ 1) (p1 p2 : Digit) : collected n p1 p2 = [p1, p2] := by
  rw [collected, if_neg hZero, if_neg hOne]

/-- The counts of a command (R69). -/
theorem count_cases {n : BitVec 2} (h : n ≠ 3) : n = 0 ∨ n = 1 ∨ n = 2 := by
  revert n; decide

/-- An opcode other than the reserved one collects as many parameters as its count says (R69, R76). -/
theorem ofNat_length_collected {n : BitVec 2} (h : n ≠ 3) (p1 p2 : Digit) : BitVec.ofNat 2 (collected n p1 p2).length = n := by
  rcases count_cases h with rfl | rfl | rfl <;> rfl

theorem length_collected_le_two (n : BitVec 2) (p1 p2 : Digit) : (collected n p1 p2).length ≤ 2 := by
  unfold collected
  split_ifs <;> simp

/-- Up to two parameters are what their own count collects (R77). -/
theorem exists_collected {ps : List Digit} (h : ps.length ≤ 2) : ∃ n p1 p2, n ≠ 3 ∧ ps = collected n p1 p2 := by
  match ps with
  | [] => exact ⟨0, 0, 0, by decide, rfl⟩
  | [p1] => exact ⟨1, p1, 0, by decide, rfl⟩
  | [p1, p2] => exact ⟨2, p1, p2, by decide, rfl⟩
  | _ :: _ :: _ :: _ => simp at h

/-- The two digits of a composed value are cut out of it (R50, R92). -/
theorem extract_composeDigits (p1 p2 : Digit) :
    (composeDigits p1 p2).extractLsb' 0 7 = p1 ∧ (composeDigits p1 p2).extractLsb' 7 7 = p2 := by
  have h1 := p1.isLt
  have h2 := p2.isLt
  constructor <;> apply BitVec.eq_of_toNat_eq <;>
    rw [BitVec.extractLsb'_toNat, composeDigits_toNat, Nat.shiftRight_eq_div_pow] <;> omega

/-- A row's instruction is encoded as the row's pair with the parameters that its count collects (R69, R73). -/
theorem encode_instr (p : Params) (r : MapRow) (p1 p2 : Digit) :
    encode p (r.instr p1 p2) = commandBytes (p.code r) r.count p1 p2 := by
  cases r with
  | mdeAstop =>
    obtain ⟨hLow, hHigh⟩ := extract_composeDigits p1 p2
    rw [MapRow.instr, encode, hLow, hHigh]; rfl
  | st =>
    rw [MapRow.instr]
    split
    case isTrue hVers => rw [hVers]; rfl
    case isFalse => rfl
  | _ => rfl

theorem encode_unknown {n : BitVec 2} (h : n ≠ 3) (p : Params) (fc : BitVec 5) (p1 p2 : Digit) :
    encode p (.unknown fc (collected n p1 p2)) = commandBytes fc n p1 p2 := by
  rw [encode, ofNat_length_collected h, commandBytes]

/-! ## The pair that DISPATCH looks up (R75, R77, R141) -/

theorem decodeCommand_row {p : Params} (h : p.codesDistinct = true) (r : MapRow) (p1 p2 : Digit) :
    decodeCommand p (p.code r) r.count p1 p2 = r.instr p1 p2 := by
  simp only [decodeCommand, handlerFor_row h r]

theorem decodeCommand_no_row {p : Params} {fc : BitVec 5} {n : BitVec 2} (h : handlerFor p fc n = none) (p1 p2 : Digit) :
    decodeCommand p fc n p1 p2 = .unknown fc (collected n p1 p2) := by
  simp only [decodeCommand, h]

/-- Only the parameters that the count collects decide what the pair decodes to (R69). -/
theorem decodeCommand_congr (p : Params) (fc : BitVec 5) {n : BitVec 2} {p1 p2 q1 q2 : Digit}
    (h : collected n p1 p2 = collected n q1 q2) : decodeCommand p fc n p1 p2 = decodeCommand p fc n q1 q2 := by
  by_cases hZero : n = 0
  · rw [hZero, decodeCommand_count_zero, decodeCommand_count_zero p fc q1 q2]
  by_cases hOne : n = 1
  · subst hOne
    obtain rfl : p1 = q1 := by simpa [collected] using h
    rw [decodeCommand_count_one, decodeCommand_count_one p fc p1 q2]
  · obtain ⟨rfl, rfl⟩ : p1 = q1 ∧ p2 = q2 := by simpa [collected_more hZero hOne] using h
    rfl

/-- Settles O4: `handlerFor` finds a row by its own pair, and no row by any other. -/
theorem dispatchKeyIsTheWholeOpcodeByte : Obligations.DispatchKeyIsTheWholeOpcodeByte :=
  fun _ p1 p2 =>
    ⟨fun r hDistinct => decodeCommand_row hDistinct r p1 p2, fun _ _ hOther => decodeCommand_no_row (handlerFor_none.2 hOther) p1 p2⟩

/-! ## `decodeCommand` and `encode` are inverse -/

theorem wf_instr (p : Params) (r : MapRow) (p1 p2 : Digit) : (r.instr p1 p2).wf p = true := by
  cases r with
  | st =>
    rw [MapRow.instr]
    split
    case isTrue => rfl
    case isFalse hOther => exact bne_iff_ne.2 hOther
  | _ => rfl

theorem wf_unknown_iff {p : Params} {fc : BitVec 5} {ps : List Digit} :
    (Instr.unknown fc ps).wf p = true ↔ ps.length ≤ 2 ∧ handlerFor p fc (BitVec.ofNat 2 ps.length) = none := by
  simp [Instr.wf, atMostTwo, unlisted, ← Bool.not_eq_true, Params.listed_iff]

/-- What a pair decodes to is well formed and encoded by that pair, under every assignment. -/
theorem encode_decodeCommand {n : BitVec 2} (h : n ≠ 3) (p : Params) (fc : BitVec 5) (p1 p2 : Digit) :
    (decodeCommand p fc n p1 p2).wf p = true ∧ encode p (decodeCommand p fc n p1 p2) = commandBytes fc n p1 p2 := by
  cases hRow : handlerFor p fc n with
  | none =>
    rw [decodeCommand_no_row hRow]
    exact ⟨wf_unknown_iff.2 ⟨length_collected_le_two .., by rwa [ofNat_length_collected h]⟩, encode_unknown h ..⟩
  | some r =>
    obtain ⟨rfl, rfl⟩ := handlerFor_some hRow
    simp only [decodeCommand, hRow]
    exact ⟨wf_instr .., encode_instr ..⟩

/-- A well-formed command is the instruction of a row, or an unknown opcode whose pair no row has (R141). -/
theorem command_cases {p : Params} {i : Instr} (hWf : i.wf p = true) (hCommand : isCommand i = true) :
    (∃ r p1 p2, i = MapRow.instr p1 p2 r) ∨
    (∃ fc n p1 p2, n ≠ 3 ∧ handlerFor p fc n = none ∧ i = .unknown fc (collected n p1 p2)) := by
  cases i with
  | param | reservedN3 => cases hCommand
  | unknown fc ps =>
    obtain ⟨hLength, hRow⟩ := wf_unknown_iff.1 hWf
    obtain ⟨n, p1, p2, hCount, rfl⟩ := exists_collected hLength
    exact .inr ⟨fc, n, p1, p2, hCount, by rwa [ofNat_length_collected hCount] at hRow, rfl⟩
  | mdeAstop stop => exact .inl ⟨.mdeAstop, _, _, by rw [MapRow.instr, composeDigits_extract]⟩
  | stVers => exact .inl ⟨.st, 0, 0, rfl⟩
  | stAnalog selector => exact .inl ⟨.st, selector, 0, (if_neg (bne_iff_ne.1 hWf)).symm⟩
  | mdeAtrig cond threshold => exact .inl ⟨.mdeAtrig, cond, threshold, rfl⟩
  | arm v => exact .inl ⟨.arm, v, 0, rfl⟩
  | blinkled v => exact .inl ⟨.blinkled, v, 0, rfl⟩
  | mdeAsamptime v => exact .inl ⟨.mdeAsamptime, v, 0, rfl⟩
  | mdeDtrig v => exact .inl ⟨.mdeDtrig, v, 0, rfl⟩
  | halt => exact .inl ⟨.halt, 0, 0, rfl⟩
  | immDig1 => exact .inl ⟨.immDig1, 0, 0, rfl⟩
  | immDig2 => exact .inl ⟨.immDig2, 0, 0, rfl⟩
  | immAn051 => exact .inl ⟨.immAn051, 0, 0, rfl⟩
  | immAn101 => exact .inl ⟨.immAn101, 0, 0, rfl⟩
  | immAn052 => exact .inl ⟨.immAn052, 0, 0, rfl⟩
  | immAn102 => exact .inl ⟨.immAn102, 0, 0, rfl⟩
  | immButstate => exact .inl ⟨.immButstate, 0, 0, rfl⟩
  | mdeSync => exact .inl ⟨.mdeSync, 0, 0, rfl⟩

/-- Under R3 every well-formed command is encoded by a pair that decodes to it. -/
theorem exists_commandBytes {p : Params} (hDistinct : p.codesDistinct = true) {i : Instr} (hWf : i.wf p = true)
    (hCommand : isCommand i = true) :
    ∃ fc n p1 p2, n ≠ 3 ∧ encode p i = commandBytes fc n p1 p2 ∧ decodeCommand p fc n p1 p2 = i := by
  rcases command_cases hWf hCommand with ⟨r, p1, p2, rfl⟩ | ⟨fc, n, p1, p2, hCount, hRow, rfl⟩
  · exact ⟨_, _, p1, p2, r.count_ne_three, encode_instr .., decodeCommand_row hDistinct ..⟩
  · exact ⟨fc, n, p1, p2, hCount, encode_unknown hCount .., decodeCommand_no_row hRow ..⟩

/-! ## Decoding a byte list -/

/-- The bytes of a command decode to what its pair decodes to (R69, R75). -/
theorem decode_commandBytes {n : BitVec 2} (h : n ≠ 3) (p : Params) (fc : BitVec 5) (p1 p2 : Digit) (rest : List Byte) :
    decode p (commandBytes fc n p1 p2 ++ rest) = .ok (decodeCommand p fc n p1 p2) rest := by
  rcases count_cases h with rfl | rfl | rfl
  · rw [decodeCommand_count_zero]
    simp [commandBytes, collected, decode, decodeParams]
  · rw [decodeCommand_count_one]
    simp [commandBytes, collected, decode, decodeParams]
  · simp [commandBytes, collected, decode, decodeParams]

/-- Settles O2: a byte class by its own byte, a command by its pair. -/
theorem decodeOfEncodeIsIdentity : Obligations.DecodeOfEncodeIsIdentity := by
  intro p i rest hPar hWf
  cases hCommand : isCommand i with
  | true =>
    obtain ⟨fc, n, p1, p2, hCount, hBytes, hDecode⟩ := exists_commandBytes (Params.wf_codesDistinct hPar) hWf hCommand
    rw [hBytes, decode_commandBytes hCount, hDecode]
  | false =>
    cases i with
    | param v => simp [encode, decode]
    | reservedN3 fc => simp [encode, decode]
    | _ => cases hCommand

/-- What `decodeParams` takes off the list are the parameters that the count collects. -/
theorem decodeParams_ok {p : Params} {b : Byte} {bs rest : List Byte} {i : Instr} (h : decodeParams p b bs = .ok i rest) :
    ∃ p1 p2, i = decodeCommand p (functionCode b) (paramCount b) p1 p2 ∧
      bs = (collected (paramCount b) p1 p2).map paramByte ++ rest := by
  unfold decodeParams at h
  split at h
  case isTrue hZero =>
    cases h
    exact ⟨0, 0, rfl, by rw [hZero, collected_zero]; rfl⟩
  case isFalse hZero =>
    rcases bs with _ | ⟨b1, bs⟩
    · cases h
    dsimp only at h
    split at h
    case isTrue => cases h
    case isFalse hFirst =>
      split at h
      case isTrue hOne =>
        cases h
        exact ⟨paramValue b1, 0, rfl, by simp only [hOne, collected_one]; simp [paramByte_value, hFirst]⟩
      case isFalse hOne =>
        rcases bs with _ | ⟨b2, bs⟩
        · cases h
        dsimp only at h
        split at h
        case isTrue => cases h
        case isFalse hSecond =>
          cases h
          refine ⟨paramValue b1, paramValue b2, rfl, ?_⟩
          simp [collected_more hZero hOne, paramByte_value, hFirst, hSecond]

/-- Everything that a byte list can decode to: a PARAM byte, a reserved-count opcode, or a command by its pair. -/
theorem decode_ok_cases {p : Params} {bs rest : List Byte} {i : Instr} (h : decode p bs = .ok i rest) :
    (∃ v, i = .param v ∧ bs = paramByte v :: rest) ∨
    (∃ fc, i = .reservedN3 fc ∧ bs = opcodeByte fc 3 :: rest) ∨
    (∃ fc n p1 p2, n ≠ 3 ∧ i = decodeCommand p fc n p1 p2 ∧ bs = commandBytes fc n p1 p2 ++ rest) := by
  cases bs with
  | nil => cases h
  | cons b bs =>
    cases hByte : isOpcodeByte b with
    | false =>
      obtain ⟨rfl, rfl⟩ : .param (paramValue b) = i ∧ bs = rest := by simpa [decode, hByte] using h
      exact .inl ⟨_, rfl, by rw [paramByte_value b hByte]⟩
    | true =>
      by_cases hCount : paramCount b = 3
      · obtain ⟨rfl, rfl⟩ : .reservedN3 (functionCode b) = i ∧ bs = rest := by simpa [decode, hByte, hCount] using h
        exact .inr (.inl ⟨_, rfl, by rw [← hCount, opcodeByte_fields b hByte]⟩)
      · rw [decode, if_pos hByte, if_neg hCount] at h
        obtain ⟨p1, p2, rfl, rfl⟩ := decodeParams_ok h
        exact .inr (.inr ⟨_, _, p1, p2, hCount, rfl, by rw [commandBytes, opcodeByte_fields b hByte]; rfl⟩)

/-- Settles O3: each of the three readings is an encoding. -/
theorem decodedBytesAreTheEncoding : Obligations.DecodedBytesAreTheEncoding := by
  intro p bs rest i h
  rcases decode_ok_cases h with ⟨v, rfl, rfl⟩ | ⟨fc, rfl, rfl⟩ | ⟨fc, n, p1, p2, hCount, rfl, rfl⟩
  · exact ⟨rfl, rfl⟩
  · exact ⟨rfl, rfl⟩
  · obtain ⟨hWf, hBytes⟩ := encode_decodeCommand hCount p fc p1 p2
    exact ⟨hWf, by rw [hBytes]⟩

/-- Settles O1: the decoder, run on each word under TESTCFG (D45). -/
theorem specWordsDecodeUnderTestcfg : Obligations.SpecWordsDecodeUnderTestcfg := by
  refine ⟨?_, ?_, ?_, ?_, ?_, ?_, ?_, ?_⟩ <;> decide

/-! ## The framer (R82, R83) -/

/-- R82: an opcode of count 0 completes an accepting framer at once. -/
theorem Framer.feedByte_opcode_last {f : Framer} (h : f.accepts = true) (fc : BitVec 5) :
    f.feedByte (opcodeByte fc 0) = { f with op := opcodeByte fc 0, k := 0, rem := 0, state := .complete } := by
  rw [feedByte_opcode h (isOpcodeByte_opcodeByte ..), feedOpcode_complete f (paramCount_opcodeByte ..)]

/-- R82: after an opcode of count 1 or 2 the framer collects. -/
theorem Framer.feedByte_opcode_more {f : Framer} (h : f.accepts = true) (fc : BitVec 5) {n : BitVec 2} (hCount : n = 1 ∨ n = 2) :
    f.feedByte (opcodeByte fc n) = { f with op := opcodeByte fc n, k := 0, rem := n, state := .collecting } := by
  have hCount' : paramCount (opcodeByte fc n) = n := paramCount_opcodeByte ..
  rw [feedByte_opcode h (isOpcodeByte_opcodeByte ..), feedOpcode_collecting f (by rwa [hCount']), hCount']

/-- The bytes of a command complete an accepting framer, with its opcode latched and its parameters in the slots that the count collects. -/
theorem feedAll_commandBytes {n : BitVec 2} (hCount : n ≠ 3) {f : Framer} (hAccepts : f.accepts = true) (fc : BitVec 5) (p1 p2 : Digit) :
    let g := feedAll (commandBytes fc n p1 p2) f
    g.state = .complete ∧ g.op = opcodeByte fc n ∧ collected n g.p1 g.p2 = collected n p1 p2 := by
  rcases count_cases hCount with rfl | rfl | rfl
  · simp only [commandBytes, collected_zero, feedAll, List.map_nil, List.foldl_cons, List.foldl_nil,
      Framer.feedByte_opcode_last hAccepts, and_self]
  · simp [commandBytes, collected, feedAll, Framer.feedByte_opcode_more hAccepts, Framer.feedByte_param, Framer.feedParam_first]
  · simp [commandBytes, collected, feedAll, Framer.feedByte_opcode_more hAccepts, Framer.feedByte_param, Framer.feedParam_first,
      Framer.feedParam_second]

/-- Settles O6: the slots that the count does not collect keep what they held, and DISPATCH does not read them. -/
theorem framerCollectsWhatDispatchDecodes : Obligations.FramerCollectsWhatDispatchDecodes := by
  intro p i f hPar hWf hCommand hState
  obtain ⟨fc, n, p1, p2, hCount, hBytes, hDecode⟩ := exists_commandBytes (Params.wf_codesDistinct hPar) hWf hCommand
  obtain ⟨hComplete, hOp, hSlots⟩ := feedAll_commandBytes hCount ((Framer.accepts_iff f).2 hState) fc p1 p2
  rw [hBytes, hOp, functionCode_opcodeByte, paramCount_opcodeByte, decodeCommand_congr p fc hSlots]
  exact ⟨hComplete, hDecode⟩

end Sys2Proof.Machine
end

section
/-! Settles O7 to O9: the framer's parameter access (R91, R92) and its replies (R87, R88). -/
namespace Sys2Proof.Machine

open Sys2Proof.Safety

/-! ## The parameter slots (R91, R92) -/

/-- An index past the collected slots, or 0, has the sentinel (R91, D9). -/
theorem Framer.getParameterAt_of_absent {f : Framer} {i : Byte} (h : i = 0 ∨ f.k.toNat < i.toNat) :
    f.getParameterAt i = Config.paramSentinel := by
  have hAbsent : ∀ (j : Byte) (n : BitVec 2), j ≠ 0 → n.toNat = j.toNat → ¬(i = j ∧ n ≤ f.k) := by
    rintro j n hNonzero hSame ⟨rfl, hCollected⟩
    have hSlots := BitVec.le_def.1 hCollected
    rcases h with hZero | hPast
    · exact hNonzero hZero
    · omega
  rw [getParameterAt, if_neg (hAbsent 1 1 (by decide) rfl), if_neg (hAbsent 2 2 (by decide) rfl)]

/-- Settles O7: the two slots where they are collected, and the sentinel elsewhere. -/
theorem parameterAccessIsBounded : Obligations.ParameterAccessIsBounded := by
  intro f _
  refine ⟨fun h => ?_, fun h => ?_, fun _ => Framer.getParameterAt_of_absent⟩
  · rw [Framer.getParameterAt, if_pos ⟨rfl, BitVec.le_def.2 h⟩]
  · rw [Framer.getParameterAt, if_neg (by simp), if_pos ⟨rfl, BitVec.le_def.2 h⟩]

/-- With both slots collected, `getParameter()` is the composed operand of dispatch (R92). -/
theorem Framer.getParameter_of_two {f : Framer} (h : f.k = 2) : f.getParameter = (composeDigits f.p1 f.p2).setWidth 21 := by
  apply BitVec.eq_of_getLsbD_eq
  intro i hi
  by_cases hLow : i < 7
  · simp [getParameter, composeDigits, h, hi, hLow]
  by_cases hHigh : i < 14
  · simp [getParameter, composeDigits, h, hi, hLow, hHigh]
  · have hSlot : f.p2.getLsbD (i - 7) = false := BitVec.getLsbD_of_ge _ _ (by omega)
    simp [getParameter, composeDigits, h, hi, hLow, hHigh, hSlot]

/-- Settles O8: a complete command of count 2 has both slots collected. -/
theorem composedParameterIsTheStopCount : Obligations.ComposedParameterIsTheStopCount := by
  intro f hOk hComplete hCount
  obtain ⟨-, -, -, hCollected⟩ := hOk.complete hComplete
  have hValue := composeDigits_toNat f.p1 f.p2
  rw [Framer.getParameter_of_two (hCollected.trans hCount), BitVec.toNat_setWidth_of_le (by decide)]
  exact ⟨hValue, hValue⟩

/-! ## The reply (R87, R88) -/

/-- Settles O9: one byte on TX and `Framer.ready`, and nothing else. -/
theorem replyLeavesTheFramerReady : Obligations.ReplyLeavesTheFramerReady :=
  fun _ => ⟨rfl, rfl, rfl, rfl⟩

end Sys2Proof.Machine
end

section
/-! Settles O18: a periodic channel without a stop count, however late, gains one period of `nextRead` with each reading (R109, R187). -/
namespace Sys2Proof.Machine

open Sys2Proof.Safety

/-- A running periodic channel without a stop count takes one reading or stays as it is (R109). -/
theorem serveAnalog_periodic {c : AnalogChannel} (hState : c.state = .run) (hStop : c.stop = 0) (hPeriod : c.period ≠ 0)
    (i : AnalogInput) : (∃ r t, serveAnalog i c = (.data, c.takeReading r t)) ∨ serveAnalog i c = (.nodata, c) := by
  rw [serveAnalog, AnalogChannel.poll_of_period_ne_zero hState (AnalogChannel.stopReached_eq_false_iff.2 (.inl hStop)) hPeriod,
    AnalogChannel.periodicStep]
  split
  · exact .inl ⟨_, _, rfl⟩
  · exact .inr rfl

theorem AnalogChannel.takeReading_schedule (c : AnalogChannel) (r : Raw) (t : Micros) :
    (c.takeReading r t).nextRead = c.nextRead + c.period ∧ (c.takeReading r t).count = c.count + 1 ∧
      (c.takeReading r t).period = c.period := ⟨rfl, rfl, rfl⟩

/-- Settles O18: by induction on the services, of which the first moves schedule and count by one period and by one, or not at all. -/
theorem lateChannelCatchesUpOnePeriodAPoll : Obligations.LateChannelCatchesUpOnePeriodAPoll := by
  intro is
  induction is with
  | nil =>
    intro c hState _ _
    exact ⟨by simp [serveReadings, dataCount], by simp [serveReadings, dataCount], hState⟩
  | cons i is ih =>
    intro c hState hStop hPeriod
    rcases serveAnalog_periodic hState hStop hPeriod i with ⟨r, t, e⟩ | e <;> rw [serveReadings_cons e]
    · obtain ⟨hNext, hCount, hRun⟩ := ih (c.takeReading r t) hState hStop hPeriod
      obtain ⟨hRead, hCounted, hKept⟩ := c.takeReading_schedule r t
      have hSucc (n : Nat) : BitVec.ofNat 32 (n + 1) = BitVec.ofNat 32 n + 1 := BitVec.ofNat_add ..
      rw [dataCount_cons_data, hSucc, hNext, hCount, hRead, hCounted, hKept, add_one_mul]
      exact ⟨by ac_rfl, by ac_rfl, hRun⟩
    · rw [dataCount_cons_nodata]
      exact ih c hState hStop hPeriod

end Sys2Proof.Machine
end

section
/-! Settles O26 and O27: the register values of reset, and how the `rst` pin brings them back (R36, R180, R182, D38; assumption 7). -/
namespace Sys2Proof.Machine

open Sys2Proof.Safety

theorem resetRegisters_ofReset (p : Params) (ports : Ports) (sched : List Event) (drawn : Nat) :
    ResetRegisters (State.ofReset p ports sched drawn) where
  framer := rfl
  sequencer := rfl
  queues := ⟨rfl, rfl⟩
  led := rfl
  analog a := by cases a <;> rfl
  digital d := by cases d <;> rfl

/-- Settles O26: the table of R180, under the core's own parameters and input ports. -/
theorem resetValuesOfTheRegisters : Obligations.ResetValuesOfTheRegisters :=
  ⟨resetRegisters_ofReset .., rfl⟩

/-! ## The `rst` pin (R180, R182) -/

theorem releaseReset_of_asserted {s : State} (h : s.ports.rst = true) :
    releaseReset s = State.ofReset s.par { s.ports with rst := false } s.sched s.drawn := by
  rw [releaseReset, if_pos h]

theorem releaseReset_of_released {s : State} (h : s.ports.rst = false) : releaseReset s = s := by
  simp [releaseReset, h]

theorem step_of_rstAssert {s : State} (h : nextEvent s = .rstAssert) : step s = .next (assertReset (takeEvent s)) :=
  step_environment h nofun

theorem step_of_rstRelease {s : State} (h : nextEvent s = .rstRelease) : step s = .next (releaseReset (takeEvent s)) :=
  step_environment h nofun

/-- A step whose event is the head of the list. -/
theorem step_cons {s : State} {e : Event} {es : List Event} (h : s.sched = e :: es) : step s = perform e { s with sched := es } := by
  rw [step, nextEvent_cons h, takeEvent_cons h]

/-- A digital input that changes and a byte that arrives while `rst` is asserted: the byte is lost, the sequencer holds, and the release samples
the input as it then stands (R36, R182). -/
theorem run_through_reset {s : State} {d : DigId} {l : Bit} {b : Byte} {es : List Event}
    (h : s.sched = .rstAssert :: .digital d l :: .rx b :: .sequencer :: .rstRelease :: es) :
    Host.Core.run core 5 s =
      .next (State.ofReset s.par { s.ports.driveDigital d l with rst := false } es s.drawn) := by
  have hAssert : step s = .next (State.ofReset s.par { s.ports with rst := true }
      (.digital d l :: .rx b :: .sequencer :: .rstRelease :: es) s.drawn) := step_cons h
  rw [core_run_next hAssert]
  -- From the reset registers on, the event and `rst` alone decide what each of the four steps does.
  cases d <;> rfl

/-- Settles O27: every event of `rst`, a turn between them, and one whole reset. -/
theorem resetPinRestoresTheResetRegisters : Obligations.ResetPinRestoresTheResetRegisters := by
  intro s
  refine ⟨fun hEvent => ?_, fun hEvent hRst => ?_, fun hEvent hRst => ?_, step_held, fun d l b es hEvents => ?_⟩
  · exact ⟨_, step_of_rstAssert hEvent, resetRegisters_ofReset .., takeEvent_par s, by simp [assertReset, State.ofReset], rfl, rfl⟩
  · rw [step_of_rstRelease hEvent, releaseReset_of_asserted (by rwa [takeEvent_ports])]
    exact ⟨_, rfl, resetRegisters_ofReset .., takeEvent_par s, by simp [State.ofReset], rfl, rfl⟩
  · rw [step_of_rstRelease hEvent, releaseReset_of_released (by rwa [takeEvent_ports])]
  · have hReset := resetRegisters_ofReset s.par { s.ports.driveDigital d l with rst := false } es s.drawn
    refine ⟨_, run_through_reset hEvents, hReset, ?_, rfl, rfl, ?_, rfl⟩
    · rw [hReset.digital]
      cases d <;> rfl
    · cases d <;> rfl

end Sys2Proof.Machine
end

section
/-! Settles O52 and O53: what instructions and steps do to run states, source tags and parameters (R33, R43, R184, R190). -/
namespace Sys2Proof.Machine

open Sys2Proof.Safety

/-! ## What an instruction keeps of the channels -/

/-- The commands that write run states of analog channels (R142, R143, R112, R113, R115, R153). -/
def writesAnalogState : Instr → Bool
  | .arm _ | .halt | .mdeSync | .mdeAsamptime _ | .mdeAtrig _ _ => true
  | _ => false

/-- The commands that write run states of digital channels (R142, R143, R124, R125, R153). -/
def writesDigitalState : Instr → Bool
  | .arm _ | .halt | .mdeSync | .mdeDtrig _ => true
  | _ => false

/-- The channels' source tags are the same in both states. -/
structure SameTags (s t : State) : Prop where
  analog : ∀ a, (t.ana.get a).src = (s.ana.get a).src
  digital : ∀ d, (t.dig.get d).src = (s.dig.get d).src

/-- An instruction keeps every source tag, and only the commands named write run states. -/
structure KeepsChannels (i : Instr) (s t : State) : Prop where
  tags : SameTags s t
  analog : writesAnalogState i = false → ∀ a, (t.ana.get a).state = (s.ana.get a).state
  digital : writesDigitalState i = false → ∀ d, (t.dig.get d).state = (s.dig.get d).state

theorem KeepsChannels.of_banks {i : Instr} {s t : State} (hAna : t.ana = s.ana) (hDig : t.dig = s.dig) : KeepsChannels i s t :=
  ⟨⟨fun _ => by rw [hAna], fun _ => by rw [hDig]⟩, fun _ _ => by rw [hAna], fun _ _ => by rw [hDig]⟩

theorem AnalogBank.src_mapAll {b : AnalogBank} {f : AnId → AnalogChannel → AnalogChannel} (h : ∀ a c, (f a c).src = c.src) (a : AnId) :
    ((b.mapAll f).get a).src = (b.get a).src := by
  rw [get_mapAll, h]

theorem DigitalBank.src_mapAll {b : DigitalBank} {f : DigId → DigitalChannel → DigitalChannel} (h : ∀ d c, (f d c).src = c.src)
    (d : DigId) : ((b.mapAll f).get d).src = (b.get d).src := by
  rw [get_mapAll, h]

theorem exec_keepsChannels {i : Instr} {s t : State} (h : exec i s = .next t) : KeepsChannels i s t := by
  cases i with
  | arm m =>
    rw [exec_arm] at h; cases h
    exact ⟨⟨AnalogBank.src_mapAll fun _ _ => by split <;> rfl, DigitalBank.src_mapAll fun _ _ => by split <;> rfl⟩, nofun, nofun⟩
  | halt =>
    rw [exec_halt] at h; cases h
    exact ⟨⟨AnalogBank.src_mapAll fun _ _ => rfl, DigitalBank.src_mapAll fun _ _ => rfl⟩, nofun, nofun⟩
  | mdeSync =>
    rw [exec_mdeSync] at h; cases h
    exact ⟨⟨AnalogBank.src_mapAll fun _ _ => rfl, DigitalBank.src_mapAll fun _ _ => rfl⟩, nofun, nofun⟩
  | mdeAstop n =>
    rw [exec_mdeAstop] at h; cases h
    exact ⟨⟨AnalogBank.src_mapAll fun _ _ => rfl, fun _ => rfl⟩, fun _ _ => by rw [AnalogBank.get_mapAll]; rfl, fun _ _ => rfl⟩
  | mdeAsamptime c =>
    cases hRate : ratePeriod s.par c with
    | some p =>
      rw [exec_mdeAsamptime_ok hRate] at h; cases h
      exact ⟨⟨AnalogBank.src_mapAll fun _ _ => rfl, fun _ => rfl⟩, nofun, fun _ _ => rfl⟩
    | none => rw [exec_mdeAsamptime_bad hRate] at h; cases h; exact .of_banks rfl rfl
  | mdeAtrig k th =>
    cases hCond : conditionOf k with
    | some cond =>
      rw [exec_mdeAtrig_ok th hCond] at h; cases h
      exact ⟨⟨AnalogBank.src_mapAll fun _ _ => rfl, fun _ => rfl⟩, nofun, fun _ _ => rfl⟩
    | none => rw [exec_mdeAtrig_bad th hCond] at h; cases h; exact .of_banks rfl rfl
  | mdeDtrig e =>
    cases hMode : edgeModeOf e with
    | some m =>
      rw [exec_mdeDtrig_ok hMode] at h; cases h
      exact ⟨⟨fun _ => rfl, DigitalBank.src_mapAll fun _ _ => rfl⟩, fun _ _ => rfl, nofun⟩
    | none => rw [exec_mdeDtrig_bad hMode] at h; cases h; exact .of_banks rfl rfl
  | stAnalog n =>
    by_cases hBad : n ≠ 0 ∧ selectedAnalog n = none
    · rw [exec_stAnalog_bad hBad.1 hBad.2] at h; cases h; exact .of_banks rfl rfl
    · rw [exec_stAnalog_ok hBad] at h; cases h; exact .of_banks rfl rfl
  | reservedN3 fc =>
    rw [exec_reservedN3] at h; cases h
    cases hAccepts : s.framer.accepts with
    | true => rw [feedReserved_accepts hAccepts]; exact .of_banks rfl rfl
    | false => rw [feedReserved_not_accepts hAccepts]; exact .of_banks rfl rfl
  | _ => cases h; exact .of_banks rfl rfl

theorem writesAnalogState_iff {i : Instr} :
    writesAnalogState i = true ↔
      (∃ m, i = .arm m) ∨ i = .halt ∨ i = .mdeSync ∨ (∃ c, i = .mdeAsamptime c) ∨ ∃ k p, i = .mdeAtrig k p := by
  cases i <;> simp [writesAnalogState]

theorem writesDigitalState_iff {i : Instr} :
    writesDigitalState i = true ↔ (∃ m, i = .arm m) ∨ i = .halt ∨ i = .mdeSync ∨ ∃ e, i = .mdeDtrig e := by
  cases i <;> simp [writesDigitalState]

/-- Settles O52: every other command keeps the run states. -/
theorem runStateIsKeptByTheOtherCommands : Obligations.RunStateIsKeptByTheOtherCommands := by
  intro i s t h
  have hKeeps := exec_keepsChannels h
  constructor
  · rintro ⟨a, hChanged⟩
    rw [← writesAnalogState_iff, ← Bool.not_eq_false]
    exact fun hOther => hChanged (hKeeps.analog hOther a)
  · rintro ⟨d, hChanged⟩
    rw [← writesDigitalState_iff, ← Bool.not_eq_false]
    exact fun hOther => hChanged (hKeeps.digital hOther d)

/-! ## What a step keeps of the parameters and tags -/

/-- From `s` to `t` the parameters stay, and a source tag that is its parameter stays so (R33, R43, R184). -/
structure KeepsParameters (s t : State) : Prop where
  par : t.par = s.par
  analog : ∀ a, (s.ana.get a).src = s.par.tags.analog a → (t.ana.get a).src = t.par.tags.analog a
  digital : ∀ d, (s.dig.get d).src = s.par.tags.digital d → (t.dig.get d).src = t.par.tags.digital d

theorem KeepsParameters.of_tags {s t : State} (hPar : t.par = s.par) (h : SameTags s t) : KeepsParameters s t :=
  ⟨hPar, fun a hTag => by rw [h.analog, hTag, hPar], fun d hTag => by rw [h.digital, hTag, hPar]⟩

theorem KeepsParameters.of_registers {s t : State} (hPar : t.par = s.par) (hAna : t.ana = s.ana) (hDig : t.dig = s.dig) :
    KeepsParameters s t :=
  .of_tags hPar ⟨fun _ => by rw [hAna], fun _ => by rw [hDig]⟩

theorem KeepsParameters.trans {s u t : State} (h : KeepsParameters s u) (h' : KeepsParameters u t) : KeepsParameters s t :=
  ⟨h'.par.trans h.par, fun a hTag => h'.analog a (h.analog a hTag), fun d hTag => h'.digital d (h.digital d hTag)⟩

theorem exec_keepsParameters {i : Instr} {s t : State} (h : exec i s = .next t) : KeepsParameters s t := by
  have hTags := (exec_keepsChannels h).tags
  obtain ⟨_, _, _, _, _, _, _, rfl⟩ := exec_frame h
  exact .of_tags rfl hTags

theorem AnalogBank.src_set {b : AnalogBank} {a : AnId} {c : AnalogChannel} (h : c.src = (b.get a).src) (a' : AnId) :
    ((b.set a c).get a').src = (b.get a').src := by
  rw [get_set]
  split
  case isTrue hSame => exact hSame ▸ h
  case isFalse => rfl

theorem DigitalBank.src_set {b : DigitalBank} {d : DigId} {c : DigitalChannel} (h : c.src = (b.get d).src) (d' : DigId) :
    ((b.set d c).get d').src = (b.get d').src := by
  rw [get_set]
  split
  case isTrue hSame => exact hSame ▸ h
  case isFalse => rfl

theorem pollDigital_keepsParameters (d : DigId) (s : State) : KeepsParameters s (pollDigital d s) := by
  obtain ⟨-, -, hSrc, -⟩ := (s.dig.get d).poll_config (s.ports.digIn d) s.ports.nowUs
  rw [pollDigital_eq]
  exact .of_tags rfl ⟨fun _ => rfl, DigitalBank.src_set hSrc⟩

theorem pollAnalog_keepsParameters (a : AnId) (s : State) : KeepsParameters s (pollAnalog a s) := by
  obtain ⟨-, -, -, -, -, hSrc⟩ := (s.ana.get a).poll_config (s.ports.anIn a) (now s) s.ports.button
  rw [pollAnalog_eq]
  exact .of_tags rfl ⟨AnalogBank.src_set hSrc, fun _ => rfl⟩

theorem pollStep_keepsParameters (s : State) : KeepsParameters s (pollStep s) := by
  obtain ⟨_, e | ⟨d, e⟩ | ⟨a, e⟩⟩ := pollStep_next s <;> rw [e]
  · exact .of_registers rfl rfl rfl
  · exact (pollDigital_keepsParameters d s).trans (.of_registers rfl rfl rfl)
  · exact (pollAnalog_keepsParameters a s).trans (.of_registers rfl rfl rfl)

theorem waitReleaseStep_keepsParameters {s t : State} (h : waitReleaseStep s = .next t) : KeepsParameters s t := by
  rcases waitReleaseStep_next h with rfl | ⟨a, _, rfl⟩
  · exact .of_registers rfl rfl rfl
  · exact .of_tags rfl ⟨AnalogBank.src_set rfl, fun _ => rfl⟩

theorem drainStep_keepsParameters {s t : State} (h : drainStep s = .next t) : KeepsParameters s t := by
  rcases drainStep_cases s with ⟨_, _, -, -, -, ⟨-, e⟩ | ⟨-, e⟩⟩ | e <;> rw [e] at h <;> cases h <;> exact .of_registers rfl rfl rfl

theorem dispatchStep_keepsParameters {s t : State} (h : dispatchStep s = .next t) : KeepsParameters s t := by
  rcases dispatchStep_next h with rfl | ⟨_, _, -, hExec, rfl⟩
  · exact .of_registers rfl rfl rfl
  · exact (exec_keepsParameters hExec).trans (.of_registers rfl rfl rfl)

/-- Reset writes the tags that the parameters give (R180). -/
theorem environmentStep_keepsParameters (e : Event) (s : State) : KeepsParameters s (environmentStep e s) := by
  rcases environmentStep_cases e s with h | ⟨_, -, -, -, h⟩ | ⟨_, h, -⟩ | ⟨rst, -, h⟩ <;> rw [h]
  case inr.inr.inr =>
    have hReset := resetRegisters_ofReset s.par { s.ports with rst := rst } s.sched s.drawn
    exact ⟨rfl, fun a _ => by rw [hReset.analog a], fun d _ => by rw [hReset.digital d]⟩
  all_goals exact .of_registers rfl rfl rfl

theorem step_keepsParameters {s t : State} (h : step s = .next t) : KeepsParameters s t := by
  refine KeepsParameters.trans (.of_registers (takeEvent_par s) (takeEvent_ana s) (takeEvent_dig s)) ?_
  rcases step_cases h with ⟨-, rfl⟩ | ⟨-, -, rfl⟩ | ⟨-, -, -, rfl⟩ | ⟨-, -, -, hDrain⟩ | ⟨-, -, -, hDispatch⟩ | ⟨-, -, -, rfl⟩ |
    ⟨-, -, -, hWait⟩
  · exact environmentStep_keepsParameters ..
  · exact .of_registers rfl rfl rfl
  · exact .of_registers rfl rfl rfl
  · exact drainStep_keepsParameters hDrain
  · exact dispatchStep_keepsParameters hDispatch
  · exact pollStep_keepsParameters _
  · exact waitReleaseStep_keepsParameters hWait

/-- Settles O53: the tags are compared with the parameters, which are the same before and after. -/
theorem parametersAreConstant : Obligations.ParametersAreConstant := by
  intro s t h
  obtain ⟨hPar, hAna, hDig⟩ := step_keepsParameters h
  rw [hPar] at hAna hDig
  exact ⟨hPar, hAna, hDig⟩

end Sys2Proof.Machine
end
